-- ==== Sys2Proof/Word.lean ====
section
/-! DEFINITION. The word of the machine, the addressing modes and parameters of an instruction, and the
names of the fault causes.  Nothing here is a bit vector: Intcode has no bit fields (R8), words are signed
integers and every operation on them is exact (R9, R132). -/

namespace Sys2Proof

/-! A **word** is an integer (R8, R22), so the type of words is `Int` throughout.  With a finite `WORD_BITS` it is
an integer of the signed range, which is a property of the values (`fit`, R12), not of the type.  (`Int` is
written out and not renamed, because `omega` reads numerals of the type `Int` only.) -/

/-- The parameter modes 0, 1 and 2 (R75, R76, R13). -/
inductive Mode where
  | position   -- mode 0
  | immediate  -- mode 1
  | relative   -- mode 2
  deriving DecidableEq, Repr

/-- A parameter of an instruction: its mode and the raw word of its parameter cell (R70). -/
structure Param where
  mode : Mode
  raw  : Int
  deriving DecidableEq, Repr

/-- The cause codes of the fault record, 0 to 8 (R221). -/
inductive FaultCause where
  | none              -- 0, the reset value
  | invalidOpcode     -- 1
  | invalidPc         -- 2
  | illegalMode       -- 3
  | excessModeDigits  -- 4
  | negativeWord      -- 5
  | negativeAddress   -- 6
  | addressRange      -- 7
  | overflow          -- 8
  deriving DecidableEq, Repr

/-- The arguments of `raise Fault(cause, info)` (R10): the first check of a step that fails. -/
structure Trap where
  cause : FaultCause
  info  : Int
  deriving DecidableEq, Repr

end Sys2Proof
end

