-- ==== Sys2Proof/Syntax.lean ====
section
/-! DEFINITION. The instructions, one constructor per row of spec/opcode_table.json (R78).  A parameter keeps
its mode and its raw word as fetched (R70, R77). -/

namespace Sys2Proof

/-- The ten instructions of R78, with the parameters a, b, c of R74. -/
inductive Instr where
  | add (a b c : Param)  -- opcode 1,  R130
  | mul (a b c : Param)  -- opcode 2,  R131
  | inp (a : Param)      -- opcode 3,  R140; the table's `in` (a keyword of Lean)
  | out (a : Param)      -- opcode 4,  R141
  | jt (a b : Param)     -- opcode 5,  R150
  | jf (a b : Param)     -- opcode 6,  R151
  | lt (a b c : Param)   -- opcode 7,  R160
  | eq (a b c : Param)   -- opcode 8,  R161
  | arb (a : Param)      -- opcode 9,  R170
  | hlt                  -- opcode 99, R180
  deriving DecidableEq, Repr

end Sys2Proof
end

