-- ==== Sys2Proof/WellFormed.lean ====
section
/-! DEFINITION. What makes an `Instr` an instruction of the hardware: no write parameter is immediate (R76,
R81).  Every raw word and every other mode is legal (R77). -/

namespace Sys2Proof

/-- A write parameter may be in position or relative mode only (R76, R81). -/
def Param.writable (p : Param) : Bool :=
  match p.mode with
  | .position  => true
  | .immediate => false
  | .relative  => true

/-- The roles of R74: parameter c of opcodes 1, 2, 7 and 8 and parameter a of opcode 3 are written. -/
def Instr.wellFormed : Instr → Bool
  | .add _ _ c => c.writable
  | .mul _ _ c => c.writable
  | .inp a     => a.writable
  | .out _     => true
  | .jt _ _    => true
  | .jf _ _    => true
  | .lt _ _ c  => c.writable
  | .eq _ _ c  => c.writable
  | .arb _     => true
  | .hlt       => true

end Sys2Proof
end

