-- ==== Sys2Proof/Decode.lean ====
section
/-! DEFINITION. The decoder (R71, R86), total on every integer, and after it the encoder (R87).  The
instruction word alone decides the opcode, the modes and the length (R85); the parameter cells follow it and
are never looked at. -/

namespace Sys2Proof

/-- A legal decoding `Legal(op, [m_1 .. m_n])` of an instruction word (R86). -/
inductive Head where
  | add (a b c : Mode)
  | mul (a b c : Mode)
  | inp (a : Mode)
  | out (a : Mode)
  | jt (a b : Mode)
  | jf (a b : Mode)
  | lt (a b c : Mode)
  | eq (a b c : Mode)
  | arb (a : Mode)
  | hlt
  deriving DecidableEq, Repr

/-- Why a list of words is no instruction: the instruction word is illegal, with the fault it raises (R86),
or the list ends before the instruction does (which the machine never sees: its cells go on, R53). -/
inductive DecodeError where
  | illegal (t : Trap)
  | truncated
  deriving DecidableEq, Repr

/-- `digit_j(w)`, decimal digit j of a non-negative number (R8). -/
def digit (n j : Nat) : Nat := n / 10 ^ j % 10

/-- The mode digit of read parameter k (R71): 0, 1 or 2, else ILLEGAL_MODE (R80). -/
def readMode (n k : Nat) : Except Trap Mode :=
  match digit n (k + 1) with
  | 0 => .ok .position
  | 1 => .ok .immediate
  | 2 => .ok .relative
  | _ => .error { cause := .illegalMode, info := k }

/-- The mode digit of write parameter k: 0 or 2, else ILLEGAL_MODE (R80, R81). -/
def writeMode (n k : Nat) : Except Trap Mode :=
  match digit n (k + 1) with
  | 0 => .ok .position
  | 2 => .ok .relative
  | _ => .error { cause := .illegalMode, info := k }

/-- Every digit above those of `params` mode digits is 0, else EXCESS_MODE_DIGITS (R71, R82). -/
def checkExcess (n params : Nat) : Except Trap Unit :=
  if n / 10 ^ (params + 2) = 0 then .ok ()
  else .error { cause := .excessModeDigits, info := (n / 100 : Nat) }

/-- Modes of the form read, read, write (opcodes 1, 2, 7, 8; R74). -/
def headRRW (mk : Mode → Mode → Mode → Head) (n : Nat) : Except Trap Head := do
  let a ← readMode n 1
  let b ← readMode n 2
  let c ← writeMode n 3
  checkExcess n 3
  .ok (mk a b c)

/-- Modes of the form read, read (opcodes 5, 6; R74). -/
def headRR (mk : Mode → Mode → Head) (n : Nat) : Except Trap Head := do
  let a ← readMode n 1
  let b ← readMode n 2
  checkExcess n 2
  .ok (mk a b)

/-- Modes of the form read (opcodes 4, 9; R74). -/
def headR (mk : Mode → Head) (n : Nat) : Except Trap Head := do
  let a ← readMode n 1
  checkExcess n 1
  .ok (mk a)

/-- Modes of the form write (opcode 3; R74). -/
def headW (mk : Mode → Head) (n : Nat) : Except Trap Head := do
  let a ← writeMode n 1
  checkExcess n 1
  .ok (mk a)

/-- No modes (opcode 99; R74). -/
def headNone (mk : Head) (n : Nat) : Except Trap Head := do
  checkExcess n 0
  .ok mk

/-- `Decode` on a non-negative word: the opcode is its low two decimal digits (R71, R78, R79). -/
def decodeNat (n : Nat) : Except Trap Head :=
  match n % 100 with
  | 1  => headRRW .add n
  | 2  => headRRW .mul n
  | 3  => headW .inp n
  | 4  => headR .out n
  | 5  => headRR .jt n
  | 6  => headRR .jf n
  | 7  => headRRW .lt n
  | 8  => headRRW .eq n
  | 9  => headR .arb n
  | 99 => headNone .hlt n
  | _  => .error { cause := .invalidOpcode, info := 0 }

/-- `Decode(w)` (R86), total on every integer; a negative word is NEGATIVE_WORD (R83). -/
def decodeWord (w : Int) : Except Trap Head :=
  if w < 0 then .error { cause := .negativeWord, info := 0 } else decodeNat w.toNat

/-- The number n of parameters of an opcode (R73). -/
def Head.nparams : Head → Nat
  | .add _ _ _ => 3
  | .mul _ _ _ => 3
  | .inp _     => 1
  | .out _     => 1
  | .jt _ _    => 2
  | .jf _ _    => 2
  | .lt _ _ _  => 3
  | .eq _ _ _  => 3
  | .arb _     => 1
  | .hlt       => 0

/-- The length in words, 1 + n (R73, R85). -/
def Head.length (h : Head) : Nat := h.nparams + 1

/-- The instruction whose parameters have the modes of the decoding and the raw words v_1, v_2, v_3; a raw
word the opcode has no parameter for is not looked at (R70). -/
def Head.instr (h : Head) (v1 v2 v3 : Int) : Instr :=
  match h with
  | .add a b c => .add ⟨a, v1⟩ ⟨b, v2⟩ ⟨c, v3⟩
  | .mul a b c => .mul ⟨a, v1⟩ ⟨b, v2⟩ ⟨c, v3⟩
  | .inp a     => .inp ⟨a, v1⟩
  | .out a     => .out ⟨a, v1⟩
  | .jt a b    => .jt ⟨a, v1⟩ ⟨b, v2⟩
  | .jf a b    => .jf ⟨a, v1⟩ ⟨b, v2⟩
  | .lt a b c  => .lt ⟨a, v1⟩ ⟨b, v2⟩ ⟨c, v3⟩
  | .eq a b c  => .eq ⟨a, v1⟩ ⟨b, v2⟩ ⟨c, v3⟩
  | .arb a     => .arb ⟨a, v1⟩
  | .hlt       => .hlt

/-- Decoding a list of words: the instruction at its front and the words after it (R70, R85). -/
def decode (ws : List Int) : Except DecodeError (Instr × List Int) :=
  match ws with
  | [] => .error .truncated
  | w :: vs =>
    match decodeWord w with
    | .error t => .error (.illegal t)
    | .ok h =>
      match h.nparams, vs with
      | 0, rest => .ok (h.instr 0 0 0, rest)
      | 1, v1 :: rest => .ok (h.instr v1 0 0, rest)
      | 2, v1 :: v2 :: rest => .ok (h.instr v1 v2 0, rest)
      | 3, v1 :: v2 :: v3 :: rest => .ok (h.instr v1 v2 v3, rest)
      | _, _ => .error .truncated

/-! The encoder. -/

/-- The digit of a mode (R75). -/
def Mode.digit : Mode → Nat
  | .position  => 0
  | .immediate => 1
  | .relative  => 2

/-- `w = op + 100*m_1 + 1000*m_2 + 10000*m_3`, the terms of absent parameters being 0 (R87). -/
def headNumber (op m1 m2 m3 : Nat) : Int := ((op + 100 * m1 + 1000 * m2 + 10000 * m3 : Nat) : Int)

/-- `Encode(op, ms)`: the one instruction word of a legal decoding (R87). -/
def encodeHead : Head → Int
  | .add a b c => headNumber 1 a.digit b.digit c.digit
  | .mul a b c => headNumber 2 a.digit b.digit c.digit
  | .inp a     => headNumber 3 a.digit 0 0
  | .out a     => headNumber 4 a.digit 0 0
  | .jt a b    => headNumber 5 a.digit b.digit 0
  | .jf a b    => headNumber 6 a.digit b.digit 0
  | .lt a b c  => headNumber 7 a.digit b.digit c.digit
  | .eq a b c  => headNumber 8 a.digit b.digit c.digit
  | .arb a     => headNumber 9 a.digit 0 0
  | .hlt       => headNumber 99 0 0 0

/-- The decoding an instruction comes from: its opcode and modes. -/
def Instr.head : Instr → Head
  | .add a b c => .add a.mode b.mode c.mode
  | .mul a b c => .mul a.mode b.mode c.mode
  | .inp a     => .inp a.mode
  | .out a     => .out a.mode
  | .jt a b    => .jt a.mode b.mode
  | .jf a b    => .jf a.mode b.mode
  | .lt a b c  => .lt a.mode b.mode c.mode
  | .eq a b c  => .eq a.mode b.mode c.mode
  | .arb a     => .arb a.mode
  | .hlt       => .hlt

/-- The parameters of an instruction in order, read and write alike (R74). -/
def Instr.params : Instr → List Param
  | .add a b c => [a, b, c]
  | .mul a b c => [a, b, c]
  | .inp a     => [a]
  | .out a     => [a]
  | .jt a b    => [a, b]
  | .jf a b    => [a, b]
  | .lt a b c  => [a, b, c]
  | .eq a b c  => [a, b, c]
  | .arb a     => [a]
  | .hlt       => []

/-- The raw parameters v_1 to v_n (R70). -/
def Instr.raws : Instr → List Int
  | .add a b c => [a.raw, b.raw, c.raw]
  | .mul a b c => [a.raw, b.raw, c.raw]
  | .inp a     => [a.raw]
  | .out a     => [a.raw]
  | .jt a b    => [a.raw, b.raw]
  | .jf a b    => [a.raw, b.raw]
  | .lt a b c  => [a.raw, b.raw, c.raw]
  | .eq a b c  => [a.raw, b.raw, c.raw]
  | .arb a     => [a.raw]
  | .hlt       => []

/-- The instruction word of an instruction (R70, R87). -/
def Instr.word (i : Instr) : Int := encodeHead i.head

/-- The length of an instruction in words (R73). -/
def Instr.length (i : Instr) : Nat := i.head.length

/-- The words of an instruction: the instruction word, then the raw parameters in order (R70, R88). -/
def encode (i : Instr) : List Int := i.word :: i.raws

/-- The read modes 0, 1, 2 and the write modes 0, 2 (R75, R76), for listing the legal words. -/
def readModes : List Mode := [.position, .immediate, .relative]
def writeModes : List Mode := [.position, .relative]

/-- Every decoding with three parameters read, read, write. -/
def headsRRW (mk : Mode → Mode → Mode → Head) : List Head :=
  readModes.flatMap fun a => readModes.flatMap fun b => writeModes.map fun c => mk a b c

/-- Every decoding with two read parameters. -/
def headsRR (mk : Mode → Mode → Head) : List Head :=
  readModes.flatMap fun a => readModes.map fun b => mk a b

/-- Every legal decoding: each combination of the opcode's allowed mode digits (R84). -/
def legalHeads : List Head :=
  headsRRW .add ++ headsRRW .mul ++ writeModes.map .inp ++ readModes.map .out ++ headsRR .jt ++ headsRR .jf
    ++ headsRRW .lt ++ headsRRW .eq ++ readModes.map .arb ++ [.hlt]

/-- The legal instruction words (R84). -/
def legalWords : List Int := legalHeads.map encodeHead

/-- The instruction the decoder reads from a word of the opcode table, its parameter cells 0.  A word is an
integer and one cell (R50, R55), so the number `w` is the instruction word whatever `nbits` is. -/
def decodeTableWord (nbits w : Nat) : Option Instr :=
  let _ := nbits
  match decode [(w : Int), 0, 0, 0] with
  | .ok (i, _) => some i
  | .error _   => none

end Sys2Proof
end

