-- ==== Sys2Proof/Config.lean ====
section
/-! DEFINITION. The four implementation parameters of the core (R6).  The spec leaves no behaviour free
(93_implementation_defined.md: "No behaviour of this spec is `any value`"), so there is no free value here. -/

namespace Sys2Proof

/-- The parameters `WORD_BITS`, `MEM_WORDS`, `IN_DEPTH` and `OUT_DEPTH` (R6); `none` is unbounded. -/
structure Config where
  wordBits : Option Nat
  memWords : Option Nat
  inDepth  : Option Nat
  outDepth : Option Nat
  deriving DecidableEq, Repr

/-- The reference configuration: every parameter unbounded (R6). -/
def Config.reference : Config :=
  { wordBits := none, memWords := none, inDepth := none, outDepth := none }

/-- A parameter is unbounded or at least `least` (the last column of R6's table). -/
def Config.atLeast (least : Nat) : Option Nat → Bool
  | none   => true
  | some n => decide (least ≤ n)

/-- The legal values of the parameters (R6): `WORD_BITS` at least 2, the others at least 1. -/
def Config.wf (c : Config) : Bool :=
  Config.atLeast 2 c.wordBits && Config.atLeast 1 c.memWords && Config.atLeast 1 c.inDepth
    && Config.atLeast 1 c.outDepth

end Sys2Proof
end

