-- ==== Sys2Proof/Machine/State.lean ====
section
/-! DEFINITION. The architectural state of one core (R20), the reasons a step of the model stops, and the state
right after power-on (R251).  Memory is a list of (address, word) pairs: a cell holds a whole integer and
there are no bytes (R50, R55), so `Host.Cell` does not serve. -/

namespace Sys2Proof.Machine

/-- One memory cell: an address (a natural number, R50) and the word it holds. -/
abbrev Cell := Nat × Int

/-- `MEM` (R50): the cells that do not hold 0, addresses strictly rising (`Memory.wf` in Ops.lean); an
address that is not listed reads 0 (R53). -/
abbrev Memory := List Cell

/-- The run-state register `STATE` (R25). -/
inductive RunState where
  | running        -- code 0
  | awaitingInput  -- code 1
  | halted         -- code 2
  | faulted        -- code 3
  deriving DecidableEq, Repr

/-- The contents of the pending-input latch (R27): `PEND_MODE` and `PEND_RAW`. -/
structure Pending where
  mode : Mode
  raw  : Int
  deriving DecidableEq, Repr

/-- What a step returns to its caller, the host (R109).  It is an answer, not state (R20). -/
inductive StepResult where
  | progressed
  | suspended
  | halted
  | faulted (c : FaultCause)
  | outputStall
  deriving DecidableEq, Repr

/-- The state of one core (R20).  `cfg` is the model's own field: the implementation parameters of R6, which
nothing ever writes; every other field is a piece of state of R20's table. -/
structure State where
  cfg        : Config          -- the parameters of R6, fixed for the machine
  mem        : Memory          -- MEM, R50
  ip         : Int            -- IP, R23
  rb         : Int            -- RB, R24
  runState   : RunState        -- STATE, R25
  pend       : Option Pending  -- PEND_MODE and PEND_RAW, R27; `none` is "holds no value"
  inq        : List Int       -- INQ, head first, R28
  outq       : List Int       -- OUTQ, head first, R29
  faultCause : FaultCause      -- FAULT_CAUSE, R30
  faultIp    : Int            -- FAULT_IP, R30
  faultWord  : Int            -- FAULT_WORD, R30
  faultInfo  : Int            -- FAULT_INFO, R30
  deriving DecidableEq, Repr

/-- Why a step of the MODEL stops.  The spec's own faults are not here: R231 describes their entry, so they
are taken as a next state in FAULTED. -/
inductive Fault where
  /-- Raised by `resume` alone: AWAITING_INPUT, an input to take, and no pending-input latch.  R27 excludes
  this state (the latch is written with the entry into AWAITING_INPUT) and `Invariant` rules it out; no instruction
  raises it.  Safe: the model stops where the spec gives the machine no behaviour. -/
  | pendingLatchEmpty
  deriving DecidableEq, Repr

/-- Why the model has no meaning for an instruction. -/
inductive Refusal where
  /-- Raised by an arm of `exec` that has no meaning yet.  No arm does.  Safe. -/
  | notModelled (mnemonic : String)
  deriving DecidableEq, Repr

/-- The state of a core of configuration `c` whose memory is `m`, right after LOAD (R34, R250). -/
def State.initial (c : Config) (m : Memory) : State :=
  { cfg := c, mem := m, ip := 0, rb := 0, runState := .running, pend := none, inq := [], outq := [],
    faultCause := .none, faultIp := 0, faultWord := 0, faultInfo := 0 }

/-- Power-on, before the first LOAD: the state of LOAD([]) (R251), in the reference configuration (R6). -/
def State.reset : State := State.initial Config.reference []

end Sys2Proof.Machine
end

