-- ==== Sys2Proof/Machine/Ops.lean ====
section
/-! DEFINITION. The named operations every instruction is written over: the word-range check `Fit`, the memory
port, the register updates, and taking a fault. -/

namespace Sys2Proof.Machine

/-! ### Numeric codes -/

/-- The numeric cause codes (R221). -/
def causeCode : FaultCause → Nat
  | .none             => 0
  | .invalidOpcode    => 1
  | .invalidPc        => 2
  | .illegalMode      => 3
  | .excessModeDigits => 4
  | .negativeWord     => 5
  | .negativeAddress  => 6
  | .addressRange     => 7
  | .overflow         => 8

/-- The numeric codes of `STATE` (R25). -/
def runStateCode : RunState → Nat
  | .running       => 0
  | .awaitingInput => 1
  | .halted        => 2
  | .faulted       => 3

/-! ### The word range -/

/-- `Fit(v)` (R12): always with unbounded words, else -2^(n-1) ≤ v ≤ 2^(n-1) - 1. -/
def fit (c : Config) (v : Int) : Bool :=
  match c.wordBits with
  | none   => true
  | some n => decide (-((2 ^ (n - 1) : Nat) : Int) ≤ v) && decide (v ≤ ((2 ^ (n - 1) : Nat) : Int) - 1)

/-- `if not Fit(v) then raise Fault(OVERFLOW, v)` (R12, R229). -/
def requireFit (c : Config) (v : Int) : Except Trap Unit :=
  if fit c v then .ok () else .error { cause := .overflow, info := v }

/-! ### Memory -/

/-- The stored value, or 0 for a cell that is not listed (R53). -/
def Memory.read (m : Memory) (a : Nat) : Int :=
  match m with
  | [] => 0
  | (b, v) :: rest => if b = a then v else Memory.read rest a

/-- A cell in front of a memory whose addresses are higher: a cell that holds 0 is not listed. -/
def Memory.cons (a : Nat) (v : Int) (m : Memory) : Memory :=
  if v = 0 then m else (a, v) :: m

/-- `MEM[a] <- v` (R52), keeping the canonical form. -/
def Memory.write (m : Memory) (a : Nat) (v : Int) : Memory :=
  match m with
  | [] => Memory.cons a v []
  | (b, u) :: rest =>
    if a < b then Memory.cons a v ((b, u) :: rest)
    else if a = b then Memory.cons a v rest
    else (b, u) :: Memory.write rest a v

/-- Every listed address is at least `low`, the addresses rise strictly, and no listed cell holds 0. -/
def Memory.wfFrom (low : Nat) : Memory → Bool
  | [] => true
  | (a, v) :: rest => decide (low ≤ a) && decide (v ≠ 0) && Memory.wfFrom (a + 1) rest

/-- The canonical form of memory: equal memories are equal lists. -/
def Memory.wf (m : Memory) : Bool := Memory.wfFrom 0 m

/-- The words of a program, the first in cell `a` (R250). -/
def Memory.place (a : Nat) : List Int → Memory
  | [] => []
  | v :: vs => Memory.cons a v (Memory.place (a + 1) vs)

/-- The n words in the cells from `a` on. -/
def Memory.cells (m : Memory) (a : Nat) : Nat → List Int
  | 0 => []
  | n + 1 => Memory.read m a :: Memory.cells m (a + 1) n

/-- `MEM_WORDS` admits the address: `some m` bounds it, `none` does not (R50). -/
def belowTop (c : Config) (a : Int) : Bool :=
  match c.memWords with
  | none   => true
  | some m => decide (a < (m : Int))

/-- The address checks of R51, R52 and R105, in their order; the checked address is a natural number. -/
def checkAddress (c : Config) (a : Int) : Except Trap Nat :=
  if a < 0 then .error { cause := .negativeAddress, info := a }
  else if belowTop c a then .ok a.toNat
  else .error { cause := .addressRange, info := a }

/-- `MemRead(a, 1)` (R51). -/
def memRead (s : State) (a : Int) : Except Trap Int := do
  let n ← checkAddress s.cfg a
  .ok (Memory.read s.mem n)

/-- `MEM` as a whole becomes `m`. -/
def State.setMem (s : State) (m : Memory) : State := { s with mem := m }

/-- `MemWrite(a, 1, v)` (R52). -/
def memWrite (s : State) (a : Int) (v : Int) : Except Trap State := do
  let n ← checkAddress s.cfg a
  requireFit s.cfg v
  .ok (s.setMem (Memory.write s.mem n v))

/-! ### Register and queue updates -/

/-- `IP <- v` (R10). -/
def State.setIp (s : State) (v : Int) : State := { s with ip := v }

/-- `RB <- v` (R10). -/
def State.setRb (s : State) (v : Int) : State := { s with rb := v }

/-- `INQ <- q` (R28). -/
def State.setInq (s : State) (q : List Int) : State := { s with inq := q }

/-- `OUTQ <- OUTQ ++ [v]` (R29, R141). -/
def State.pushOut (s : State) (v : Int) : State := { s with outq := s.outq ++ [v] }

/-- `STATE <- HALTED` (R180). -/
def State.halt (s : State) : State := { s with runState := .halted }

/-- The suspension of R111: the latch is written and the core awaits an input. -/
def State.suspend (s : State) (p : Param) : State :=
  { s with pend := some { mode := p.mode, raw := p.raw }, runState := .awaitingInput }

/-- The end of a resumption (R112): the latch is emptied and the core runs. -/
def State.unsuspend (s : State) : State := { s with pend := none, runState := .running }

/-- The FIFO of depth `d` is full (R141, R192). -/
def queueFull (d : Option Nat) (q : List Int) : Bool :=
  match d with
  | none   => false
  | some n => decide (q.length = n)

/-! ### Taking a fault -/

/-- Fault entry (R231): the record and `STATE` are written, and nothing else.  `w` is the instruction word
fetched in this step, 0 if none was.  There is no return from a fault (R233): only LOAD leaves FAULTED. -/
def raiseFault (w : Int) (t : Trap) (s : State) : State :=
  { s with faultCause := t.cause, faultIp := s.ip, faultWord := w, faultInfo := t.info, runState := .faulted }

/-- The end of a step: the answer its rule returned, or the fault of the first check that failed.  A fault is
entered from the state `s` before the step, so a faulting step writes nothing else (R107). -/
def conclude (w : Int) (s : State) (r : Except Trap (StepResult × State)) : StepResult × State :=
  match r with
  | .ok answer => answer
  | .error t   => (.faulted t.cause, raiseFault w t s)

/-- The outcome of a step that answered: its next state. -/
def nextState (r : StepResult × State) : Host.Outcome State Fault Refusal := .next r.2

/-- `MemWrite(t, 1, v)` and then `IP <- IP + len`, the next `IP` checked before the write (R106, R108). -/
def storeAndAdvance (s : State) (t : Nat) (v len : Int) : Except Trap (StepResult × State) := do
  requireFit s.cfg (s.ip + len)
  let s1 ← memWrite s t v
  .ok (.progressed, s1.setIp (s.ip + len))

end Sys2Proof.Machine
end

