-- ==== Sys2Proof/Machine/Operands.lean ====
section
/-! DEFINITION. Operand evaluation (R75, R76, R105): every mode of a read parameter and of a write parameter. -/

namespace Sys2Proof.Machine

/-- `EffRead(m, v)` (R75). -/
def effRead (s : State) (p : Param) : Except Trap Int :=
  match p.mode with
  | .position  => memRead s p.raw
  | .immediate => .ok p.raw
  | .relative  => memRead s (s.rb + p.raw)

/-- `EffAddr(m, v)` of write parameter k (R76) with the address checks of R105.  The immediate mode never
comes from the decoder (R86). -/
def effAddr (s : State) (k : Nat) (p : Param) : Except Trap Nat :=
  match p.mode with
  | .position  => checkAddress s.cfg p.raw
  | .immediate => .error { cause := .illegalMode, info := k }
  | .relative  => checkAddress s.cfg (s.rb + p.raw)

/-- The values x_1, x_2 and the address t_3 of the form read, read, write, parameters ascending (R105). -/
def evalRRW (s : State) (a b c : Param) : Except Trap (Int × Int × Nat) := do
  let x ← effRead s a
  let y ← effRead s b
  let t ← effAddr s 3 c
  .ok (x, y, t)

/-- The values x_1, x_2 of the form read, read, parameters ascending (R105). -/
def evalRR (s : State) (a b : Param) : Except Trap (Int × Int) := do
  let x ← effRead s a
  let y ← effRead s b
  .ok (x, y)

end Sys2Proof.Machine
end

