-- ==== Sys2Proof/Machine/Flags.lean ====
section
/-! DEFINITION. The core has no flags, condition codes or predicates (R31).  What takes their place: the 0 or 1
a comparison writes to memory (R160, R161, R162) and the zero test of a jump (R150, R151). -/

namespace Sys2Proof.Machine

/-- 1 if x < y as signed integers, else 0 (R160). -/
def lessThanResult (x y : Int) : Int := if x < y then 1 else 0

/-- 1 if x = y, else 0 (R161). -/
def equalsResult (x y : Int) : Int := if x = y then 1 else 0

/-- The condition of `jt`: any non-zero value (R150). -/
def isNonZero (x : Int) : Bool := decide (x ≠ 0)

/-- The condition of `jf`: exactly 0 (R151). -/
def isZero (x : Int) : Bool := decide (x = 0)

end Sys2Proof.Machine
end

