-- ==== Sys2Proof/Machine/Arith.lean ====
section
/-! DEFINITION. Opcodes 1 and 2 (41_arithmetic.md). -/

namespace Sys2Proof.Machine

/-- `add` and `mul` but for the operation: the exact result is checked with `Fit` before the next `IP`
(R130, R131, R132). -/
def runArith (f : Int → Int → Int) (s : State) (a b c : Param) : Except Trap (StepResult × State) := do
  let (x, y, t) ← evalRRW s a b c
  requireFit s.cfg (f x y)
  storeAndAdvance s t (f x y) 4

/-- `add` (R130). -/
def runAdd (a b c : Param) (s : State) : StepResult × State :=
  conclude (Instr.add a b c).word s (runArith (fun x y => x + y) s a b c)

/-- `mul` (R131). -/
def runMul (a b c : Param) (s : State) : StepResult × State :=
  conclude (Instr.mul a b c).word s (runArith (fun x y => x * y) s a b c)

/-- The meaning of `add` (R130). -/
def execAdd (a b c : Param) (s : State) : Host.Outcome State Fault Refusal := nextState (runAdd a b c s)

/-- The meaning of `mul` (R131). -/
def execMul (a b c : Param) (s : State) : Host.Outcome State Fault Refusal := nextState (runMul a b c s)

end Sys2Proof.Machine
end

