-- ==== Sys2Proof/Machine/Base.lean ====
section
/-! DEFINITION. Opcode 9 (45_relative_base.md). -/

namespace Sys2Proof.Machine

/-- `RB <- RB + x_1`, x_1 evaluated with the old `RB`; a negative new `RB` is legal (R170). -/
def adjustBase (s : State) (a : Param) : Except Trap (StepResult × State) := do
  let x ← effRead s a
  requireFit s.cfg (s.rb + x)
  requireFit s.cfg (s.ip + 2)
  .ok (.progressed, (s.setRb (s.rb + x)).setIp (s.ip + 2))

/-- `arb` (R170). -/
def runArb (a : Param) (s : State) : StepResult × State :=
  conclude (Instr.arb a).word s (adjustBase s a)

/-- The meaning of `arb` (R170). -/
def execArb (a : Param) (s : State) : Host.Outcome State Fault Refusal := nextState (runArb a s)

end Sys2Proof.Machine
end

