-- ==== Sys2Proof/Machine/Compare.lean ====
section
/-! DEFINITION. Opcodes 7 and 8 (44_compare.md). -/

namespace Sys2Proof.Machine

/-- `lt` and `eq` but for the comparison: only the next `IP` is checked with `Fit` (R160, R161). -/
def runCompare (f : Int → Int → Int) (s : State) (a b c : Param) : Except Trap (StepResult × State) := do
  let (x, y, t) ← evalRRW s a b c
  storeAndAdvance s t (f x y) 4

/-- `lt` (R160). -/
def runLt (a b c : Param) (s : State) : StepResult × State :=
  conclude (Instr.lt a b c).word s (runCompare lessThanResult s a b c)

/-- `eq` (R161). -/
def runEq (a b c : Param) (s : State) : StepResult × State :=
  conclude (Instr.eq a b c).word s (runCompare equalsResult s a b c)

/-- The meaning of `lt` (R160). -/
def execLt (a b c : Param) (s : State) : Host.Outcome State Fault Refusal := nextState (runLt a b c s)

/-- The meaning of `eq` (R161). -/
def execEq (a b c : Param) (s : State) : Host.Outcome State Fault Refusal := nextState (runEq a b c s)

end Sys2Proof.Machine
end

