-- ==== Sys2Proof/Machine/Halt.lean ====
section
/-! DEFINITION. Opcode 99 (46_halt.md). -/

namespace Sys2Proof.Machine

/-- `hlt` (R180): `STATE` is HALTED, and nothing else changes. -/
def runHlt (s : State) : StepResult × State := (.halted, s.halt)

/-- The meaning of `hlt` (R180). -/
def execHlt (s : State) : Host.Outcome State Fault Refusal := nextState (runHlt s)

end Sys2Proof.Machine
end

