-- ==== Sys2Proof/Machine/InOut.lean ====
section
/-! DEFINITION. Opcodes 3 and 4 (42_io.md), and the resumption of a suspended input (R112). -/

namespace Sys2Proof.Machine

/-- Opcode 3 after its destination is checked: suspend on an empty `INQ`, else pop, store and advance (R140).
Every check comes before the empty-queue test (R230). -/
def takeInput (s : State) (a : Param) : Except Trap (StepResult × State) := do
  let t ← effAddr s 1 a
  requireFit s.cfg (s.ip + 2)
  match s.inq with
  | [] => .ok (.suspended, s.suspend a)
  | x :: rest => storeAndAdvance (s.setInq rest) t x 2

/-- Opcode 4: every check comes before the full-queue test; a full `OUTQ` holds the core (R141). -/
def putOutput (s : State) (a : Param) : Except Trap (StepResult × State) := do
  let x ← effRead s a
  requireFit s.cfg (s.ip + 2)
  if queueFull s.cfg.outDepth s.outq then .ok (.outputStall, s)
  else .ok (.progressed, (s.pushOut x).setIp (s.ip + 2))

/-- `in` (R140). -/
def runInp (a : Param) (s : State) : StepResult × State :=
  conclude (Instr.inp a).word s (takeInput s a)

/-- `out` (R141). -/
def runOut (a : Param) (s : State) : StepResult × State :=
  conclude (Instr.out a).word s (putOutput s a)

/-- The meaning of `in` (R140). -/
def execInp (a : Param) (s : State) : Host.Outcome State Fault Refusal := nextState (runInp a s)

/-- The meaning of `out` (R141). -/
def execOut (a : Param) (s : State) : Host.Outcome State Fault Refusal := nextState (runOut a s)

/-- The address a latched input writes: `PEND_RAW` in mode 0, else `RB + PEND_RAW` (R112). -/
def pendingAddress (s : State) (p : Pending) : Int :=
  if p.mode = .position then p.raw else s.rb + p.raw

/-- The latched write of the input `x`, the queue's rest being `rest` (R112). -/
def completeInput (s : State) (p : Pending) (x : Int) (rest : List Int) :
    Except Trap (StepResult × State) := do
  let s1 ← memWrite (s.setInq rest) (pendingAddress s p) x
  .ok (.progressed, (s1.setIp (s.ip + 2)).unsuspend)

/-- `Resume()` (R112), and the hold while `INQ` is empty (R113).  No word is fetched in this step, so a fault
(which `Invariant` rules out) would record the word 0. -/
def resume (s : State) : Host.Outcome (StepResult × State) Fault Refusal :=
  match s.inq with
  | [] => .next (.suspended, s)
  | x :: rest =>
    match s.pend with
    | none   => .fault .pendingLatchEmpty
    | some p => .next (conclude 0 s (completeInput s p x rest))

end Sys2Proof.Machine
end

