-- ==== Sys2Proof/Machine/Jump.lean ====
section
/-! DEFINITION. Opcodes 5 and 6 (43_jumps.md). -/

namespace Sys2Proof.Machine

/-- A conditional jump: both parameters are evaluated, then `IP` becomes the target or `IP + 3`.  The target
is checked by the next fetch only (R150, R151). -/
def jumpIf (test : Int → Bool) (s : State) (a b : Param) : Except Trap (StepResult × State) := do
  let (x, y) ← evalRR s a b
  let nip := if test x then y else s.ip + 3
  requireFit s.cfg nip
  .ok (.progressed, s.setIp nip)

/-- `jt` (R150). -/
def runJt (a b : Param) (s : State) : StepResult × State :=
  conclude (Instr.jt a b).word s (jumpIf isNonZero s a b)

/-- `jf` (R151). -/
def runJf (a b : Param) (s : State) : StepResult × State :=
  conclude (Instr.jf a b).word s (jumpIf isZero s a b)

/-- The meaning of `jt` (R150). -/
def execJt (a b : Param) (s : State) : Host.Outcome State Fault Refusal := nextState (runJt a b s)

/-- The meaning of `jf` (R151). -/
def execJf (a b : Param) (s : State) : Host.Outcome State Fault Refusal := nextState (runJf a b s)

end Sys2Proof.Machine
end

