-- ==== Sys2Proof/Machine/Fetch.lean ====
section
/-! DEFINITION. Fetching an instruction (R102, R103, R104): the instruction word at `IP`, its decoding, and the
raw parameters in the cells after it. -/

namespace Sys2Proof.Machine

/-- What a fetch gives: an instruction, or the fault to raise with the instruction word fetched (0 if none). -/
inductive Fetched where
  | instr (i : Instr)
  | trap (w : Int) (t : Trap)
  deriving DecidableEq, Repr

/-- The check of `IP` (R102): INVALID_PC below 0 and at or past a finite top (R223). -/
def checkPc (s : State) : Except Trap Nat :=
  if s.ip < 0 then .error { cause := .invalidPc, info := s.ip }
  else if belowTop s.cfg s.ip then .ok s.ip.toNat
  else .error { cause := .invalidPc, info := s.ip }

/-- v_k, the raw parameter k of an opcode of n parameters (R104); 0 where it has no parameter k. -/
def fetchParam (s : State) (n k : Nat) : Except Trap Int :=
  if k ≤ n then memRead s (s.ip + k) else .ok 0

/-- The instruction of decoding `h` at `IP`: all parameter cells are read, ascending, before any is
evaluated (R104). -/
def fetchParams (s : State) (h : Head) : Except Trap Instr := do
  let v1 ← fetchParam s h.nparams 1
  let v2 ← fetchParam s h.nparams 2
  let v3 ← fetchParam s h.nparams 3
  .ok (h.instr v1 v2 v3)

/-- `Execute()` as far as rule R104, on the instruction word `w`. -/
def fetchRest (s : State) (w : Int) : Fetched :=
  match decodeWord w with
  | .error t => .trap w t
  | .ok h =>
    match fetchParams s h with
    | .error t => .trap w t
    | .ok i    => .instr i

/-- `Execute()` as far as rule R104. -/
def fetch (s : State) : Fetched :=
  match checkPc s with
  | .error t => .trap 0 t
  | .ok a    => fetchRest s (Memory.read s.mem a)

/-- The address the next fetch reads: `IP`, or 0 where `IP` addresses no cell. -/
def fetchAddress (s : State) : Int :=
  if s.ip < 0 then 0 else if belowTop s.cfg s.ip then s.ip else 0

/-- The words of a list in the cells from `a` on. -/
def storeWords (m : Memory) (a : Nat) : List Int → Memory
  | [] => m
  | v :: vs => storeWords (Memory.write m a v) (a + 1) vs

/-- The state that runs the instruction word `w`, its three following cells 0, in its next step. -/
def placeAtFetch (s : State) (w : Nat) : State :=
  { s with
    mem := storeWords s.mem (fetchAddress s).toNat [(w : Int), 0, 0, 0]
    ip := fetchAddress s
    runState := .running
    pend := none }

end Sys2Proof.Machine
end

