-- ==== Sys2Proof/Machine/Step.lean ====
section
/-! DEFINITION. One step of the core (R100, R101).  The step result (R109) is the host's answer and stands in
HostPort.lean (`hostStep`). -/

namespace Sys2Proof.Machine

/-- The outcome of a resumption, without its step result. -/
def resumeState (s : State) : Host.Outcome State Fault Refusal :=
  match resume s with
  | .next r    => .next r.2
  | .fault f   => .fault f
  | .refused r => .refused r

/-- `Step()` (R101). -/
def step (s : State) : Host.Outcome State Fault Refusal :=
  match s.runState with
  | .halted        => .next s
  | .faulted       => .next s
  | .awaitingInput => resumeState s
  | .running       =>
    match fetch s with
    | .trap w t => .next (raiseFault w t s)
    | .instr i  => exec i s

/-- The state whose next step runs the instruction word `w` with parameter cells 0: it stands for a LOAD of
that instruction (assumption 6).  A word is one cell (R50), so `nbits` plays no part. -/
def State.withFetchWord (s : State) (nbits w : Nat) : State :=
  let _ := nbits
  placeAtFetch s w

end Sys2Proof.Machine
end

