-- ==== Sys2Proof/Machine/HostPort.lean ====
section
/-! DEFINITION. The host interface (47_host_driver.md): LOAD, FEED, POP, STEP and STATUS, each atomic (R190), the
drivers built from them, schedules of host operations, and several cores. -/

namespace Sys2Proof.Machine

/-! ### STEP -/

/-- The step result and next state of an instruction whose parameters have been fetched (R106, R109). -/
def runInstr (i : Instr) (s : State) : StepResult × State :=
  match i with
  | .add a b c => runAdd a b c s
  | .mul a b c => runMul a b c s
  | .inp a     => runInp a s
  | .out a     => runOut a s
  | .jt a b    => runJt a b s
  | .jf a b    => runJf a b s
  | .lt a b c  => runLt a b c s
  | .eq a b c  => runEq a b c s
  | .arb a     => runArb a s
  | .hlt       => runHlt s

/-- `Execute()` (R102 to R108). -/
def execute (s : State) : StepResult × State :=
  match fetch s with
  | .trap w t => (.faulted t.cause, raiseFault w t s)
  | .instr i  => runInstr i s

/-- STEP() (R194): `Step : State -> StepResult × State` (R100, R101). -/
def hostStep (s : State) : Host.Outcome (StepResult × State) Fault Refusal :=
  match s.runState with
  | .halted        => .next (.halted, s)
  | .faulted       => .next (.faulted s.faultCause, s)
  | .awaitingInput => resume s
  | .running       => .next (execute s)

/-! ### LOAD, FEED, POP, STATUS -/

/-- Why LOAD refuses a program (R254). -/
inductive LoadRefusal where
  | tooLong
  | notAWord
  deriving DecidableEq, Repr

/-- The answer of LOAD (R250). -/
inductive LoadResult where
  | accepted
  | refused (r : LoadRefusal)
  deriving DecidableEq, Repr

/-- The program has at most `MEM_WORDS` words (R254). -/
def programFits (c : Config) (p : List Int) : Bool :=
  match c.memWords with
  | none   => true
  | some m => decide (p.length ≤ m)

/-- LOAD(p), which is the reset (R191, R250, R254). -/
def load (p : List Int) (s : State) : LoadResult × State :=
  if programFits s.cfg p then
    if p.all (fit s.cfg) then (.accepted, State.initial s.cfg (Memory.place 0 p))
    else (.refused .notAWord, s)
  else (.refused .tooLong, s)

/-- Why FEED refuses a value (R192). -/
inductive FeedRefusal where
  | notAWord
  | full
  deriving DecidableEq, Repr

/-- The answer of FEED (R192). -/
inductive FeedResult where
  | accepted
  | refused (r : FeedRefusal)
  deriving DecidableEq, Repr

/-- FEED(v), accepted in every run state (R192). -/
def feed (v : Int) (s : State) : FeedResult × State :=
  if fit s.cfg v then
    if queueFull s.cfg.inDepth s.inq then (.refused .full, s)
    else (.accepted, s.setInq (s.inq ++ [v]))
  else (.refused .notAWord, s)

/-- The answer of POP (R193). -/
inductive PopResult where
  | empty
  | value (v : Int)
  deriving DecidableEq, Repr

/-- `OUTQ <- q` (R193). -/
def State.setOutq (s : State) (q : List Int) : State := { s with outq := q }

/-- POP() (R193). -/
def pop (s : State) : PopResult × State :=
  match s.outq with
  | [] => (.empty, s)
  | x :: rest => (.value x, s.setOutq rest)

/-- What STATUS returns (R195).  `STATE` and `FAULT_CAUSE` are read as their numeric codes (R25, R221, D8). -/
structure Status where
  state      : Nat
  faultCause : Nat
  faultIp    : Int
  faultWord  : Int
  faultInfo  : Int
  ip         : Int
  rb         : Int
  inLength   : Nat
  outLength  : Nat
  deriving DecidableEq, Repr

/-- STATUS() (R195). -/
def status (s : State) : Status :=
  { state := runStateCode s.runState, faultCause := causeCode s.faultCause, faultIp := s.faultIp, faultWord := s.faultWord,
    faultInfo := s.faultInfo, ip := s.ip, rb := s.rb, inLength := s.inq.length, outLength := s.outq.length }

/-! ### Schedules of host operations -/

/-- The five operations of the host (R190). -/
inductive HostOp where
  | load (p : List Int)
  | feed (v : Int)
  | pop
  | step
  | status
  deriving DecidableEq, Repr

/-- The answer of an operation; `stuck` is the model's own, for a STEP that answers no next state. -/
inductive HostReply where
  | loaded (r : LoadResult)
  | fed (r : FeedResult)
  | popped (r : PopResult)
  | stepped (r : StepResult)
  | status (r : Status)
  | stuck
  deriving DecidableEq, Repr

/-- One operation of the host (R190). -/
def hostDo (op : HostOp) (s : State) : HostReply × State :=
  match op with
  | .load p => (.loaded (load p s).1, (load p s).2)
  | .feed v => (.fed (feed v s).1, (feed v s).2)
  | .pop    => (.popped (pop s).1, (pop s).2)
  | .step   =>
    match hostStep s with
    | .next r    => (.stepped r.1, r.2)
    | .fault _   => (.stuck, s)
    | .refused _ => (.stuck, s)
  | .status => (.status (status s), s)

/-- A schedule: operations one after another, each atomic, with their answers in order (R190). -/
def hostRun (ops : List HostOp) (s : State) : List HostReply × State :=
  match ops with
  | [] => ([], s)
  | op :: rest =>
    let first := hostDo op s
    let later := hostRun rest first.2
    (first.1 :: later.1, later.2)

/-- The values the POPs of a run returned, in order. -/
def poppedValues : List HostReply → List Int
  | [] => []
  | .popped (.value v) :: rest => v :: poppedValues rest
  | _ :: rest => poppedValues rest

/-- The output sequence of a run that began with an empty `OUTQ`: every value appended to `OUTQ`, in order
(R143).  A popped value stays in it. -/
def outputSequence (run : List HostReply × State) : List Int := poppedValues run.1 ++ run.2.outq

/-- The values a schedule FEEDs, in order. -/
def fedValues : List HostOp → List Int
  | [] => []
  | .feed v :: rest => v :: fedValues rest
  | _ :: rest => fedValues rest

/-! ### The drivers -/

/-- The outcomes of next_output (R196).  `running` and `stuck` are the model's own: the bound on the steps was
reached, or a STEP answered no next state. -/
inductive NextOutput where
  | value (v : Int)
  | endOfStream
  | suspended
  | error (cause : FaultCause) (ip word info : Int)
  | running
  | stuck
  deriving DecidableEq, Repr

/-- next_output() (R196), with at most `fuel` STEPs: it need not return (R196), so the model bounds it. -/
def nextOutput (fuel : Nat) (s : State) : NextOutput × State :=
  match s.outq with
  | x :: rest => (.value x, s.setOutq rest)
  | [] =>
    match s.runState with
    | .halted  => (.endOfStream, s)
    | .faulted => (.error s.faultCause s.faultIp s.faultWord s.faultInfo, s)
    | _ =>
      match fuel with
      | 0 => (.running, s)
      | fuel + 1 =>
        match hostStep s with
        | .next (.suspended, s') => (.suspended, s')
        | .next (_, s')          => nextOutput fuel s'
        | .fault _               => (.stuck, s)
        | .refused _             => (.stuck, s)

/-- How run_to_completion ends (R197); `running` and `stuck` as for `NextOutput`. -/
inductive Completion where
  | completed
  | faulted (cause : FaultCause) (ip word info : Int)
  | starved
  | running
  | stuck
  deriving DecidableEq, Repr

/-- `while pending != [] and FEED(head(pending)) = Accepted`: the inputs left, and the state (R197). -/
def feedAll (pending : List Int) (s : State) : List Int × State :=
  match pending with
  | [] => ([], s)
  | v :: rest =>
    match feed v s with
    | (.accepted, s')  => feedAll rest s'
    | (.refused _, _) => (v :: rest, s)

/-- run_to_completion(inputs) (R197): at most `rounds` passes of its loop, each with at most `fuel` STEPs. -/
def runLoop (fuel : Nat) (rounds : Nat) (pending outs : List Int) (s : State) :
    (List Int × Completion) × State :=
  match rounds with
  | 0 => ((outs, .running), s)
  | rounds + 1 =>
    let fed := feedAll pending s
    match nextOutput fuel fed.2 with
    | (.value x, s')       => runLoop fuel rounds fed.1 (outs ++ [x]) s'
    | (.endOfStream, s')   => ((outs, .completed), s')
    | (.error c i w v, s') => ((outs, .faulted c i w v), s')
    | (.suspended, s')     => if fed.1 = [] then ((outs, .starved), s') else runLoop fuel rounds fed.1 outs s'
    | (.running, s')       => ((outs, .running), s')
    | (.stuck, s')         => ((outs, .stuck), s')

/-- run_to_completion(inputs) (R197) within `bound` passes of `bound` STEPs each. -/
def runToCompletion (bound : Nat) (inputs : List Int) (s : State) : (List Int × Completion) × State :=
  runLoop bound bound inputs [] s

/-! ### Several cores -/

/-- Several cores: they share no state (R201, R240). -/
abbrev System := List State

/-- One operation of the host on core `k` of a system; no other core takes part (R54, R201). -/
def systemDo (k : Nat) (op : HostOp) (sys : System) : System :=
  match sys with
  | [] => []
  | s :: rest =>
    match k with
    | 0     => (hostDo op s).2 :: rest
    | k + 1 => s :: systemDo k op rest

end Sys2Proof.Machine
end

