-- ==== Sys2Proof/Machine/Loader.lean ====
section
/-! DEFINITION. The program text (R90, R252): decimal integers, their printing and reading, and the reading of a
whole text.  Turning text into the sequence LOAD takes stands outside the core (R252); it works on characters
and touches no state. -/

namespace Sys2Proof.Machine

/-- Surrounding characters the loader ignores (R252); which characters are whitespace is the model's
(assumption 12). -/
def isBlank (c : Char) : Bool := c == ' ' || c == '\t' || c == '\n' || c == '\r'

/-- A text without the blanks at its front and at its end (R252). -/
def trimBlanks (cs : List Char) : List Char :=
  ((cs.dropWhile isBlank).reverse.dropWhile isBlank).reverse

/-- The value of a decimal digit. -/
def digitValue (c : Char) : Option Nat :=
  if decide (48 ≤ c.toNat) && decide (c.toNat ≤ 57) then some (c.toNat - 48) else none

/-- Decimal digits after those that make `acc`. -/
def readDigits (acc : Nat) : List Char → Option Nat
  | [] => some acc
  | c :: cs =>
    match digitValue c with
    | none   => none
    | some d => readDigits (10 * acc + d) cs

/-- One or more decimal digits (R252). -/
def readNat (cs : List Char) : Option Nat :=
  match cs with
  | [] => none
  | c :: rest => readDigits 0 (c :: rest)

/-- `int` of R252: an optional `-` followed by one or more decimal digits; no `+`. -/
def readInt (cs : List Char) : Option Int :=
  match cs with
  | [] => none
  | c :: rest =>
    if c = '-' then (readNat rest).map fun n => -(n : Int) else (readNat (c :: rest)).map fun n => (n : Int)

/-- The pieces of a text between commas; there is always at least one. -/
def splitCommas : List Char → List (List Char)
  | [] => [[]]
  | c :: cs =>
    if c = ',' then [] :: splitCommas cs
    else
      match splitCommas cs with
      | [] => [[c]]
      | piece :: pieces => (c :: piece) :: pieces

/-- Every piece read, or nothing. -/
def readAll {α : Type} (read : List Char → Option α) : List (List Char) → Option (List α)
  | [] => some []
  | piece :: pieces =>
    match read piece, readAll read pieces with
    | some v, some vs => some (v :: vs)
    | _, _ => none

/-- The program of a text: `int ("," int)*`, surrounding blanks ignored (R90, R252). -/
def readProgram (text : List Char) : Option (List Int) := readAll readInt (splitCommas (trimBlanks text))

/-- The character of a digit below 10. -/
def digitChar (d : Nat) : Char := Char.ofNat (48 + d)

/-- The digits of `n` in front of `acc`; `fuel` is more than the number of digits. -/
def printDigits (fuel n : Nat) (acc : List Char) : List Char :=
  match fuel with
  | 0 => acc
  | fuel + 1 =>
    if n < 10 then digitChar n :: acc else printDigits fuel (n / 10) (digitChar (n % 10) :: acc)

/-- A natural number in decimal, no leading zeros (R72). -/
def printNat (n : Nat) : List Char := printDigits (n + 1) n []

/-- A word as a signed decimal integer (R90). -/
def printInt (v : Int) : List Char :=
  if v < 0 then '-' :: printNat v.natAbs else printNat v.natAbs

/-- Pieces joined by a separator. -/
def joinWith (sep : List Char) : List (List Char) → List Char
  | [] => []
  | [piece] => piece
  | piece :: next :: pieces => piece ++ sep ++ joinWith sep (next :: pieces)

/-- The text of a program, a single line (R90). -/
def printProgram (p : List Int) : List Char := joinWith [','] (p.map printInt)

end Sys2Proof.Machine
end

