-- ==== Sys2Proof/Machine/Asm.lean ====
section
/-! DEFINITION. The spec's assembly language (R88, R89): its operands, labels, `.word`, pseudo-instructions, the
assembler, the reading of its text, and the printing of an instruction.  It is presentation, not hardware
(92_eei_decisions.md D13): nothing here touches a state. -/

namespace Sys2Proof.Machine

/-- A value written in an operand or a `.word`: a signed decimal integer, or a label (R88). -/
inductive AsmValue where
  | number (v : Int)
  | label (name : List Char)
  deriving DecidableEq, Repr

/-- The operand forms `[v]`, `v` and `[rb+v]` (R88). -/
inductive AsmOperand where
  | cell (v : AsmValue)
  | immediate (v : AsmValue)
  | relative (v : AsmValue)
  deriving DecidableEq, Repr

/-- The mnemonics of R78 and the pseudo-instructions of R89. -/
inductive Mnemonic where
  | add | mul | inp | out | jt | jf | lt | eq | arb | hlt
  | mov | jmp | nop | neg
  deriving DecidableEq, Repr

/-- One item of a source text (R88). -/
inductive AsmItem where
  | label (name : List Char)
  | instr (m : Mnemonic) (operands : List AsmOperand)
  | words (vs : List AsmValue)
  deriving DecidableEq, Repr

/-- The mode of an operand form (R88). -/
def AsmOperand.mode : AsmOperand → Mode
  | .cell _      => .position
  | .immediate _ => .immediate
  | .relative _  => .relative

/-- The value written in an operand. -/
def AsmOperand.value : AsmOperand → AsmValue
  | .cell v      => v
  | .immediate v => v
  | .relative v  => v

/-- The immediate operand of a number. -/
def asmImmediate (v : Int) : AsmOperand := .immediate (.number v)

/-- The one instruction a pseudo-instruction expands to; any other instruction is its own (R89). -/
def expandPseudo (m : Mnemonic) (operands : List AsmOperand) : Mnemonic × List AsmOperand :=
  match m, operands with
  | .mov, [s, d] => (.add, [s, asmImmediate 0, d])
  | .jmp, [t]    => (.jt, [asmImmediate 1, t])
  | .nop, []     => (.arb, [asmImmediate 0])
  | .neg, [s, d] => (.mul, [s, asmImmediate (-1), d])
  | _, _         => (m, operands)

/-- The instruction of a mnemonic of R78 and its parameters, if their number is right (R73) and none written
is immediate (R81, R88). -/
def buildInstr (m : Mnemonic) (ps : List Param) : Option Instr :=
  let checked (i : Instr) : Option Instr := if i.wellFormed then some i else none
  match m, ps with
  | .add, [a, b, c] => checked (.add a b c)
  | .mul, [a, b, c] => checked (.mul a b c)
  | .inp, [a]       => checked (.inp a)
  | .out, [a]       => checked (.out a)
  | .jt, [a, b]     => checked (.jt a b)
  | .jf, [a, b]     => checked (.jf a b)
  | .lt, [a, b, c]  => checked (.lt a b c)
  | .eq, [a, b, c]  => checked (.eq a b c)
  | .arb, [a]       => checked (.arb a)
  | .hlt, []        => checked .hlt
  | _, _            => none

/-- The address of each label that is defined. -/
abbrev Labels := List (List Char × Nat)

/-- The first definition of a name. -/
def lookupLabel (labels : Labels) (name : List Char) : Option Nat :=
  match labels with
  | [] => none
  | (n, a) :: rest => if n = name then some a else lookupLabel rest name

/-- The word a value stands for; a label is the address of the word after it (R88). -/
def resolveValue (labels : Labels) : AsmValue → Option Int
  | .number v   => some v
  | .label name => (lookupLabel labels name).map fun a => (a : Int)

/-- The parameter of an operand. -/
def resolveOperand (labels : Labels) (o : AsmOperand) : Option Param :=
  (resolveValue labels o.value).map fun v => { mode := o.mode, raw := v }

/-- Every element resolved, or nothing. -/
def resolveAll {α β : Type} (resolve : α → Option β) : List α → Option (List β)
  | [] => some []
  | x :: xs =>
    match resolve x, resolveAll resolve xs with
    | some y, some ys => some (y :: ys)
    | _, _ => none

/-- The number of words an item places. -/
def AsmItem.size : AsmItem → Nat
  | .label _    => 0
  | .instr m os => (expandPseudo m os).2.length + 1
  | .words vs   => vs.length

/-- The labels of a source, the first item standing at address `a` (R88). -/
def collectLabels (a : Nat) : List AsmItem → Labels
  | [] => []
  | .label name :: rest => (name, a) :: collectLabels a rest
  | .instr m os :: rest => collectLabels (a + (AsmItem.instr m os).size) rest
  | .words vs :: rest => collectLabels (a + (AsmItem.words vs).size) rest

/-- The words of one item: for an instruction `Encode(op, modes)` and the raw parameters (R88). -/
def assembleItem (labels : Labels) : AsmItem → Option (List Int)
  | .label _  => some []
  | .words vs => resolveAll (resolveValue labels) vs
  | .instr m os =>
    match resolveAll (resolveOperand labels) (expandPseudo m os).2 with
    | none    => none
    | some ps => (buildInstr (expandPseudo m os).1 ps).map encode

/-- The words of all items in order. -/
def assembleItems (labels : Labels) : List AsmItem → Option (List Int)
  | [] => some []
  | item :: rest =>
    match assembleItem labels item, assembleItems labels rest with
    | some ws, some more => some (ws ++ more)
    | _, _ => none

/-- The program of a source, from address 0 on (R88). -/
def assemble (items : List AsmItem) : Option (List Int) := assembleItems (collectLabels 0 items) items

/-! ### Reading the text -/

/-- The mnemonics as they are written (R78, R89). -/
def mnemonicNames : List (String × Mnemonic) :=
  [("add", .add), ("mul", .mul), ("in", .inp), ("out", .out), ("jt", .jt), ("jf", .jf), ("lt", .lt), ("eq", .eq),
   ("arb", .arb), ("hlt", .hlt), ("mov", .mov), ("jmp", .jmp), ("nop", .nop), ("neg", .neg)]

/-- The mnemonic a word names. -/
def findMnemonic (name : List Char) : List (String × Mnemonic) → Option Mnemonic
  | [] => none
  | (n, m) :: rest => if n.toList = name then some m else findMnemonic name rest

/-- A character of a label's name, which the spec leaves open (assumption 12): a letter, a digit or `_`. -/
def isNameChar (c : Char) : Bool := c.isAlphanum || c == '_'

/-- A label's name: at least one name character, the first no digit. -/
def readName (cs : List Char) : Option (List Char) :=
  match cs with
  | [] => none
  | c :: rest => if !c.isDigit && isNameChar c && rest.all isNameChar then some (c :: rest) else none

/-- A signed decimal integer or a label (R88), blanks around it ignored (assumption 12). -/
def readValue (cs : List Char) : Option AsmValue :=
  match readInt (trimBlanks cs) with
  | some v => some (.number v)
  | none   => (readName (trimBlanks cs)).map .label

/-- The inside of `[...]`: `rb+v`, `rb-v` or `v` (R88).  R88 leaves open where a label may stand besides as a whole
operand, and blanks inside brackets.  DESIGN CHOICE (assumption 12): a label may stand as the `v` of `[v]` and of
`[rb+v]`, but not after `rb-`; blanks are ignored behind `[`, before `]` and behind the sign, and refused
between `rb` and the sign. -/
def readBracket (cs : List Char) : Option AsmOperand :=
  match trimBlanks cs with
  | 'r' :: 'b' :: '+' :: rest => (readValue rest).map .relative
  | 'r' :: 'b' :: '-' :: rest => (readNat (trimBlanks rest)).map fun n => .relative (.number (-(n : Int)))
  | inner => (readValue inner).map .cell

/-- An operand of R88. -/
def readOperand (cs : List Char) : Option AsmOperand :=
  match trimBlanks cs with
  | [] => none
  | c :: rest =>
    if c = '[' then
      match rest.reverse with
      | ']' :: inner => readBracket inner.reverse
      | _ => none
    else (readValue (c :: rest)).map .immediate

/-- The operands after a mnemonic: none, or one or more between commas. -/
def readOperands (cs : List Char) : Option (List AsmOperand) :=
  match trimBlanks cs with
  | [] => some []
  | c :: rest => readAll readOperand (splitCommas (c :: rest))

/-- A statement: an instruction, or `.word` and its values (R88).  That a value of `.word` may be a label is the
model's, and so is that one or more blanks part the mnemonic or `.word` from what follows (assumption 12, DESIGN
CHOICE). -/
def readStatement (cs : List Char) : Option AsmItem :=
  let name := cs.takeWhile fun c => !isBlank c
  let rest := cs.dropWhile fun c => !isBlank c
  if name = ".word".toList then (readAll readValue (splitCommas rest)).map .words
  else
    match findMnemonic name mnemonicNames, readOperands rest with
    | some m, some os => some (.instr m os)
    | _, _ => none

/-- One line: blank, a label definition `name:` with or without a statement after it, or a statement (R88).  R88 leaves
open what else a line may hold.  DESIGN CHOICE (assumption 12): blanks at the front and at the end of a line, before a
statement and on either side of the `:` of `name:` are ignored; a line defines at most one label, and a statement
may follow it; a blank line holds nothing; a comment is refused. -/
def readLine (line : List Char) : Option (List AsmItem) :=
  let head := (trimBlanks line).takeWhile fun c => c != ':'
  let rest := (trimBlanks line).dropWhile fun c => c != ':'
  match rest with
  | [] => if head = [] then some [] else (readStatement head).map fun item => [item]
  | _ :: after =>
    match readName (trimBlanks head), trimBlanks after with
    | none, _ => none
    | some name, [] => some [.label name]
    | some name, c :: cs => (readStatement (c :: cs)).map fun item => [.label name, item]

/-- The lines of a text. -/
def splitLines : List Char → List (List Char)
  | [] => [[]]
  | c :: cs =>
    if c = '\n' then [] :: splitLines cs
    else
      match splitLines cs with
      | [] => [[c]]
      | line :: lines => (c :: line) :: lines

/-- The items of a source text, one instruction per line (R88). -/
def readSource (text : List Char) : Option (List AsmItem) :=
  (readAll readLine (splitLines text)).map List.flatten

/-- The program of a source text (R88, R89). -/
def assembleText (text : List Char) : Option (List Int) := (readSource text).bind assemble

/-! ### Printing an instruction -/

/-- An operand as R88 writes it: `[v]`, `v`, `[rb+v]` or `[rb-v]`. -/
def printParam (p : Param) : List Char :=
  match p.mode with
  | .position  => '[' :: printInt p.raw ++ [']']
  | .immediate => printInt p.raw
  | .relative  =>
    if p.raw < 0 then '[' :: 'r' :: 'b' :: '-' :: printNat p.raw.natAbs ++ [']']
    else '[' :: 'r' :: 'b' :: '+' :: printNat p.raw.natAbs ++ [']']

/-- The mnemonic of R78; the disassembler never prints a pseudo-instruction (R89). -/
def mnemonicText : Instr → List Char
  | .add _ _ _ => "add".toList
  | .mul _ _ _ => "mul".toList
  | .inp _     => "in".toList
  | .out _     => "out".toList
  | .jt _ _    => "jt".toList
  | .jf _ _    => "jf".toList
  | .lt _ _ _  => "lt".toList
  | .eq _ _ _  => "eq".toList
  | .arb _     => "arb".toList
  | .hlt       => "hlt".toList

/-- One instruction of R88's syntax: its mnemonic and its operands. -/
def printInstr (i : Instr) : List Char :=
  match i.params with
  | [] => mnemonicText i
  | p :: ps => mnemonicText i ++ [' '] ++ joinWith [',', ' '] ((p :: ps).map printParam)

end Sys2Proof.Machine
end

