-- ==== Sys2Proof/Safety.lean ====
section
/-! DEFINITION. The terms claims are stated in: what an operand denotes, what a step leaves alone, the state
invariant, and how a run ends (R202). -/

namespace Sys2Proof.Machine

/-- The address names a cell (R50): it is at least 0, and below `MEM_WORDS` where that is finite. -/
def cellExists (c : Config) (a : Int) : Bool := decide (0 ≤ a) && belowTop c a

/-- The word in cell `a`, 0 if it was never set (R53). -/
def State.cell (s : State) (a : Int) : Int := Memory.read s.mem a.toNat

/-- The address a mode-0 or mode-2 parameter denotes (R13, R75, R76); an immediate one denotes none. -/
def operandAddress (s : State) (p : Param) : Option Int :=
  match p.mode with
  | .position  => some p.raw
  | .immediate => none
  | .relative  => some (s.rb + p.raw)

/-- The read parameter `p` has the effective value `x` (R75): the raw word itself, or the contents of an
existing cell. -/
abbrev ReadsAs (s : State) (p : Param) (x : Int) : Prop :=
  match operandAddress s p with
  | none   => x = p.raw
  | some a => cellExists s.cfg a = true ∧ x = s.cell a

/-- The write parameter `p` names the existing cell `t` (R76, R105). -/
abbrev WritesTo (s : State) (p : Param) (t : Int) : Prop :=
  operandAddress s p = some t ∧ cellExists s.cfg t = true

/-- Registers, queues, latch and configuration are the same in both states: everything but memory, the fault
record and `STATE`. -/
abbrev SameRegisters (s s' : State) : Prop :=
  s'.cfg = s.cfg ∧ s'.ip = s.ip ∧ s'.rb = s.rb ∧ s'.pend = s.pend ∧ s'.inq = s.inq ∧ s'.outq = s.outq

/-- The fault record is the same in both states (R30). -/
abbrev SameRecord (s s' : State) : Prop :=
  s'.faultCause = s.faultCause ∧ s'.faultIp = s.faultIp ∧ s'.faultWord = s.faultWord
    ∧ s'.faultInfo = s.faultInfo

/-- A step entered FAULTED: `s` was not faulted and `s'` is. -/
abbrev FaultEntered (s s' : State) : Prop := s.runState ≠ .faulted ∧ s'.runState = .faulted

/-- The parameters of an instruction are words of the configuration (R22, R77). -/
def Instr.rawsFit (c : Config) (i : Instr) : Bool := i.raws.all (fit c)

/-- The parameter names no missing cell: it is immediate, or its address exists. -/
abbrev AddressOk (s : State) (p : Param) : Prop :=
  ∀ a, operandAddress s p = some a → cellExists s.cfg a = true

/-- The fault of an address that names no cell (R51, R52, R105). -/
def addressTrap (a : Int) : Trap :=
  { cause := if a < 0 then .negativeAddress else .addressRange, info := a }

/-- OVERFLOW of a value that does not fit (R229). -/
def overflowTrap (v : Int) : Trap := { cause := .overflow, info := v }

/-- The table of R73: the number of parameters of each legal opcode, and no other opcode (R78). -/
def opcodeParams : List (Nat × Nat) :=
  [(1, 3), (2, 3), (3, 1), (4, 1), (5, 2), (6, 2), (7, 3), (8, 3), (9, 1), (99, 0)]

/-- The table of R74: the opcodes and indexes of the write parameters. -/
def writeParams : List (Nat × Nat) := [(1, 3), (2, 3), (3, 1), (7, 3), (8, 3)]

/-- The digit of parameter k is illegal: 3 to 9 (R80), or 1 on a write parameter (R81). -/
def illegalDigit (n k : Nat) : Bool :=
  decide (3 ≤ digit n (k + 1)) || (decide ((n % 100, k) ∈ writeParams) && decide (digit n (k + 1) = 1))

/-- The latch `p` of a suspended core is that of the opcode-3 instruction at `IP`, checked before the
suspension (R111, R112, R116). -/
structure LatchMatches (s : State) (p : Pending) : Prop where
  mode_legal   : p.mode ≠ .immediate
  ip_exists    : cellExists s.cfg s.ip = true
  param_exists : cellExists s.cfg (s.ip + 1) = true
  word_at_ip   : decodeWord (s.cell s.ip) = .ok (.inp p.mode)
  raw_at_ip    : s.cell (s.ip + 1) = p.raw
  target       : cellExists s.cfg (pendingAddress s p) = true
  next_ip_fits : fit s.cfg (s.ip + 2) = true

/-- The FIFO holds words, at most as many as its depth (R6, R22, R28, R29). -/
structure QueueOk (c : Config) (depth : Option Nat) (q : List Int) : Prop where
  words : ∀ v ∈ q, fit c v = true
  depth : ∀ d, depth = some d → q.length ≤ d

/-- The state invariant: what holds after LOAD and after every step and host operation. -/
structure Invariant (s : State) : Prop where
  config_legal  : s.cfg.wf = true
  mem_canonical : Memory.wf s.mem = true
  mem_cells     : ∀ e ∈ s.mem, belowTop s.cfg e.1 = true ∧ fit s.cfg e.2 = true
  ip_word       : fit s.cfg s.ip = true
  rb_word       : fit s.cfg s.rb = true
  input_queue   : QueueOk s.cfg s.cfg.inDepth s.inq
  output_queue  : QueueOk s.cfg s.cfg.outDepth s.outq
  latch_iff     : s.pend.isSome = true ↔ s.runState = .awaitingInput
  latch_matches : ∀ p, s.pend = some p → LatchMatches s p
  record_clear  : s.runState ≠ .faulted →
    s.faultCause = .none ∧ s.faultIp = 0 ∧ s.faultWord = 0 ∧ s.faultInfo = 0
  record_set    : s.runState = .faulted →
    s.faultCause ≠ .none ∧ s.faultIp = s.ip ∧ fit s.cfg s.faultWord = true

/-- The run ended successfully (R202). -/
abbrev Succeeded (s : State) : Prop := s.runState = .halted

/-- The run failed (R202). -/
abbrev Failed (s : State) : Prop := s.runState = .faulted

/-- The run is stuck for want of an input (R113, R202). -/
abbrev Stuck (s : State) : Prop := s.runState = .awaitingInput ∧ s.inq = []

/-- The first `n` operations of an endless schedule of the host. -/
def schedulePrefix (sched : Nat → HostOp) (n : Nat) : List HostOp := (List.range n).map sched

/-- The state in which operation `n` of the schedule finds the core. -/
def stateBefore (sched : Nat → HostOp) (s : State) (n : Nat) : State := (hostRun (schedulePrefix sched n) s).2

/-- The core hangs under a schedule of the host (R202): it takes `Progressed` steps for ever, and no LOAD starts
another run.  That it never halts or fails follows (`hangs_not_ended`). -/
def Hangs (sched : Nat → HostOp) (s : State) : Prop :=
  (∀ n, ∀ p, sched n ≠ .load p) ∧
    ∀ n, ∃ k, n ≤ k ∧ (hostDo (sched k) (stateBefore sched s k)).1 = .stepped .progressed

/-- A safe state: no fatal fault has been raised. -/
abbrev Safe (s : State) : Prop := ¬ Failed s

/-- A schedule that only FEEDs, POPs and STEPs (R198). -/
def drivesOnly : List HostOp → Bool
  | [] => true
  | .load _ :: _ => false
  | .feed _ :: rest => drivesOnly rest
  | .pop :: rest => drivesOnly rest
  | .step :: rest => drivesOnly rest
  | .status :: rest => drivesOnly rest

end Sys2Proof.Machine
end

