-- ==== Sys2Proof/Certificates/Slice0/Obligations.lean ====
section
/-! DEFINITION. The statements about the machine.  `Invariant`, `ReadsAs`, `WritesTo` and the other terms they are
stated in are those of Safety.lean. -/

open Sys2Proof Sys2Proof.Machine

/-! ### Encoding (30_encoding.md) -/

/-- R87: decoding the words of a well-formed instruction gives it back, whatever words follow. -/
def Obligations.DecodeOfEncode : Prop :=
  ∀ (i : Instr) (rest : List Int), i.wellFormed = true → decode (encode i ++ rest) = .ok (i, rest)

/-- R87, the other direction: what the decoder reads is well-formed and encodes to the words it was read
from; the encoding is unique. -/
def Obligations.EncodeOfDecode : Prop :=
  ∀ (ws rest : List Int) (i : Instr), decode ws = .ok (i, rest) →
    i.wellFormed = true ∧ ws = encode i ++ rest

/-- R84: the legal instruction words are exactly 99, all different, from 1 to 22208. -/
def Obligations.LegalWordsAreNinetyNine : Prop :=
  legalWords.length = 99 ∧ legalWords.Nodup ∧
    (∀ w : Int, (∃ h, decodeWord w = .ok h) ↔ w ∈ legalWords) ∧
    (∀ w ∈ legalWords, 1 ≤ w ∧ w ≤ 22208)

/-- R79, R83: a negative word is NEGATIVE_WORD, and a word whose low two digits are no opcode is
INVALID_OPCODE, whatever its other digits. -/
def Obligations.DecodeRefusesWordsWithoutOpcode : Prop :=
  (∀ w : Int, w < 0 → decodeWord w = .error { cause := .negativeWord, info := 0 }) ∧
    (∀ n : Nat, (∀ k, (n % 100, k) ∉ opcodeParams) →
      decodeWord n = .error { cause := .invalidOpcode, info := 0 })

/-- R80, R81: the first illegal mode digit, parameters ascending, is ILLEGAL_MODE with its index. -/
def Obligations.DecodeRefusesIllegalModeDigits : Prop :=
  ∀ n params k : Nat, (n % 100, params) ∈ opcodeParams → 1 ≤ k → k ≤ params → illegalDigit n k = true →
    (∀ j, 1 ≤ j → j < k → illegalDigit n j = false) →
    decodeWord n = .error { cause := .illegalMode, info := k }

/-- R82: with legal mode digits, a digit above the last of them is EXCESS_MODE_DIGITS. -/
def Obligations.DecodeRefusesExcessDigits : Prop :=
  ∀ n params : Nat, (n % 100, params) ∈ opcodeParams →
    (∀ k, 1 ≤ k → k ≤ params → illegalDigit n k = false) → n / 10 ^ (params + 2) ≠ 0 →
    decodeWord n = .error { cause := .excessModeDigits, info := ((n / 100 : Nat) : Int) }

/-- Words written out from the digits of R71 decode to the instruction they stand for. -/
def Obligations.WrittenOutWordsDecode : Prop :=
  decode [1002, 4, 3, 4] = .ok (.mul ⟨.position, 4⟩ ⟨.immediate, 3⟩ ⟨.position, 4⟩, []) ∧
    decode [21101, 2, 3, 0] = .ok (.add ⟨.immediate, 2⟩ ⟨.immediate, 3⟩ ⟨.relative, 0⟩, []) ∧
    decode [203, -3] = .ok (.inp ⟨.relative, -3⟩, []) ∧
    decode [204, -1] = .ok (.out ⟨.relative, -1⟩, []) ∧
    decode [1005, 28, 6] = .ok (.jt ⟨.position, 28⟩ ⟨.immediate, 6⟩, []) ∧
    decode [22208, 1, 2, 3] = .ok (.eq ⟨.relative, 1⟩ ⟨.relative, 2⟩ ⟨.relative, 3⟩, []) ∧
    decode [109, 1] = .ok (.arb ⟨.immediate, 1⟩, []) ∧ decode [99] = .ok (.hlt, [])

/-! ### Memory (20_memory.md) -/

/-- R51: MemRead faults below 0, faults at or past a finite top, and else returns the cell. -/
def Obligations.MemReadFaultsOrReturnsCell : Prop :=
  ∀ (s : State) (a : Int),
    (a < 0 → memRead s a = .error { cause := .negativeAddress, info := a }) ∧
    (∀ m : Nat, s.cfg.memWords = some m → (m : Int) ≤ a →
      memRead s a = .error { cause := .addressRange, info := a }) ∧
    (0 ≤ a → (∀ m : Nat, s.cfg.memWords = some m → a < m) → memRead s a = .ok (Memory.read s.mem a.toNat))

/-- R52: MemWrite faults on a missing cell and then on a value that does not fit, and else stores: the cell
reads as the value and every other cell reads as before. -/
def Obligations.MemWriteFaultsOrStores : Prop :=
  ∀ (s : State) (a v : Int),
    (cellExists s.cfg a = false → memWrite s a v = .error (addressTrap a)) ∧
    (cellExists s.cfg a = true → fit s.cfg v = false → memWrite s a v = .error (overflowTrap v)) ∧
    (cellExists s.cfg a = true → fit s.cfg v = true → Memory.wf s.mem = true →
      ∃ m, memWrite s a v = .ok { s with mem := m } ∧ Memory.read m a.toNat = v ∧
        ∀ b : Nat, b ≠ a.toNat → Memory.read m b = Memory.read s.mem b)

/-- The canonical form makes memory extensional: two canonical memories that read alike are equal.  The form
is the model's (assumption 2). -/
def Obligations.CanonicalMemoriesThatReadAlikeAreEqual : Prop :=
  ∀ m m' : Memory, Memory.wf m = true → Memory.wf m' = true →
    (∀ a, Memory.read m a = Memory.read m' a) → m = m'

/-! ### The instructions (41 to 46) -/

/-- R130: `add` stores the exact sum and advances by 4; it is encoded as the rule says; OVERFLOW of the sum
comes before OVERFLOW of the next `IP`. -/
def Obligations.AddStoresExactSum : Prop :=
  ∀ (s : State) (a b c : Param) (x y t : Int), ReadsAs s a x → ReadsAs s b y → WritesTo s c t →
    (fit s.cfg (x + y) = true → fit s.cfg (s.ip + 4) = true →
      exec (.add a b c) s = .next { s with mem := Memory.write s.mem t.toNat (x + y), ip := s.ip + 4 } ∧
        (runInstr (.add a b c) s).1 = .progressed) ∧
    (fit s.cfg (x + y) = false →
      exec (.add a b c) s = .next (raiseFault (Instr.add a b c).word (overflowTrap (x + y)) s)) ∧
    (fit s.cfg (x + y) = true → fit s.cfg (s.ip + 4) = false →
      exec (.add a b c) s = .next (raiseFault (Instr.add a b c).word (overflowTrap (s.ip + 4)) s)) ∧
    (Instr.add a b c).word = 1 + 100 * a.mode.digit + 1000 * b.mode.digit + 10000 * c.mode.digit ∧
    (Instr.add a b c).length = 4

/-- R131: `mul` stores the exact product and advances by 4. -/
def Obligations.MulStoresExactProduct : Prop :=
  ∀ (s : State) (a b c : Param) (x y t : Int), ReadsAs s a x → ReadsAs s b y → WritesTo s c t →
    (fit s.cfg (x * y) = true → fit s.cfg (s.ip + 4) = true →
      exec (.mul a b c) s = .next { s with mem := Memory.write s.mem t.toNat (x * y), ip := s.ip + 4 } ∧
        (runInstr (.mul a b c) s).1 = .progressed) ∧
    (fit s.cfg (x * y) = false →
      exec (.mul a b c) s = .next (raiseFault (Instr.mul a b c).word (overflowTrap (x * y)) s)) ∧
    (fit s.cfg (x * y) = true → fit s.cfg (s.ip + 4) = false →
      exec (.mul a b c) s = .next (raiseFault (Instr.mul a b c).word (overflowTrap (s.ip + 4)) s)) ∧
    (Instr.mul a b c).word = 2 + 100 * a.mode.digit + 1000 * b.mode.digit + 10000 * c.mode.digit ∧
    (Instr.mul a b c).length = 4

/-- R140: `in` pops the oldest input into its destination and advances by 2; on an empty queue it suspends,
latching its mode and raw parameter and advancing nothing; the check of the next `IP` comes first. -/
def Obligations.InputIsStoredOrAwaited : Prop :=
  ∀ (s : State) (a : Param) (t : Int), WritesTo s a t →
    (∀ x rest, s.inq = x :: rest → fit s.cfg x = true → fit s.cfg (s.ip + 2) = true →
      exec (.inp a) s =
        .next { s with mem := Memory.write s.mem t.toNat x, inq := rest, ip := s.ip + 2 } ∧
        (runInstr (.inp a) s).1 = .progressed) ∧
    (s.inq = [] → fit s.cfg (s.ip + 2) = true →
      exec (.inp a) s =
        .next { s with pend := some { mode := a.mode, raw := a.raw }, runState := .awaitingInput } ∧
        (runInstr (.inp a) s).1 = .suspended) ∧
    (fit s.cfg (s.ip + 2) = false →
      exec (.inp a) s = .next (raiseFault (Instr.inp a).word (overflowTrap (s.ip + 2)) s)) ∧
    (Instr.inp a).word = 3 + 100 * a.mode.digit ∧ (Instr.inp a).length = 2

/-- R141: `out` appends its operand to the output queue and advances by 2; on a full queue it changes nothing
and stalls; the check of the next `IP` comes first. -/
def Obligations.OutputIsAppendedOrStalls : Prop :=
  ∀ (s : State) (a : Param) (x : Int), ReadsAs s a x →
    (fit s.cfg (s.ip + 2) = true → (∀ d, s.cfg.outDepth = some d → s.outq.length ≠ d) →
      exec (.out a) s = .next { s with outq := s.outq ++ [x], ip := s.ip + 2 } ∧
        (runInstr (.out a) s).1 = .progressed) ∧
    (fit s.cfg (s.ip + 2) = true → s.cfg.outDepth = some s.outq.length →
      exec (.out a) s = .next s ∧ (runInstr (.out a) s).1 = .outputStall) ∧
    (fit s.cfg (s.ip + 2) = false →
      exec (.out a) s = .next (raiseFault (Instr.out a).word (overflowTrap (s.ip + 2)) s)) ∧
    (Instr.out a).word = 4 + 100 * a.mode.digit ∧ (Instr.out a).length = 2

/-- R150: `jt` goes to its second operand exactly when its first is not 0, else advances by 3; the target is
not checked at the jump. -/
def Obligations.JumpIfTrueGoesToTarget : Prop :=
  ∀ (s : State) (a b : Param) (x y : Int), ReadsAs s a x → ReadsAs s b y →
    (x ≠ 0 → fit s.cfg y = true → exec (.jt a b) s = .next { s with ip := y } ∧
      (runInstr (.jt a b) s).1 = .progressed) ∧
    (x ≠ 0 → fit s.cfg y = false →
      exec (.jt a b) s = .next (raiseFault (Instr.jt a b).word (overflowTrap y) s)) ∧
    (x = 0 → fit s.cfg (s.ip + 3) = true → exec (.jt a b) s = .next { s with ip := s.ip + 3 } ∧
      (runInstr (.jt a b) s).1 = .progressed) ∧
    (x = 0 → fit s.cfg (s.ip + 3) = false →
      exec (.jt a b) s = .next (raiseFault (Instr.jt a b).word (overflowTrap (s.ip + 3)) s)) ∧
    (Instr.jt a b).word = 5 + 100 * a.mode.digit + 1000 * b.mode.digit ∧ (Instr.jt a b).length = 3

/-- R151: `jf` goes to its second operand exactly when its first is 0, else advances by 3. -/
def Obligations.JumpIfFalseGoesToTarget : Prop :=
  ∀ (s : State) (a b : Param) (x y : Int), ReadsAs s a x → ReadsAs s b y →
    (x = 0 → fit s.cfg y = true → exec (.jf a b) s = .next { s with ip := y } ∧
      (runInstr (.jf a b) s).1 = .progressed) ∧
    (x = 0 → fit s.cfg y = false →
      exec (.jf a b) s = .next (raiseFault (Instr.jf a b).word (overflowTrap y) s)) ∧
    (x ≠ 0 → fit s.cfg (s.ip + 3) = true → exec (.jf a b) s = .next { s with ip := s.ip + 3 } ∧
      (runInstr (.jf a b) s).1 = .progressed) ∧
    (x ≠ 0 → fit s.cfg (s.ip + 3) = false →
      exec (.jf a b) s = .next (raiseFault (Instr.jf a b).word (overflowTrap (s.ip + 3)) s)) ∧
    (Instr.jf a b).word = 6 + 100 * a.mode.digit + 1000 * b.mode.digit ∧ (Instr.jf a b).length = 3

/-- R160: `lt` stores 1 if its first operand is less than its second as signed integers, else 0, and advances
by 4.  A legal configuration holds 0 and 1. -/
def Obligations.LessThanStoresZeroOrOne : Prop :=
  ∀ (s : State) (a b c : Param) (x y t : Int), s.cfg.wf = true →
    ReadsAs s a x → ReadsAs s b y → WritesTo s c t →
    (fit s.cfg (s.ip + 4) = true → x < y →
      exec (.lt a b c) s = .next { s with mem := Memory.write s.mem t.toNat 1, ip := s.ip + 4 } ∧
        (runInstr (.lt a b c) s).1 = .progressed) ∧
    (fit s.cfg (s.ip + 4) = true → y ≤ x →
      exec (.lt a b c) s = .next { s with mem := Memory.write s.mem t.toNat 0, ip := s.ip + 4 } ∧
        (runInstr (.lt a b c) s).1 = .progressed) ∧
    (fit s.cfg (s.ip + 4) = false →
      exec (.lt a b c) s = .next (raiseFault (Instr.lt a b c).word (overflowTrap (s.ip + 4)) s)) ∧
    (Instr.lt a b c).word = 7 + 100 * a.mode.digit + 1000 * b.mode.digit + 10000 * c.mode.digit ∧
    (Instr.lt a b c).length = 4

/-- R161: `eq` stores 1 if its operands are equal, else 0, and advances by 4. -/
def Obligations.EqualsStoresZeroOrOne : Prop :=
  ∀ (s : State) (a b c : Param) (x y t : Int), s.cfg.wf = true →
    ReadsAs s a x → ReadsAs s b y → WritesTo s c t →
    (fit s.cfg (s.ip + 4) = true → x = y →
      exec (.eq a b c) s = .next { s with mem := Memory.write s.mem t.toNat 1, ip := s.ip + 4 } ∧
        (runInstr (.eq a b c) s).1 = .progressed) ∧
    (fit s.cfg (s.ip + 4) = true → x ≠ y →
      exec (.eq a b c) s = .next { s with mem := Memory.write s.mem t.toNat 0, ip := s.ip + 4 } ∧
        (runInstr (.eq a b c) s).1 = .progressed) ∧
    (fit s.cfg (s.ip + 4) = false →
      exec (.eq a b c) s = .next (raiseFault (Instr.eq a b c).word (overflowTrap (s.ip + 4)) s)) ∧
    (Instr.eq a b c).word = 8 + 100 * a.mode.digit + 1000 * b.mode.digit + 10000 * c.mode.digit ∧
    (Instr.eq a b c).length = 4

/-- R170: `arb` adds its operand, read with the old base, to `RB`, and advances by 2; a negative new base is
no fault. -/
def Obligations.AdjustBaseAddsOperand : Prop :=
  ∀ (s : State) (a : Param) (x : Int), ReadsAs s a x →
    (fit s.cfg (s.rb + x) = true → fit s.cfg (s.ip + 2) = true →
      exec (.arb a) s = .next { s with rb := s.rb + x, ip := s.ip + 2 } ∧
        (runInstr (.arb a) s).1 = .progressed) ∧
    (fit s.cfg (s.rb + x) = false →
      exec (.arb a) s = .next (raiseFault (Instr.arb a).word (overflowTrap (s.rb + x)) s)) ∧
    (fit s.cfg (s.rb + x) = true → fit s.cfg (s.ip + 2) = false →
      exec (.arb a) s = .next (raiseFault (Instr.arb a).word (overflowTrap (s.ip + 2)) s)) ∧
    (Instr.arb a).word = 9 + 100 * a.mode.digit ∧ (Instr.arb a).length = 2

/-- R180: `hlt` sets `STATE` to HALTED and changes nothing else, from every state. -/
def Obligations.HaltSetsHaltedOnly : Prop :=
  ∀ s : State, exec .hlt s = .next { s with runState := .halted } ∧ (runInstr .hlt s).1 = .halted ∧
    Instr.hlt.word = 99 ∧ Instr.hlt.length = 1

/-- R105, R227, R228: the first parameter, ascending, whose address names no cell raises NEGATIVE_ADDRESS or
ADDRESS_RANGE with that address, before anything else of the instruction happens. -/
def Obligations.FirstMissingOperandCellFaults : Prop :=
  ∀ (s : State) (i : Instr) (before after : List Param) (p : Param) (a : Int), i.wellFormed = true →
    Instr.params i = before ++ p :: after → (∀ q ∈ before, AddressOk s q) →
    operandAddress s p = some a → cellExists s.cfg a = false →
    exec i s = .next (raiseFault i.word (addressTrap a) s)

/-! ### Frames -/

/-- What `add`, `mul`, `lt` and `eq` leave alone: everything but `IP` and the one cell c names, or, where they
fault, everything but the fault record and `STATE`. -/
def Obligations.FrameOfMemoryResults : Prop :=
  ∀ (s s' : State) (i : Instr) (a b c : Param), i ∈ [.add a b c, .mul a b c, .lt a b c, .eq a b c] →
    exec i s = .next s' →
    s'.cfg = s.cfg ∧ s'.rb = s.rb ∧ s'.pend = s.pend ∧ s'.inq = s.inq ∧ s'.outq = s.outq ∧
    (s'.runState = .faulted ∨ (s'.runState = s.runState ∧ SameRecord s s')) ∧
    (FaultEntered s s' → s'.mem = s.mem ∧ s'.ip = s.ip) ∧
    (∀ t, effAddr s 3 c = .ok t → Memory.wf s.mem = true →
      ∀ n, n ≠ t → Memory.read s'.mem n = Memory.read s.mem n) ∧
    (∀ e, effAddr s 3 c = .error e → s'.mem = s.mem)

/-- What `out`, `jt`, `jf`, `arb` and `hlt` leave alone: all of memory, the input queue and the latch; `RB` but
for `arb`; the output queue but for `out`; `IP` for `hlt`. -/
def Obligations.FrameOfRegisterResults : Prop :=
  ∀ (s s' : State) (i : Instr) (a b : Param), i ∈ [.out a, .jt a b, .jf a b, .arb a, .hlt] →
    exec i s = .next s' →
    s'.cfg = s.cfg ∧ s'.mem = s.mem ∧ s'.pend = s.pend ∧ s'.inq = s.inq ∧
    (i ≠ .arb a → s'.rb = s.rb) ∧ (i ≠ .out a → s'.outq = s.outq) ∧ (i = .hlt → s'.ip = s.ip) ∧
    (s'.runState = .faulted ∨
      (SameRecord s s' ∧ s'.runState = (if i = .hlt then .halted else s.runState))) ∧
    (FaultEntered s s' → s'.rb = s.rb ∧ s'.outq = s.outq ∧ s'.ip = s.ip)

/-- What `in` leaves alone: `RB`, the output queue, every cell but the one it names; where it suspends, all of
memory, `IP` and the input queue too. -/
def Obligations.FrameOfInput : Prop :=
  ∀ (s s' : State) (a : Param), exec (.inp a) s = .next s' →
    s'.cfg = s.cfg ∧ s'.rb = s.rb ∧ s'.outq = s.outq ∧
    (s'.runState = .faulted ∨ SameRecord s s') ∧
    (FaultEntered s s' → s'.mem = s.mem ∧ s'.ip = s.ip ∧ s'.inq = s.inq ∧ s'.pend = s.pend) ∧
    (s.inq = [] → s'.mem = s.mem ∧ s'.ip = s.ip ∧ s'.inq = []) ∧
    (s.inq ≠ [] → s'.pend = s.pend ∧ (s'.runState = .faulted ∨ s'.runState = s.runState)) ∧
    (∀ t, effAddr s 1 a = .ok t → Memory.wf s.mem = true →
      ∀ n, n ≠ t → Memory.read s'.mem n = Memory.read s.mem n) ∧
    (∀ e, effAddr s 1 a = .error e → s'.mem = s.mem ∧ s'.inq = s.inq ∧ s'.pend = s.pend)

/-! ### The execution cycle (40_execution_cycle.md) -/

/-- R102 to R106: a running core whose cells at `IP` exist and decode to `i` steps as `exec i`. -/
def Obligations.StepRunsDecodedInstruction : Prop :=
  ∀ (s : State) (i : Instr) (rest : List Int), s.runState = .running →
    (∀ k : Nat, k < i.length → cellExists s.cfg (s.ip + k) = true) →
    decode (Memory.cells s.mem s.ip.toNat 4) = .ok (i, rest) → step s = exec i s

/-- R102, R223: a fetch at an `IP` that names no cell is INVALID_PC, with the bad `IP` and the word 0. -/
def Obligations.FetchOutsideMemoryFaults : Prop :=
  ∀ s : State, s.runState = .running → cellExists s.cfg s.ip = false →
    step s = .next { s with
      faultCause := .invalidPc, faultIp := s.ip, faultWord := 0, faultInfo := s.ip, runState := .faulted }

/-- R103, R231: an illegal word at `IP` raises the fault of its decoding, and is recorded. -/
def Obligations.IllegalWordFaults : Prop :=
  ∀ (s : State) (t : Trap), s.runState = .running → cellExists s.cfg s.ip = true →
    decodeWord (s.cell s.ip) = .error t →
    step s = .next { s with
      faultCause := t.cause, faultIp := s.ip, faultWord := s.cell s.ip, faultInfo := t.info,
      runState := .faulted }

/-- R104, R228: the first parameter cell past a finite top is ADDRESS_RANGE, before any operand is
evaluated. -/
def Obligations.MissingParameterCellFaults : Prop :=
  ∀ (s : State) (h : Head) (k : Nat), s.runState = .running → cellExists s.cfg s.ip = true →
    decodeWord (s.cell s.ip) = .ok h → 1 ≤ k → k ≤ h.nparams →
    (∀ j : Nat, 1 ≤ j → j < k → cellExists s.cfg (s.ip + j) = true) → cellExists s.cfg (s.ip + k) = false →
    step s = .next (raiseFault (s.cell s.ip) { cause := .addressRange, info := s.ip + k } s)

/-- R101, R26, R113, R233: a step changes nothing in HALTED, in FAULTED, and in AWAITING_INPUT while the input
queue is empty, and returns what it returned before. -/
def Obligations.TerminalAndWaitingStatesHold : Prop :=
  ∀ s : State,
    (s.runState = .halted → step s = .next s ∧ hostStep s = .next (.halted, s)) ∧
    (s.runState = .faulted → step s = .next s ∧ hostStep s = .next (.faulted s.faultCause, s)) ∧
    (s.runState = .awaitingInput → s.inq = [] → step s = .next s ∧ hostStep s = .next (.suspended, s))

/-- R112: a step in AWAITING_INPUT with an input completes the latched write without fetching, advances by 2,
empties the latch and runs on. -/
def Obligations.ResumptionCompletesPendingWrite : Prop :=
  ∀ (s : State) (p : Pending) (x : Int) (rest : List Int), Invariant s → s.pend = some p → s.inq = x :: rest →
    ∃ t : State, step s = .next t ∧ hostStep s = .next (.progressed, t) ∧
      t = { s with
        mem := Memory.write s.mem
          ((match p.mode with | .position => p.raw | _ => s.rb + p.raw) : Int).toNat x
        inq := rest, ip := s.ip + 2, pend := none, runState := .running }

/-- R107, R231: a step that enters FAULTED changes only the fault record and `STATE`; it records `IP`, and the word
at `IP` if it was fetched in this step, else 0; and it returns the cause. -/
def Obligations.FaultsArePrecise : Prop :=
  ∀ s s' : State, step s = .next s' → FaultEntered s s' →
    SameRegisters s s' ∧ s'.mem = s.mem ∧ s'.faultCause ≠ .none ∧ s'.faultIp = s.ip ∧
    s'.faultWord = (if s.runState = .running ∧ cellExists s.cfg s.ip = true then s.cell s.ip else 0) ∧
    hostStep s = .next (.faulted s'.faultCause, s')

/-- R100: a step is total: in every state that meets the invariant it answers a next state. -/
def Obligations.StepAnswersNextState : Prop :=
  ∀ s : State, Invariant s → ∃ s', step s = .next s'

/-- R194: STEP() gives the next state of `step`, with a step result. -/
def Obligations.HostStepIsStepWithResult : Prop :=
  ∀ s s' : State, step s = .next s' ↔ ∃ r, hostStep s = .next (r, s')

/-- R109: the step result tells the run state afterwards, and a stall leaves the state unchanged. -/
def Obligations.StepResultTellsRunState : Prop :=
  ∀ (s s' : State) (r : StepResult), Invariant s → hostStep s = .next (r, s') →
    match r with
    | .progressed  => s'.runState = .running
    | .suspended   => s'.runState = .awaitingInput ∧ s'.inq = []
    | .halted      => s'.runState = .halted
    | .faulted c   => s'.runState = .faulted ∧ s'.faultCause = c
    | .outputStall => s'.runState = .running ∧ s' = s ∧ s.cfg.outDepth = some s.outq.length

/-- R110: every transition of one step, with its result.  RUNNING is left for HALTED by opcode 99 only and for
AWAITING_INPUT by opcode 3 with a valid destination on an empty input queue only; opcode 4 alone stalls, on a
full output queue; every other step progresses or faults.  AWAITING_INPUT is left for RUNNING as soon as there
is an input. -/
def Obligations.RunStateTransitions : Prop :=
  ∀ (s s' : State) (r : StepResult), Invariant s → hostStep s = .next (r, s') →
    (s.runState = .running →
      (r = .halted ↔ fetch s = .instr .hlt) ∧
      (r = .suspended ↔ ∃ a, fetch s = .instr (.inp a) ∧ AddressOk s a ∧ fit s.cfg (s.ip + 2) = true ∧
        s.inq = []) ∧
      (r = .outputStall ↔ ∃ a, fetch s = .instr (.out a) ∧ AddressOk s a ∧ fit s.cfg (s.ip + 2) = true ∧
        s.cfg.outDepth = some s.outq.length) ∧
      (r = .progressed → ∃ i, fetch s = .instr i ∧ i ≠ .hlt) ∧
      s'.runState = (match r with
        | .progressed => .running | .suspended => .awaitingInput | .halted => .halted
        | .faulted _ => .faulted | .outputStall => .running)) ∧
    (s.runState = .awaitingInput → s.inq ≠ [] → r = .progressed ∧ s'.runState = .running) ∧
    (s.runState = .awaitingInput → s.inq = [] → r = .suspended ∧ s' = s) ∧
    (s.runState = .halted → r = .halted ∧ s' = s) ∧
    (s.runState = .faulted → r = .faulted s.faultCause ∧ s' = s)

/-- R24, R170, R171: `RB` changes only in a step that runs opcode 9. -/
def Obligations.OnlyAdjustBaseChangesRb : Prop :=
  ∀ s s' : State, step s = .next s' → s'.rb ≠ s.rb → s.runState = .running ∧ ∃ a, fetch s = .instr (.arb a)

/-- R152: opcodes 5 and 6 are the only instructions that set `IP` to anything but itself or `IP` + length. -/
def Obligations.OnlyJumpsLeaveTheSequence : Prop :=
  ∀ (s s' : State) (i : Instr), exec i s = .next s' → s'.ip ≠ s.ip → s'.ip ≠ s.ip + i.length →
    ∃ a b, i = .jt a b ∨ i = .jf a b

/-- R57: a step changes at most one cell, and none where it runs opcodes 4, 5, 6, 9 or 99. -/
def Obligations.StepChangesAtMostOneCell : Prop :=
  ∀ s s' : State, Memory.wf s.mem = true → step s = .next s' →
    (∀ m n : Nat, Memory.read s'.mem m ≠ Memory.read s.mem m → Memory.read s'.mem n ≠ Memory.read s.mem n →
      m = n) ∧
    (∀ a b, s.runState = .running →
      fetch s ∈ [.instr (.out a), .instr (.jt a b), .instr (.jf a b), .instr (.arb a), .instr .hlt] →
      s'.mem = s.mem)

/-- R142: a step takes at most the head of the input queue and appends at most one value to the output
queue. -/
def Obligations.QueuesAreFifo : Prop :=
  ∀ s s' : State, step s = .next s' →
    (s'.inq = s.inq ∨ ∃ x, s.inq = x :: s'.inq) ∧ (s'.outq = s.outq ∨ ∃ x, s'.outq = s.outq ++ [x])

/-- R221: in the reference configuration no step raises ADDRESS_RANGE or OVERFLOW or stalls. -/
def Obligations.ReferenceRaisesOnlyCausesOneToSix : Prop :=
  ∀ (s s' : State) (r : StepResult), s.cfg = Config.reference → s.runState ≠ .faulted →
    hostStep s = .next (r, s') → r ≠ .outputStall ∧
      (s'.runState = .faulted → 1 ≤ causeCode s'.faultCause ∧ causeCode s'.faultCause ≤ 6)

/-! ### The invariant -/

/-- The state after reset meets the invariant (R34, R251). -/
def Obligations.ResetMeetsInvariant : Prop := Invariant State.reset

/-- Every step keeps the invariant: canonical memory of words below the top, words in every register and
queue, a latch exactly in AWAITING_INPUT and that of the instruction at `IP` (R27, R116), and a fault record
exactly in FAULTED (R30). -/
def Obligations.StepKeepsInvariant : Prop :=
  ∀ s s' : State, Invariant s → step s = .next s' → Invariant s'

/-- Every operation of the host keeps the invariant (R190 to R195, R200). -/
def Obligations.HostOperationsKeepInvariant : Prop :=
  ∀ (op : HostOp) (s : State), Invariant s → Invariant (hostDo op s).2

/-- R257: while the core awaits an input, no host operation but LOAD changes memory, `RB`, `IP` or the latch,
until a STEP with an input completes the write. -/
def Obligations.SuspensionIsHazardFree : Prop :=
  ∀ (op : HostOp) (s : State), drivesOnly [op] = true → s.runState = .awaitingInput →
    (op = .step → s.inq = []) →
    (hostDo op s).2.mem = s.mem ∧ (hostDo op s).2.rb = s.rb ∧ (hostDo op s).2.ip = s.ip ∧
      (hostDo op s).2.pend = s.pend ∧ (hostDo op s).2.runState = .awaitingInput

/-! ### Configurations (00_scope.md) -/

/-- R6, R7: a finite configuration only adds faults and holds.  A step that neither stalls nor raises
ADDRESS_RANGE, OVERFLOW or INVALID_PC at a non-negative `IP` gives, in the reference configuration, the same
result and the same next state. -/
def Obligations.FiniteConfigurationAgreesWithReference : Prop :=
  ∀ (s s' : State) (r : StepResult), hostStep s = .next (r, s') → r ≠ .outputStall →
    r ≠ .faulted .addressRange → r ≠ .faulted .overflow → (r = .faulted .invalidPc → s.ip < 0) →
    hostStep { s with cfg := Config.reference } = .next (r, { s' with cfg := Config.reference })

/-! ### The host interface (47_host_driver.md, 70_reset_and_hazards.md) -/

/-- R250, R34: an accepted LOAD sets every piece of state; memory reads as the program, and as 0 past it. -/
def Obligations.LoadSetsEveryPieceOfState : Prop :=
  ∀ (p : List Int) (s : State), (∀ m, s.cfg.memWords = some m → p.length ≤ m) →
    (∀ v ∈ p, fit s.cfg v = true) →
    ∃ m : Memory, Memory.wf m = true ∧ (∀ a, Memory.read m a = p.getD a 0) ∧
      load p s = (.accepted,
        { cfg := s.cfg, mem := m, ip := 0, rb := 0, runState := .running, pend := none, inq := [], outq := [],
          faultCause := .none, faultIp := 0, faultWord := 0, faultInfo := 0 })

/-- R254: LOAD refuses exactly a program that is too long or holds a value that is no word, and then changes
nothing.  That TOO_LONG is named where both hold is the model's choice (assumption 7). -/
def Obligations.LoadRefusals : Prop :=
  ∀ (p : List Int) (s : State),
    (∀ m, s.cfg.memWords = some m → m < p.length → load p s = (.refused .tooLong, s)) ∧
    ((∀ m, s.cfg.memWords = some m → p.length ≤ m) → (∃ v ∈ p, fit s.cfg v = false) →
      load p s = (.refused .notAWord, s))

/-- R192: FEED appends a word to the input queue in every run state; it refuses a value that is no word and a
full queue, and a refused FEED changes nothing. -/
def Obligations.FeedAppendsOrRefuses : Prop :=
  ∀ (v : Int) (s : State),
    (fit s.cfg v = false → feed v s = (.refused .notAWord, s)) ∧
    (fit s.cfg v = true → s.cfg.inDepth = some s.inq.length → feed v s = (.refused .full, s)) ∧
    (fit s.cfg v = true → s.cfg.inDepth ≠ some s.inq.length →
      feed v s = (.accepted, { s with inq := s.inq ++ [v] }))

/-- R195, R25, R221: STATUS returns the codes of `STATE` and of the cause, the other fields of the fault record, `IP`,
`RB` and the lengths of the queues, and changes nothing. -/
def Obligations.StatusReportsState : Prop :=
  ∀ s : State, hostDo .status s = (.status
    { state := (match s.runState with | .running => 0 | .awaitingInput => 1 | .halted => 2 | .faulted => 3)
      faultCause := (match s.faultCause with
        | .none => 0 | .invalidOpcode => 1 | .invalidPc => 2 | .illegalMode => 3 | .excessModeDigits => 4
        | .negativeWord => 5 | .negativeAddress => 6 | .addressRange => 7 | .overflow => 8)
      faultIp := s.faultIp, faultWord := s.faultWord, faultInfo := s.faultInfo, ip := s.ip, rb := s.rb
      inLength := s.inq.length, outLength := s.outq.length }, s)

/-- R193: POP removes and returns the oldest output; on an empty queue it changes nothing. -/
def Obligations.PopTakesOldestOutput : Prop :=
  ∀ s : State,
    (s.outq = [] → pop s = (.empty, s)) ∧
    (∀ x rest, s.outq = x :: rest → pop s = (.value x, { s with outq := rest }))

/-- R251: the state at power-on is that of LOAD([]), and a STEP fetches 0 and faults INVALID_OPCODE. -/
def Obligations.PowerOnStepFaults : Prop :=
  load [] State.reset = (.accepted, State.reset) ∧
  step State.reset = .next { State.reset with faultCause := .invalidOpcode, runState := .faulted }

/-- R196: next_output is STEPs, each with an empty output queue, and, for a value, one POP of the oldest output; it
gives a value before the end of the stream, the end of the stream in HALTED with no output left, the fault record
in FAULTED, and a suspension only in AWAITING_INPUT with no input.  The bound on its steps is the model's, and
`running` is answered after exactly that many of them (assumption 8). -/
def Obligations.NextOutputAnswers : Prop :=
  ∀ (fuel : Nat) (s s' : State) (r : NextOutput), Invariant s → nextOutput fuel s = (r, s') →
    (∃ n, n ≤ fuel ∧ (r = .running → n = fuel) ∧
      (∀ k, k < n → (hostRun (List.replicate k .step) s).2.outq = []) ∧
      (hostRun (List.replicate n .step) s).2 =
        (match r with | .value x => { s' with outq := x :: s'.outq } | _ => s')) ∧
    (∀ y rest, s.outq = y :: rest → r = .value y ∧ s' = { s with outq := rest }) ∧
    match r with
    | .value _       => True
    | .endOfStream   => s'.runState = .halted ∧ s'.outq = []
    | .suspended     => s'.runState = .awaitingInput ∧ s'.inq = [] ∧ s'.outq = []
    | .error c i w v => s'.runState = .faulted ∧ s'.outq = [] ∧ s'.faultCause = c ∧ s'.faultIp = i ∧
        s'.faultWord = w ∧ s'.faultInfo = v
    | .running       => s'.outq = [] ∧ (s'.runState = .running ∨ s'.runState = .awaitingInput)
    | .stuck         => False

/-- R197: run_to_completion is a schedule of accepted FEEDs of its inputs in order, of STEPs and of POPs, and returns
what the POPs took out.  It ends Completed in HALTED and Faulted in FAULTED, every output delivered, and Starved in
AWAITING_INPUT with every input fed and none left.  The bound is the model's, and `running` is answered after at
least that many STEPs and POPs (assumption 8). -/
def Obligations.RunToCompletionOutcomes : Prop :=
  ∀ (bound : Nat) (inputs outs : List Int) (s s' : State) (c : Completion), Invariant s →
    runToCompletion bound inputs s = ((outs, c), s') →
    ∃ ops : List HostOp, drivesOnly ops = true ∧ (∀ e, HostReply.fed (.refused e) ∉ (hostRun ops s).1) ∧
      (hostRun ops s).2 = s' ∧ poppedValues (hostRun ops s).1 = outs ∧ fedValues ops <+: inputs ∧
      match c with
      | .completed       => Succeeded s' ∧ s'.outq = []
      | .faulted c i w v => Failed s' ∧ s'.outq = [] ∧ s'.faultCause = c ∧ s'.faultIp = i ∧ s'.faultWord = w ∧
          s'.faultInfo = v
      | .starved         => Stuck s' ∧ s'.outq = [] ∧ fedValues ops = inputs
      | .running         => bound ≤ (ops.filter fun op => decide (op = .step ∨ op = .pop)).length
      | .stuck           => False

/-- R54, R201: an operation on one core of a system does to that core what the operation does to a core alone, and
leaves every other core as it was.  That a system is a list of states is the model's (assumption 3, DEDUCED). -/
def Obligations.CoresShareNoState : Prop :=
  ∀ (sys : System) (op : HostOp) (k : Nat),
    (systemDo k op sys)[k]? = sys[k]?.map (fun s => (hostDo op s).2) ∧
      ∀ j : Nat, j ≠ k → (systemDo k op sys)[j]? = sys[j]?

/-! ### Suspension and the order of driving -/

/-- R114, for one input: suspending, feeding and stepping again ends in the same state as feeding first and
stepping once. -/
def Obligations.SuspendFeedStepEqualsFeedStep : Prop :=
  ∀ (s s1 s' : State) (v : Int), Invariant s → s.runState = .running → step s = .next s1 →
    s1.runState = .awaitingInput → feed v s = (.accepted, s') → step (feed v s1).2 = step s'

/-- R192, R198: a step that does not end in AWAITING_INPUT commutes with an accepted FEED, and returns the
same result. -/
def Obligations.FeedCommutesWithStep : Prop :=
  ∀ (s s1 s' : State) (v : Int) (r : StepResult), hostStep s = .next (r, s1) → r ≠ .suspended →
    feed v s = (.accepted, s') → hostStep s' = .next (r, { s1 with inq := s1.inq ++ [v] })

/-- R114, R198, R232: whatever the schedule of FEED, POP and STEP, runs of one program fed from one list of inputs
in order that end in HALTED or FAULTED end alike: the same output sequence, memory, `IP`, `RB`, run state and
fault record. -/
def Obligations.DrivingOrderIsUnobservable : Prop :=
  ∀ (s : State) (inputs : List Int) (ops ops' : List HostOp), Invariant s → s.runState = .running →
    s.inq = [] → s.outq = [] → drivesOnly ops = true → drivesOnly ops' = true →
    fedValues ops <+: inputs → fedValues ops' <+: inputs →
    (∀ e, HostReply.fed (.refused e) ∉ (hostRun ops s).1) →
    (∀ e, HostReply.fed (.refused e) ∉ (hostRun ops' s).1) →
    (hostRun ops s).2.runState ∈ [.halted, .faulted] → (hostRun ops' s).2.runState ∈ [.halted, .faulted] →
    outputSequence (hostRun ops s) = outputSequence (hostRun ops' s) ∧
      (hostRun ops s).2.mem = (hostRun ops' s).2.mem ∧ (hostRun ops s).2.ip = (hostRun ops' s).2.ip ∧
      (hostRun ops s).2.rb = (hostRun ops' s).2.rb ∧
      (hostRun ops s).2.runState = (hostRun ops' s).2.runState ∧
      SameRecord (hostRun ops s).2 (hostRun ops' s).2

/-! ### Program text and assembly (30_encoding.md, 70_reset_and_hazards.md) -/

/-- R90, R252: the text of a program reads back as the program, with any blanks around it. -/
def Obligations.ProgramTextRoundTrip : Prop :=
  ∀ (p : List Int) (front back : List Char), p ≠ [] → front.all isBlank = true → back.all isBlank = true →
    readProgram (front ++ printProgram p ++ back) = some p

/-- R89: each pseudo-instruction assembles to the one instruction and the words of its row. -/
def Obligations.PseudoInstructionsExpand : Prop :=
  (∀ (s d : AsmOperand) (u v : Int), s.value = .number u → d.value = .number v → d.mode ≠ .immediate →
    assemble [.instr .mov [s, d]] = assemble [.instr .add [s, asmImmediate 0, d]] ∧
    assemble [.instr .mov [s, d]] =
      some [(1 + 1000 * 1 + 100 * s.mode.digit + 10000 * d.mode.digit : Int), u, 0, v] ∧
    assemble [.instr .neg [s, d]] = assemble [.instr .mul [s, asmImmediate (-1), d]] ∧
    assemble [.instr .neg [s, d]] =
      some [(2 + 1000 * 1 + 100 * s.mode.digit + 10000 * d.mode.digit : Int), u, -1, v]) ∧
  (∀ (t : AsmOperand) (u : Int), t.value = .number u →
    assemble [.instr .jmp [t]] = assemble [.instr .jt [asmImmediate 1, t]] ∧
    assemble [.instr .jmp [t]] = some [(105 + 1000 * t.mode.digit : Int), 1, u]) ∧
  assemble [.instr .nop []] = assemble [.instr .arb [asmImmediate 0]] ∧
  assemble [.instr .nop []] = some [109, 0]

/-- R88: the printed text of a well-formed instruction assembles to its words, `Encode(op, modes)` and the raw
parameters. -/
def Obligations.AssemblyOfPrintedInstruction : Prop :=
  ∀ i : Instr, i.wellFormed = true → assembleText (printInstr i) = some (encode i)
end

