-- ==== Sys2Proof/Laws/State.lean ====
section
/-! SUPPORT. One lemma per field per update of the state, so that no proof unfolds a record update. -/

namespace Sys2Proof.Machine


/-! ### setMem -/

@[simp] theorem State.setMem_cfg (s : State) (m : Memory) : (s.setMem m).cfg = s.cfg := rfl
@[simp] theorem State.setMem_mem (s : State) (m : Memory) : (s.setMem m).mem = m := rfl
@[simp] theorem State.setMem_ip (s : State) (m : Memory) : (s.setMem m).ip = s.ip := rfl
@[simp] theorem State.setMem_rb (s : State) (m : Memory) : (s.setMem m).rb = s.rb := rfl
@[simp] theorem State.setMem_runState (s : State) (m : Memory) : (s.setMem m).runState = s.runState := rfl
@[simp] theorem State.setMem_pend (s : State) (m : Memory) : (s.setMem m).pend = s.pend := rfl
@[simp] theorem State.setMem_inq (s : State) (m : Memory) : (s.setMem m).inq = s.inq := rfl
@[simp] theorem State.setMem_outq (s : State) (m : Memory) : (s.setMem m).outq = s.outq := rfl
@[simp] theorem State.setMem_faultCause (s : State) (m : Memory) : (s.setMem m).faultCause = s.faultCause := rfl
@[simp] theorem State.setMem_faultIp (s : State) (m : Memory) : (s.setMem m).faultIp = s.faultIp := rfl
@[simp] theorem State.setMem_faultWord (s : State) (m : Memory) : (s.setMem m).faultWord = s.faultWord := rfl
@[simp] theorem State.setMem_faultInfo (s : State) (m : Memory) : (s.setMem m).faultInfo = s.faultInfo := rfl

/-! ### setIp -/

@[simp] theorem State.setIp_cfg (s : State) (v : Int) : (s.setIp v).cfg = s.cfg := rfl
@[simp] theorem State.setIp_mem (s : State) (v : Int) : (s.setIp v).mem = s.mem := rfl
@[simp] theorem State.setIp_ip (s : State) (v : Int) : (s.setIp v).ip = v := rfl
@[simp] theorem State.setIp_rb (s : State) (v : Int) : (s.setIp v).rb = s.rb := rfl
@[simp] theorem State.setIp_runState (s : State) (v : Int) : (s.setIp v).runState = s.runState := rfl
@[simp] theorem State.setIp_pend (s : State) (v : Int) : (s.setIp v).pend = s.pend := rfl
@[simp] theorem State.setIp_inq (s : State) (v : Int) : (s.setIp v).inq = s.inq := rfl
@[simp] theorem State.setIp_outq (s : State) (v : Int) : (s.setIp v).outq = s.outq := rfl
@[simp] theorem State.setIp_faultCause (s : State) (v : Int) : (s.setIp v).faultCause = s.faultCause := rfl
@[simp] theorem State.setIp_faultIp (s : State) (v : Int) : (s.setIp v).faultIp = s.faultIp := rfl
@[simp] theorem State.setIp_faultWord (s : State) (v : Int) : (s.setIp v).faultWord = s.faultWord := rfl
@[simp] theorem State.setIp_faultInfo (s : State) (v : Int) : (s.setIp v).faultInfo = s.faultInfo := rfl

/-! ### setRb -/

@[simp] theorem State.setRb_cfg (s : State) (v : Int) : (s.setRb v).cfg = s.cfg := rfl
@[simp] theorem State.setRb_mem (s : State) (v : Int) : (s.setRb v).mem = s.mem := rfl
@[simp] theorem State.setRb_ip (s : State) (v : Int) : (s.setRb v).ip = s.ip := rfl
@[simp] theorem State.setRb_rb (s : State) (v : Int) : (s.setRb v).rb = v := rfl
@[simp] theorem State.setRb_runState (s : State) (v : Int) : (s.setRb v).runState = s.runState := rfl
@[simp] theorem State.setRb_pend (s : State) (v : Int) : (s.setRb v).pend = s.pend := rfl
@[simp] theorem State.setRb_inq (s : State) (v : Int) : (s.setRb v).inq = s.inq := rfl
@[simp] theorem State.setRb_outq (s : State) (v : Int) : (s.setRb v).outq = s.outq := rfl
@[simp] theorem State.setRb_faultCause (s : State) (v : Int) : (s.setRb v).faultCause = s.faultCause := rfl
@[simp] theorem State.setRb_faultIp (s : State) (v : Int) : (s.setRb v).faultIp = s.faultIp := rfl
@[simp] theorem State.setRb_faultWord (s : State) (v : Int) : (s.setRb v).faultWord = s.faultWord := rfl
@[simp] theorem State.setRb_faultInfo (s : State) (v : Int) : (s.setRb v).faultInfo = s.faultInfo := rfl

/-! ### setInq -/

@[simp] theorem State.setInq_cfg (s : State) (q : List Int) : (s.setInq q).cfg = s.cfg := rfl
@[simp] theorem State.setInq_mem (s : State) (q : List Int) : (s.setInq q).mem = s.mem := rfl
@[simp] theorem State.setInq_ip (s : State) (q : List Int) : (s.setInq q).ip = s.ip := rfl
@[simp] theorem State.setInq_rb (s : State) (q : List Int) : (s.setInq q).rb = s.rb := rfl
@[simp] theorem State.setInq_runState (s : State) (q : List Int) : (s.setInq q).runState = s.runState := rfl
@[simp] theorem State.setInq_pend (s : State) (q : List Int) : (s.setInq q).pend = s.pend := rfl
@[simp] theorem State.setInq_inq (s : State) (q : List Int) : (s.setInq q).inq = q := rfl
@[simp] theorem State.setInq_outq (s : State) (q : List Int) : (s.setInq q).outq = s.outq := rfl
@[simp] theorem State.setInq_faultCause (s : State) (q : List Int) : (s.setInq q).faultCause = s.faultCause := rfl
@[simp] theorem State.setInq_faultIp (s : State) (q : List Int) : (s.setInq q).faultIp = s.faultIp := rfl
@[simp] theorem State.setInq_faultWord (s : State) (q : List Int) : (s.setInq q).faultWord = s.faultWord := rfl
@[simp] theorem State.setInq_faultInfo (s : State) (q : List Int) : (s.setInq q).faultInfo = s.faultInfo := rfl

/-! ### setOutq -/

@[simp] theorem State.setOutq_cfg (s : State) (q : List Int) : (s.setOutq q).cfg = s.cfg := rfl
@[simp] theorem State.setOutq_mem (s : State) (q : List Int) : (s.setOutq q).mem = s.mem := rfl
@[simp] theorem State.setOutq_ip (s : State) (q : List Int) : (s.setOutq q).ip = s.ip := rfl
@[simp] theorem State.setOutq_rb (s : State) (q : List Int) : (s.setOutq q).rb = s.rb := rfl
@[simp] theorem State.setOutq_runState (s : State) (q : List Int) : (s.setOutq q).runState = s.runState := rfl
@[simp] theorem State.setOutq_pend (s : State) (q : List Int) : (s.setOutq q).pend = s.pend := rfl
@[simp] theorem State.setOutq_inq (s : State) (q : List Int) : (s.setOutq q).inq = s.inq := rfl
@[simp] theorem State.setOutq_outq (s : State) (q : List Int) : (s.setOutq q).outq = q := rfl
@[simp] theorem State.setOutq_faultCause (s : State) (q : List Int) : (s.setOutq q).faultCause = s.faultCause := rfl
@[simp] theorem State.setOutq_faultIp (s : State) (q : List Int) : (s.setOutq q).faultIp = s.faultIp := rfl
@[simp] theorem State.setOutq_faultWord (s : State) (q : List Int) : (s.setOutq q).faultWord = s.faultWord := rfl
@[simp] theorem State.setOutq_faultInfo (s : State) (q : List Int) : (s.setOutq q).faultInfo = s.faultInfo := rfl

/-! ### pushOut -/

@[simp] theorem State.pushOut_cfg (s : State) (v : Int) : (s.pushOut v).cfg = s.cfg := rfl
@[simp] theorem State.pushOut_mem (s : State) (v : Int) : (s.pushOut v).mem = s.mem := rfl
@[simp] theorem State.pushOut_ip (s : State) (v : Int) : (s.pushOut v).ip = s.ip := rfl
@[simp] theorem State.pushOut_rb (s : State) (v : Int) : (s.pushOut v).rb = s.rb := rfl
@[simp] theorem State.pushOut_runState (s : State) (v : Int) : (s.pushOut v).runState = s.runState := rfl
@[simp] theorem State.pushOut_pend (s : State) (v : Int) : (s.pushOut v).pend = s.pend := rfl
@[simp] theorem State.pushOut_inq (s : State) (v : Int) : (s.pushOut v).inq = s.inq := rfl
@[simp] theorem State.pushOut_outq (s : State) (v : Int) : (s.pushOut v).outq = s.outq ++ [v] := rfl
@[simp] theorem State.pushOut_faultCause (s : State) (v : Int) : (s.pushOut v).faultCause = s.faultCause := rfl
@[simp] theorem State.pushOut_faultIp (s : State) (v : Int) : (s.pushOut v).faultIp = s.faultIp := rfl
@[simp] theorem State.pushOut_faultWord (s : State) (v : Int) : (s.pushOut v).faultWord = s.faultWord := rfl
@[simp] theorem State.pushOut_faultInfo (s : State) (v : Int) : (s.pushOut v).faultInfo = s.faultInfo := rfl

/-! ### halt -/

@[simp] theorem State.halt_cfg (s : State) : (s.halt).cfg = s.cfg := rfl
@[simp] theorem State.halt_mem (s : State) : (s.halt).mem = s.mem := rfl
@[simp] theorem State.halt_ip (s : State) : (s.halt).ip = s.ip := rfl
@[simp] theorem State.halt_rb (s : State) : (s.halt).rb = s.rb := rfl
@[simp] theorem State.halt_runState (s : State) : (s.halt).runState = .halted := rfl
@[simp] theorem State.halt_pend (s : State) : (s.halt).pend = s.pend := rfl
@[simp] theorem State.halt_inq (s : State) : (s.halt).inq = s.inq := rfl
@[simp] theorem State.halt_outq (s : State) : (s.halt).outq = s.outq := rfl
@[simp] theorem State.halt_faultCause (s : State) : (s.halt).faultCause = s.faultCause := rfl
@[simp] theorem State.halt_faultIp (s : State) : (s.halt).faultIp = s.faultIp := rfl
@[simp] theorem State.halt_faultWord (s : State) : (s.halt).faultWord = s.faultWord := rfl
@[simp] theorem State.halt_faultInfo (s : State) : (s.halt).faultInfo = s.faultInfo := rfl

/-! ### suspend -/

@[simp] theorem State.suspend_cfg (s : State) (p : Param) : (s.suspend p).cfg = s.cfg := rfl
@[simp] theorem State.suspend_mem (s : State) (p : Param) : (s.suspend p).mem = s.mem := rfl
@[simp] theorem State.suspend_ip (s : State) (p : Param) : (s.suspend p).ip = s.ip := rfl
@[simp] theorem State.suspend_rb (s : State) (p : Param) : (s.suspend p).rb = s.rb := rfl
@[simp] theorem State.suspend_runState (s : State) (p : Param) : (s.suspend p).runState = .awaitingInput := rfl
@[simp] theorem State.suspend_pend (s : State) (p : Param) : (s.suspend p).pend = some { mode := p.mode, raw := p.raw } := rfl
@[simp] theorem State.suspend_inq (s : State) (p : Param) : (s.suspend p).inq = s.inq := rfl
@[simp] theorem State.suspend_outq (s : State) (p : Param) : (s.suspend p).outq = s.outq := rfl
@[simp] theorem State.suspend_faultCause (s : State) (p : Param) : (s.suspend p).faultCause = s.faultCause := rfl
@[simp] theorem State.suspend_faultIp (s : State) (p : Param) : (s.suspend p).faultIp = s.faultIp := rfl
@[simp] theorem State.suspend_faultWord (s : State) (p : Param) : (s.suspend p).faultWord = s.faultWord := rfl
@[simp] theorem State.suspend_faultInfo (s : State) (p : Param) : (s.suspend p).faultInfo = s.faultInfo := rfl

/-! ### unsuspend -/

@[simp] theorem State.unsuspend_cfg (s : State) : (s.unsuspend).cfg = s.cfg := rfl
@[simp] theorem State.unsuspend_mem (s : State) : (s.unsuspend).mem = s.mem := rfl
@[simp] theorem State.unsuspend_ip (s : State) : (s.unsuspend).ip = s.ip := rfl
@[simp] theorem State.unsuspend_rb (s : State) : (s.unsuspend).rb = s.rb := rfl
@[simp] theorem State.unsuspend_runState (s : State) : (s.unsuspend).runState = .running := rfl
@[simp] theorem State.unsuspend_pend (s : State) : (s.unsuspend).pend = none := rfl
@[simp] theorem State.unsuspend_inq (s : State) : (s.unsuspend).inq = s.inq := rfl
@[simp] theorem State.unsuspend_outq (s : State) : (s.unsuspend).outq = s.outq := rfl
@[simp] theorem State.unsuspend_faultCause (s : State) : (s.unsuspend).faultCause = s.faultCause := rfl
@[simp] theorem State.unsuspend_faultIp (s : State) : (s.unsuspend).faultIp = s.faultIp := rfl
@[simp] theorem State.unsuspend_faultWord (s : State) : (s.unsuspend).faultWord = s.faultWord := rfl
@[simp] theorem State.unsuspend_faultInfo (s : State) : (s.unsuspend).faultInfo = s.faultInfo := rfl

/-! ### raiseFault -/

@[simp] theorem raiseFault_cfg (s : State) (w : Int) (t : Trap) : (raiseFault w t s).cfg = s.cfg := rfl
@[simp] theorem raiseFault_mem (s : State) (w : Int) (t : Trap) : (raiseFault w t s).mem = s.mem := rfl
@[simp] theorem raiseFault_ip (s : State) (w : Int) (t : Trap) : (raiseFault w t s).ip = s.ip := rfl
@[simp] theorem raiseFault_rb (s : State) (w : Int) (t : Trap) : (raiseFault w t s).rb = s.rb := rfl
@[simp] theorem raiseFault_runState (s : State) (w : Int) (t : Trap) : (raiseFault w t s).runState = .faulted := rfl
@[simp] theorem raiseFault_pend (s : State) (w : Int) (t : Trap) : (raiseFault w t s).pend = s.pend := rfl
@[simp] theorem raiseFault_inq (s : State) (w : Int) (t : Trap) : (raiseFault w t s).inq = s.inq := rfl
@[simp] theorem raiseFault_outq (s : State) (w : Int) (t : Trap) : (raiseFault w t s).outq = s.outq := rfl
@[simp] theorem raiseFault_faultCause (s : State) (w : Int) (t : Trap) : (raiseFault w t s).faultCause = t.cause := rfl
@[simp] theorem raiseFault_faultIp (s : State) (w : Int) (t : Trap) : (raiseFault w t s).faultIp = s.ip := rfl
@[simp] theorem raiseFault_faultWord (s : State) (w : Int) (t : Trap) : (raiseFault w t s).faultWord = w := rfl
@[simp] theorem raiseFault_faultInfo (s : State) (w : Int) (t : Trap) : (raiseFault w t s).faultInfo = t.info := rfl

/-! ### initial -/

@[simp] theorem State.initial_cfg (c : Config) (m : Memory) : (State.initial c m).cfg = c := rfl
@[simp] theorem State.initial_mem (c : Config) (m : Memory) : (State.initial c m).mem = m := rfl
@[simp] theorem State.initial_ip (c : Config) (m : Memory) : (State.initial c m).ip = 0 := rfl
@[simp] theorem State.initial_rb (c : Config) (m : Memory) : (State.initial c m).rb = 0 := rfl
@[simp] theorem State.initial_runState (c : Config) (m : Memory) : (State.initial c m).runState = .running := rfl
@[simp] theorem State.initial_pend (c : Config) (m : Memory) : (State.initial c m).pend = none := rfl
@[simp] theorem State.initial_inq (c : Config) (m : Memory) : (State.initial c m).inq = [] := rfl
@[simp] theorem State.initial_outq (c : Config) (m : Memory) : (State.initial c m).outq = [] := rfl
@[simp] theorem State.initial_faultCause (c : Config) (m : Memory) : (State.initial c m).faultCause = .none := rfl
@[simp] theorem State.initial_faultIp (c : Config) (m : Memory) : (State.initial c m).faultIp = 0 := rfl
@[simp] theorem State.initial_faultWord (c : Config) (m : Memory) : (State.initial c m).faultWord = 0 := rfl
@[simp] theorem State.initial_faultInfo (c : Config) (m : Memory) : (State.initial c m).faultInfo = 0 := rfl

end Sys2Proof.Machine
end

