-- ==== Sys2Proof/Laws/Memory.lean ====
section
/-! SUPPORT. Every memory operation keeps the canonical form of memory. -/

namespace Sys2Proof.Machine

@[simp] theorem wfFrom_nil (low : Nat) : Memory.wfFrom low [] = true := rfl

theorem wfFrom_cons {low a : Nat} {v : Int} {m : Memory} :
    Memory.wfFrom low ((a, v) :: m) = true ↔ low ≤ a ∧ v ≠ 0 ∧ Memory.wfFrom (a + 1) m = true := by
  simp [Memory.wfFrom, and_assoc]

/-- A memory whose addresses are at least `high` has addresses at least `low`. -/
theorem wfFrom_mono {low high : Nat} (h : low ≤ high) :
    ∀ {m : Memory}, Memory.wfFrom high m = true → Memory.wfFrom low m = true
  | [], _ => rfl
  | (a, v) :: m, hm => by
    rw [wfFrom_cons] at hm ⊢
    exact ⟨h.trans hm.1, hm.2⟩

theorem cons_wfFrom {low a : Nat} {v : Int} {m : Memory} (hl : low ≤ a)
    (hm : Memory.wfFrom (a + 1) m = true) : Memory.wfFrom low (Memory.cons a v m) = true := by
  unfold Memory.cons
  split
  · exact wfFrom_mono (by omega) hm
  · exact wfFrom_cons.2 ⟨hl, ‹_›, hm⟩

theorem write_wfFrom {a : Nat} {v : Int} :
    ∀ {m : Memory} {low : Nat}, low ≤ a → Memory.wfFrom low m = true →
      Memory.wfFrom low (Memory.write m a v) = true
  | [], _, hl, _ => cons_wfFrom hl rfl
  | (b, u) :: m, low, hl, hm => by
    have ⟨hlb, hu, hrest⟩ := wfFrom_cons.1 hm
    unfold Memory.write
    split
    · exact cons_wfFrom hl (wfFrom_cons.2 ⟨by omega, hu, hrest⟩)
    · split
      · subst a; exact cons_wfFrom hl hrest
      · exact wfFrom_cons.2 ⟨hlb, hu, write_wfFrom (by omega) hrest⟩

/-- `MemWrite` keeps the canonical form. -/
theorem write_wf {m : Memory} (hm : Memory.wf m = true) (a : Nat) (v : Int) :
    Memory.wf (Memory.write m a v) = true := write_wfFrom (Nat.zero_le a) hm

theorem place_wfFrom : ∀ (p : List Int) (a : Nat), Memory.wfFrom a (Memory.place a p) = true
  | [], _ => rfl
  | _ :: p, a => cons_wfFrom le_rfl (place_wfFrom p (a + 1))

/-- A loaded program is canonical. -/
theorem place_wf (p : List Int) : Memory.wf (Memory.place 0 p) = true := place_wfFrom p 0

/-- The words placed for a fetch keep the canonical form. -/
theorem storeWords_wf : ∀ (ws : List Int) {m : Memory} (a : Nat), Memory.wf m = true →
    Memory.wf (storeWords m a ws) = true
  | [], _, _, h => h
  | v :: ws, _, a, h => storeWords_wf ws (a + 1) (write_wf h a v)

/-- Reset's memory is canonical. -/
theorem reset_wf : Memory.wf State.reset.mem = true := rfl

end Sys2Proof.Machine
end

