-- ==== Sys2Proof/Laws/Ops.lean ====
section
/-! SUPPORT. One spec lemma per shared operation: when it succeeds and with what, so that callers cite it. -/

namespace Sys2Proof.Machine

/-! ### Sequences of checks -/

@[simp] theorem ok_bind {α β : Type} (x : α) (f : α → Except Trap β) : (Except.ok x >>= f) = f x := rfl

@[simp] theorem error_bind {α β : Type} (t : Trap) (f : α → Except Trap β) :
    ((Except.error t : Except Trap α) >>= f) = .error t := rfl

/-- A sequence succeeds exactly when its parts do. -/
theorem bind_ok_iff {α β : Type} {m : Except Trap α} {f : α → Except Trap β} {y : β} :
    (m >>= f) = .ok y ↔ ∃ x, m = .ok x ∧ f x = .ok y := by
  cases m <;> simp

/-! ### Checks -/

theorem requireFit_ok_iff {c : Config} {v : Int} {u : Unit} : requireFit c v = .ok u ↔ fit c v = true := by
  unfold requireFit; split <;> simp_all

theorem requireFit_of_fit {c : Config} {v : Int} (h : fit c v = true) : requireFit c v = .ok () := by
  simp [requireFit, h]

theorem cellExists_iff {c : Config} {a : Int} : cellExists c a = true ↔ 0 ≤ a ∧ belowTop c a = true := by
  simp [cellExists]

theorem checkAddress_ok_iff {c : Config} {a : Int} {n : Nat} :
    checkAddress c a = .ok n ↔ cellExists c a = true ∧ n = a.toNat := by
  rw [cellExists_iff, eq_comm (a := n)]
  unfold checkAddress
  split
  · simp only [reduceCtorEq, false_iff]; omega
  · split
    · simp only [Except.ok.injEq, and_iff_right (show 0 ≤ a ∧ belowTop c a = true from ⟨by omega, ‹_›⟩)]
    · simp_all

theorem checkAddress_of_exists {c : Config} {a : Int} (h : cellExists c a = true) :
    checkAddress c a = .ok a.toNat := checkAddress_ok_iff.2 ⟨h, rfl⟩

/-- A checked address is the natural number it was checked as. -/
theorem toNat_of_exists {c : Config} {a : Int} (h : cellExists c a = true) : (a.toNat : Int) = a :=
  Int.toNat_of_nonneg (cellExists_iff.1 h).1

/-! ### The memory port -/

theorem memRead_ok_iff {s : State} {a v : Int} :
    memRead s a = .ok v ↔ cellExists s.cfg a = true ∧ v = s.cell a := by
  simp only [memRead, bind_ok_iff, checkAddress_ok_iff, State.cell]
  constructor
  · rintro ⟨n, ⟨h, rfl⟩, hv⟩; exact ⟨h, (Except.ok.inj hv).symm⟩
  · rintro ⟨h, rfl⟩; exact ⟨_, ⟨h, rfl⟩, rfl⟩

theorem memWrite_ok_iff {s s' : State} {a v : Int} :
    memWrite s a v = .ok s' ↔ cellExists s.cfg a = true ∧ fit s.cfg v = true ∧
      s' = s.setMem (Memory.write s.mem a.toNat v) := by
  simp only [memWrite, bind_ok_iff, checkAddress_ok_iff, requireFit_ok_iff]
  constructor
  · rintro ⟨n, ⟨h, rfl⟩, -, hf, hs⟩; exact ⟨h, hf, (Except.ok.inj hs).symm⟩
  · rintro ⟨h, hf, rfl⟩; exact ⟨_, ⟨h, rfl⟩, (), hf, rfl⟩

/-! ### Operands -/

theorem effRead_ok_iff {s : State} {p : Param} {x : Int} : effRead s p = .ok x ↔ ReadsAs s p x := by
  cases p with | mk m v => cases m <;> simp [effRead, ReadsAs, operandAddress, memRead_ok_iff, eq_comm (a := v)]

theorem effAddr_ok_iff {s : State} {k n : Nat} {p : Param} :
    effAddr s k p = .ok n ↔ ∃ t, WritesTo s p t ∧ n = t.toNat := by
  cases p with | mk m v => cases m <;> simp [effAddr, WritesTo, operandAddress, checkAddress_ok_iff, and_assoc]

theorem evalRRW_ok_iff {s : State} {a b c : Param} {x y : Int} {n : Nat} :
    evalRRW s a b c = .ok (x, y, n) ↔
      ReadsAs s a x ∧ ReadsAs s b y ∧ ∃ t, WritesTo s c t ∧ n = t.toNat := by
  simp only [evalRRW, bind_ok_iff, effRead_ok_iff, effAddr_ok_iff]
  constructor
  · rintro ⟨x', hx, y', hy, n', ht, h⟩
    simp only [Except.ok.injEq, Prod.mk.injEq] at h
    obtain ⟨rfl, rfl, rfl⟩ := h
    exact ⟨hx, hy, ht⟩
  · rintro ⟨hx, hy, ht⟩; exact ⟨x, hx, y, hy, n, ht, rfl⟩

theorem evalRR_ok_iff {s : State} {a b : Param} {x y : Int} :
    evalRR s a b = .ok (x, y) ↔ ReadsAs s a x ∧ ReadsAs s b y := by
  simp only [evalRR, bind_ok_iff, effRead_ok_iff]
  constructor
  · rintro ⟨x', hx, y', hy, h⟩
    simp only [Except.ok.injEq, Prod.mk.injEq] at h
    obtain ⟨rfl, rfl⟩ := h
    exact ⟨hx, hy⟩
  · rintro ⟨hx, hy⟩; exact ⟨x, hx, y, hy, rfl⟩

/-! ### The ends of a step -/

/-- A store is checked before it is made, and advances `IP`. -/
theorem storeAndAdvance_ok_iff {s : State} {t : Nat} {v len : Int} {r : StepResult × State} :
    storeAndAdvance s t v len = .ok r ↔
      fit s.cfg (s.ip + len) = true ∧ belowTop s.cfg t = true ∧ fit s.cfg v = true ∧
        r = (.progressed, (s.setMem (Memory.write s.mem t v)).setIp (s.ip + len)) := by
  simp only [storeAndAdvance, bind_ok_iff, requireFit_ok_iff, memWrite_ok_iff, cellExists_iff]
  constructor
  · rintro ⟨-, hn, s1, ⟨ht, hv, rfl⟩, hr⟩; exact ⟨hn, ht.2, hv, (Except.ok.inj hr).symm⟩
  · rintro ⟨hn, ht, hv, rfl⟩; exact ⟨(), hn, _, ⟨⟨by simp, ht⟩, hv, rfl⟩, by simp⟩

/-- A step ends in the answer of its rule, or in the fault of the first check that failed, entered from the
state before the step. -/
theorem conclude_cases (w : Int) (s : State) (m : Except Trap (StepResult × State)) :
    (∃ r, m = .ok r ∧ conclude w s m = r) ∨
      (∃ t, m = .error t ∧ conclude w s m = (.faulted t.cause, raiseFault w t s)) := by
  cases m with
  | ok r => exact .inl ⟨r, rfl, rfl⟩
  | error t => exact .inr ⟨t, rfl, rfl⟩

theorem conclude_ok {w : Int} {s : State} {m : Except Trap (StepResult × State)} {r : StepResult × State}
    (h : m = .ok r) : conclude w s m = r := by subst h; rfl

/-! ### Fetching -/

theorem checkPc_ok_iff {s : State} {n : Nat} :
    checkPc s = .ok n ↔ cellExists s.cfg s.ip = true ∧ n = s.ip.toNat := by
  rw [cellExists_iff, eq_comm (a := n)]
  unfold checkPc
  split
  · simp only [reduceCtorEq, false_iff]; omega
  · split
    · simp only [Except.ok.injEq, and_iff_right (show 0 ≤ s.ip ∧ belowTop s.cfg s.ip = true from ⟨by omega, ‹_›⟩)]
    · simp_all

theorem fetchParam_ok_iff {s : State} {n k : Nat} {v : Int} :
    fetchParam s n k = .ok v ↔
      (k ≤ n → cellExists s.cfg (s.ip + k) = true ∧ v = s.cell (s.ip + k)) ∧ (n < k → v = 0) := by
  unfold fetchParam
  split
  · rw [memRead_ok_iff]; constructor
    · exact fun h => ⟨fun _ => h, fun _ => by omega⟩
    · exact fun h => h.1 ‹_›
  · constructor
    · intro h; exact ⟨fun _ => by omega, fun _ => (Except.ok.inj h).symm⟩
    · intro h; rw [h.2 (by omega)]

/-- What a fetch that gives an instruction has read (R102 to R104). -/
theorem fetch_instr_iff {s : State} {i : Instr} :
    fetch s = .instr i ↔ cellExists s.cfg s.ip = true ∧
      ∃ h, decodeWord (s.cell s.ip) = .ok h ∧ fetchParams s h = .ok i := by
  unfold fetch
  cases hp : checkPc s with
  | error t =>
    simp only [reduceCtorEq, false_iff, not_and]
    intro h; rw [checkPc_ok_iff.2 ⟨h, rfl⟩] at hp; cases hp
  | ok n =>
    obtain ⟨he, rfl⟩ := checkPc_ok_iff.1 hp
    simp only [fetchRest, he, true_and, State.cell]
    cases decodeWord (Memory.read s.mem s.ip.toNat) with
    | error t => simp
    | ok h => cases hf : fetchParams s h <;> simp [hf]

/-! ### The dispatch -/

/-- `exec` answers the next state of `runInstr`: no meaning stops. -/
theorem exec_eq_runInstr (i : Instr) (s : State) : exec i s = .next (runInstr i s).2 := by
  cases i <;> rfl

end Sys2Proof.Machine
end

