-- ==== Sys2Proof/Laws/Exec.lean ====
section
/-! SUPPORT. What each instruction can do, said once: when its rule succeeds and with what, and that every trap has
a cause. -/

namespace Sys2Proof.Machine

theorem runArith_ok_iff {f : Int → Int → Int} {s : State} {a b c : Param} {r : StepResult × State} :
    runArith f s a b c = .ok r ↔ ∃ x y t, ReadsAs s a x ∧ ReadsAs s b y ∧ WritesTo s c t ∧
      fit s.cfg (f x y) = true ∧ fit s.cfg (s.ip + 4) = true ∧
      r = (.progressed, (s.setMem (Memory.write s.mem t.toNat (f x y))).setIp (s.ip + 4)) := by
  simp only [runArith, bind_ok_iff, Prod.exists, evalRRW_ok_iff, requireFit_ok_iff, storeAndAdvance_ok_iff]
  constructor
  · rintro ⟨x, y, n, ⟨hx, hy, t, ht, rfl⟩, -, hf, hn, -, -, rfl⟩
    exact ⟨x, y, t, hx, hy, ht, hf, hn, rfl⟩
  · rintro ⟨x, y, t, hx, hy, ht, hf, hn, rfl⟩
    refine ⟨x, y, _, ⟨hx, hy, t, ht, rfl⟩, (), hf, hn, ?_, hf, rfl⟩
    rw [toNat_of_exists ht.2]; exact (cellExists_iff.1 ht.2).2

theorem runCompare_ok_iff {f : Int → Int → Int} {s : State} {a b c : Param} {r : StepResult × State} :
    runCompare f s a b c = .ok r ↔ ∃ x y t, ReadsAs s a x ∧ ReadsAs s b y ∧ WritesTo s c t ∧
      fit s.cfg (s.ip + 4) = true ∧ fit s.cfg (f x y) = true ∧
      r = (.progressed, (s.setMem (Memory.write s.mem t.toNat (f x y))).setIp (s.ip + 4)) := by
  simp only [runCompare, bind_ok_iff, Prod.exists, evalRRW_ok_iff, storeAndAdvance_ok_iff]
  constructor
  · rintro ⟨x, y, n, ⟨hx, hy, t, ht, rfl⟩, hn, -, hf, rfl⟩
    exact ⟨x, y, t, hx, hy, ht, hn, hf, rfl⟩
  · rintro ⟨x, y, t, hx, hy, ht, hn, hf, rfl⟩
    refine ⟨x, y, _, ⟨hx, hy, t, ht, rfl⟩, hn, ?_, hf, rfl⟩
    rw [toNat_of_exists ht.2]; exact (cellExists_iff.1 ht.2).2

theorem takeInput_ok_iff {s : State} {a : Param} {r : StepResult × State} :
    takeInput s a = .ok r ↔ ∃ t, WritesTo s a t ∧ fit s.cfg (s.ip + 2) = true ∧
      ((s.inq = [] ∧ r = (.suspended, s.suspend a)) ∨
        ∃ x rest, s.inq = x :: rest ∧ fit s.cfg x = true ∧
          r = (.progressed, ((s.setInq rest).setMem (Memory.write s.mem t.toNat x)).setIp (s.ip + 2))) := by
  simp only [takeInput, bind_ok_iff, effAddr_ok_iff, requireFit_ok_iff]
  constructor
  · rintro ⟨n, ⟨t, ht, rfl⟩, -, hn, h⟩
    refine ⟨t, ht, hn, ?_⟩
    cases hq : s.inq with
    | nil => simp only [hq, Except.ok.injEq] at h; exact .inl ⟨rfl, h.symm⟩
    | cons x rest =>
      simp only [hq, storeAndAdvance_ok_iff] at h
      exact .inr ⟨x, rest, rfl, h.2.2.1, h.2.2.2⟩
  · rintro ⟨t, ht, hn, h⟩
    refine ⟨_, ⟨t, ht, rfl⟩, (), hn, ?_⟩
    obtain ⟨hq, rfl⟩ | ⟨x, rest, hq, hf, rfl⟩ := h
    · simp only [hq]
    · simp only [hq, storeAndAdvance_ok_iff]
      refine ⟨hn, ?_, hf, rfl⟩
      rw [toNat_of_exists ht.2]; exact (cellExists_iff.1 ht.2).2

theorem putOutput_ok_iff {s : State} {a : Param} {r : StepResult × State} :
    putOutput s a = .ok r ↔ ∃ x, ReadsAs s a x ∧ fit s.cfg (s.ip + 2) = true ∧
      r = if queueFull s.cfg.outDepth s.outq then (.outputStall, s)
        else (.progressed, (s.pushOut x).setIp (s.ip + 2)) := by
  simp only [putOutput, bind_ok_iff, effRead_ok_iff, requireFit_ok_iff]
  constructor
  · rintro ⟨x, hx, -, hn, h⟩
    refine ⟨x, hx, hn, ?_⟩
    split at h <;> simp_all
  · rintro ⟨x, hx, hn, rfl⟩
    refine ⟨x, hx, (), hn, ?_⟩
    split <;> rfl

theorem jumpIf_ok_iff {test : Int → Bool} {s : State} {a b : Param} {r : StepResult × State} :
    jumpIf test s a b = .ok r ↔ ∃ x y, ReadsAs s a x ∧ ReadsAs s b y ∧
      fit s.cfg (if test x then y else s.ip + 3) = true ∧
      r = (.progressed, s.setIp (if test x then y else s.ip + 3)) := by
  simp only [jumpIf, bind_ok_iff, Prod.exists, evalRR_ok_iff, requireFit_ok_iff]
  constructor
  · rintro ⟨x, y, ⟨hx, hy⟩, -, hn, h⟩
    exact ⟨x, y, hx, hy, hn, (Except.ok.inj h).symm⟩
  · rintro ⟨x, y, hx, hy, hn, rfl⟩
    exact ⟨x, y, ⟨hx, hy⟩, (), hn, rfl⟩

theorem adjustBase_ok_iff {s : State} {a : Param} {r : StepResult × State} :
    adjustBase s a = .ok r ↔ ∃ x, ReadsAs s a x ∧ fit s.cfg (s.rb + x) = true ∧
      fit s.cfg (s.ip + 2) = true ∧ r = (.progressed, (s.setRb (s.rb + x)).setIp (s.ip + 2)) := by
  simp only [adjustBase, bind_ok_iff, effRead_ok_iff, requireFit_ok_iff]
  constructor
  · rintro ⟨x, hx, -, hb, -, hn, h⟩; exact ⟨x, hx, hb, hn, (Except.ok.inj h).symm⟩
  · rintro ⟨x, hx, hb, hn, rfl⟩; exact ⟨x, hx, (), hb, (), hn, rfl⟩

theorem completeInput_ok_iff {s : State} {p : Pending} {x : Int} {rest : List Int} {r : StepResult × State} :
    completeInput s p x rest = .ok r ↔ cellExists s.cfg (pendingAddress s p) = true ∧ fit s.cfg x = true ∧
      r = (.progressed,
        (((s.setInq rest).setMem (Memory.write s.mem (pendingAddress s p).toNat x)).setIp (s.ip + 2)).unsuspend) := by
  simp only [completeInput, bind_ok_iff, memWrite_ok_iff]
  constructor
  · rintro ⟨s1, ⟨ha, hf, rfl⟩, h⟩; exact ⟨ha, hf, (Except.ok.inj h).symm⟩
  · rintro ⟨ha, hf, rfl⟩; exact ⟨_, ⟨ha, hf, rfl⟩, rfl⟩

/-- The rule of an instruction, before its end: `runInstr` concludes it. -/
def ruleOf (i : Instr) (s : State) : Except Trap (StepResult × State) :=
  match i with
  | .add a b c => runArith (fun x y => x + y) s a b c
  | .mul a b c => runArith (fun x y => x * y) s a b c
  | .inp a     => takeInput s a
  | .out a     => putOutput s a
  | .jt a b    => jumpIf isNonZero s a b
  | .jf a b    => jumpIf isZero s a b
  | .lt a b c  => runCompare lessThanResult s a b c
  | .eq a b c  => runCompare equalsResult s a b c
  | .arb a     => adjustBase s a
  | .hlt       => .ok (.halted, s.halt)

theorem runInstr_eq_conclude (i : Instr) (s : State) : runInstr i s = conclude i.word s (ruleOf i s) := by
  cases i <;> rfl

/-- The trap of a failing check names a cause, and a failing sequence fails in one of its parts. -/
theorem bind_error_iff {α β : Type} {m : Except Trap α} {f : α → Except Trap β} {t : Trap} :
    (m >>= f) = .error t ↔ m = .error t ∨ ∃ x, m = .ok x ∧ f x = .error t := by
  cases m <;> simp

theorem checkAddress_error {c : Config} {a : Int} {t : Trap} (h : checkAddress c a = .error t) :
    t = addressTrap a ∧ cellExists c a = false := by
  unfold checkAddress at h
  unfold cellExists addressTrap
  split at h
  · cases h; simp_all
  · split at h
    · cases h
    · cases h; simp_all

theorem checkAddress_missing {c : Config} {a : Int} (h : cellExists c a = false) :
    checkAddress c a = .error (addressTrap a) := by
  cases hc : checkAddress c a with
  | ok n => rw [checkAddress_ok_iff] at hc; simp [h] at hc
  | error t => rw [(checkAddress_error hc).1]

theorem requireFit_error {c : Config} {v : Int} {t : Trap} (h : requireFit c v = .error t) :
    t = overflowTrap v ∧ fit c v = false := by
  unfold requireFit at h
  split at h <;> simp_all [overflowTrap]

theorem requireFit_unfit {c : Config} {v : Int} (h : fit c v = false) :
    requireFit c v = .error (overflowTrap v) := by
  simp [requireFit, h, overflowTrap]

/-! ### What a completing instruction does -/

/-- Everything an instruction can do when no check fails: its step result and next state, with what the checks
have established.  Invariants and frames are case analyses of this. -/
inductive Effect (s : State) : Instr → StepResult → State → Prop
  | store {i : Instr} {a b c : Param} {t v : Int}
      (hi : i ∈ [.add a b c, .mul a b c, .lt a b c, .eq a b c]) (ht : WritesTo s c t)
      (hv : fit s.cfg v = true) (hn : fit s.cfg (s.ip + 4) = true) :
      Effect s i .progressed ((s.setMem (Memory.write s.mem t.toNat v)).setIp (s.ip + 4))
  | input {a : Param} {t x : Int} {rest : List Int} (ht : WritesTo s a t) (hq : s.inq = x :: rest)
      (hx : fit s.cfg x = true) (hn : fit s.cfg (s.ip + 2) = true) :
      Effect s (.inp a) .progressed
        (((s.setInq rest).setMem (Memory.write s.mem t.toNat x)).setIp (s.ip + 2))
  | suspend {a : Param} {t : Int} (ht : WritesTo s a t) (hq : s.inq = []) (hn : fit s.cfg (s.ip + 2) = true) :
      Effect s (.inp a) .suspended (s.suspend a)
  | output {a : Param} {x : Int} (hx : ReadsAs s a x) (hq : queueFull s.cfg.outDepth s.outq = false)
      (hn : fit s.cfg (s.ip + 2) = true) :
      Effect s (.out a) .progressed ((s.pushOut x).setIp (s.ip + 2))
  | stall {a : Param} {x : Int} (hx : ReadsAs s a x) (hq : queueFull s.cfg.outDepth s.outq = true)
      (hn : fit s.cfg (s.ip + 2) = true) : Effect s (.out a) .outputStall s
  | jump {i : Instr} {a b : Param} {n : Int} (hi : i ∈ [.jt a b, .jf a b]) (hn : fit s.cfg n = true) :
      Effect s i .progressed (s.setIp n)
  | base {a : Param} {x : Int} (hx : ReadsAs s a x) (hb : fit s.cfg (s.rb + x) = true)
      (hn : fit s.cfg (s.ip + 2) = true) :
      Effect s (.arb a) .progressed ((s.setRb (s.rb + x)).setIp (s.ip + 2))
  | halt : Effect s .hlt .halted s.halt

/-- A rule that succeeds has one of those effects. -/
theorem effect_of_rule_ok {i : Instr} {s : State} {r : StepResult × State} (h : ruleOf i s = .ok r) :
    Effect s i r.1 r.2 := by
  cases i with
  | add a b c =>
    obtain ⟨x, y, t, hx, hy, ht, hv, hn, rfl⟩ := runArith_ok_iff.1 h
    exact .store (a := a) (b := b) (by simp) ht hv hn
  | mul a b c =>
    obtain ⟨x, y, t, hx, hy, ht, hv, hn, rfl⟩ := runArith_ok_iff.1 h
    exact .store (a := a) (b := b) (by simp) ht hv hn
  | inp a =>
    obtain ⟨t, ht, hn, ⟨hq, rfl⟩ | ⟨x, rest, hq, hx, rfl⟩⟩ := takeInput_ok_iff.1 h
    · exact .suspend ht hq hn
    · exact .input ht hq hx hn
  | out a =>
    obtain ⟨x, hx, hn, rfl⟩ := putOutput_ok_iff.1 h
    cases hq : queueFull s.cfg.outDepth s.outq with
    | true => exact .stall hx hq hn
    | false => exact .output hx hq hn
  | jt a b =>
    obtain ⟨x, y, hx, hy, hn, rfl⟩ := jumpIf_ok_iff.1 h
    exact .jump (a := a) (b := b) (by simp) hn
  | jf a b =>
    obtain ⟨x, y, hx, hy, hn, rfl⟩ := jumpIf_ok_iff.1 h
    exact .jump (a := a) (b := b) (by simp) hn
  | lt a b c =>
    obtain ⟨x, y, t, hx, hy, ht, hn, hv, rfl⟩ := runCompare_ok_iff.1 h
    exact .store (a := a) (b := b) (by simp) ht hv hn
  | eq a b c =>
    obtain ⟨x, y, t, hx, hy, ht, hn, hv, rfl⟩ := runCompare_ok_iff.1 h
    exact .store (a := a) (b := b) (by simp) ht hv hn
  | arb a =>
    obtain ⟨x, hx, hb, hn, rfl⟩ := adjustBase_ok_iff.1 h
    exact .base hx hb hn
  | hlt => cases h; exact .halt

/-! ### Every trap has a cause -/

/-- A check whose failures name a cause. -/
def NamesCause {α : Type} (m : Except Trap α) : Prop := ∀ t, m = .error t → t.cause ≠ .none

theorem namesCause_ok {α : Type} (x : α) : NamesCause (.ok x) := fun _ h => nomatch h

theorem namesCause_bind {α β : Type} {m : Except Trap α} {f : α → Except Trap β} (hm : NamesCause m)
    (hf : ∀ x, NamesCause (f x)) : NamesCause (m >>= f) := by
  intro t ht
  obtain h | ⟨x, -, h⟩ := bind_error_iff.1 ht
  · exact hm t h
  · exact hf x t h

theorem namesCause_requireFit (c : Config) (v : Int) : NamesCause (requireFit c v) := by
  intro t h; rw [(requireFit_error h).1]; simp [overflowTrap]

theorem namesCause_checkAddress (c : Config) (a : Int) : NamesCause (checkAddress c a) := by
  intro t h; rw [(checkAddress_error h).1]; unfold addressTrap; split <;> simp

theorem namesCause_memRead (s : State) (a : Int) : NamesCause (memRead s a) :=
  namesCause_bind (namesCause_checkAddress _ _) fun _ => namesCause_ok _

theorem namesCause_memWrite (s : State) (a v : Int) : NamesCause (memWrite s a v) :=
  namesCause_bind (namesCause_checkAddress _ _) fun _ =>
    namesCause_bind (namesCause_requireFit _ _) fun _ => namesCause_ok _

theorem namesCause_effRead (s : State) (p : Param) : NamesCause (effRead s p) := by
  unfold effRead
  split
  · exact namesCause_memRead _ _
  · exact namesCause_ok _
  · exact namesCause_memRead _ _

theorem namesCause_effAddr (s : State) (k : Nat) (p : Param) : NamesCause (effAddr s k p) := by
  unfold effAddr
  split
  · exact namesCause_checkAddress _ _
  · intro t h; cases h; simp
  · exact namesCause_checkAddress _ _

theorem namesCause_storeAndAdvance (s : State) (t : Nat) (v len : Int) :
    NamesCause (storeAndAdvance s t v len) :=
  namesCause_bind (namesCause_requireFit _ _) fun _ =>
    namesCause_bind (namesCause_memWrite _ _ _) fun _ => namesCause_ok _

theorem namesCause_evalRRW (s : State) (a b c : Param) : NamesCause (evalRRW s a b c) :=
  namesCause_bind (namesCause_effRead _ _) fun _ => namesCause_bind (namesCause_effRead _ _) fun _ =>
    namesCause_bind (namesCause_effAddr _ _ _) fun _ => namesCause_ok _

theorem namesCause_evalRR (s : State) (a b : Param) : NamesCause (evalRR s a b) :=
  namesCause_bind (namesCause_effRead _ _) fun _ =>
    namesCause_bind (namesCause_effRead _ _) fun _ => namesCause_ok _

theorem namesCause_ruleOf (i : Instr) (s : State) : NamesCause (ruleOf i s) := by
  have arith : ∀ f a b c, NamesCause (runArith f s a b c) := fun f a b c =>
    namesCause_bind (namesCause_evalRRW _ _ _ _) fun _ =>
      namesCause_bind (namesCause_requireFit _ _) fun _ => namesCause_storeAndAdvance _ _ _ _
  have compare : ∀ f a b c, NamesCause (runCompare f s a b c) := fun f a b c =>
    namesCause_bind (namesCause_evalRRW _ _ _ _) fun _ => namesCause_storeAndAdvance _ _ _ _
  have jump : ∀ f a b, NamesCause (jumpIf f s a b) := fun f a b =>
    namesCause_bind (namesCause_evalRR _ _ _) fun _ =>
      namesCause_bind (namesCause_requireFit _ _) fun _ => namesCause_ok _
  cases i with
  | add a b c => exact arith _ a b c
  | mul a b c => exact arith _ a b c
  | inp a =>
    refine namesCause_bind (namesCause_effAddr _ _ _) fun _ =>
      namesCause_bind (namesCause_requireFit _ _) fun _ => ?_
    split
    · exact namesCause_ok _
    · exact namesCause_storeAndAdvance _ _ _ _
  | out a =>
    refine namesCause_bind (namesCause_effRead _ _) fun _ =>
      namesCause_bind (namesCause_requireFit _ _) fun _ => ?_
    split <;> exact namesCause_ok _
  | jt a b => exact jump _ a b
  | jf a b => exact jump _ a b
  | lt a b c => exact compare _ a b c
  | eq a b c => exact compare _ a b c
  | arb a =>
    exact namesCause_bind (namesCause_effRead _ _) fun _ =>
      namesCause_bind (namesCause_requireFit _ _) fun _ =>
        namesCause_bind (namesCause_requireFit _ _) fun _ => namesCause_ok _
  | hlt => exact namesCause_ok _

/-- What an instruction can do: one of its effects, or the fault of a check that names a cause. -/
theorem runInstr_cases (i : Instr) (s : State) :
    Effect s i (runInstr i s).1 (runInstr i s).2 ∨
      ∃ t : Trap, t.cause ≠ .none ∧ runInstr i s = (.faulted t.cause, raiseFault i.word t s) := by
  rw [runInstr_eq_conclude]
  obtain ⟨r, hr, hc⟩ | ⟨t, ht, hc⟩ := conclude_cases i.word s (ruleOf i s)
  · rw [hc]; exact .inl (effect_of_rule_ok hr)
  · exact .inr ⟨t, namesCause_ruleOf i s t ht, hc⟩

/-! ### What a resumption does -/

/-- A resumption with an input and a latch completes the write, or raises the fault of a check. -/
theorem resume_cases {s : State} {p : Pending} {x : Int} {rest : List Int} (hq : s.inq = x :: rest)
    (hp : s.pend = some p) :
    (cellExists s.cfg (pendingAddress s p) = true ∧ fit s.cfg x = true ∧
      resume s = .next (.progressed,
        (((s.setInq rest).setMem (Memory.write s.mem (pendingAddress s p).toNat x)).setIp (s.ip + 2)).unsuspend)) ∨
      ∃ t : Trap, t.cause ≠ .none ∧ resume s = .next (.faulted t.cause, raiseFault 0 t s) := by
  have hr : resume s = .next (conclude 0 s (completeInput s p x rest)) := by simp [resume, hq, hp]
  rw [hr]
  obtain ⟨r, h, hc⟩ | ⟨t, h, hc⟩ := conclude_cases 0 s (completeInput s p x rest)
  · obtain ⟨ha, hx, rfl⟩ := completeInput_ok_iff.1 h
    exact .inl ⟨ha, hx, by rw [hc]⟩
  · refine .inr ⟨t, ?_, by rw [hc]⟩
    exact namesCause_bind (namesCause_memWrite _ _ _) (fun _ => namesCause_ok _) t h

end Sys2Proof.Machine
end

