-- ==== Sys2Proof/Laws/HostPort.lean ====
section
/-! SUPPORT. What a schedule of the host can do once a run has ended, and hangs (R202). -/

namespace Sys2Proof.Machine

/-- A run has ended, well or not. -/
abbrev Ended (s : State) : Prop := Succeeded s ∨ Failed s

@[simp] theorem hostDo_step_of_next {s : State} {r : StepResult × State} (h : hostStep s = .next r) :
    hostDo .step s = (.stepped r.1, r.2) := by
  simp [hostDo, h]

/-- No operation but LOAD leaves HALTED or FAULTED (R26, R233). -/
theorem hostDo_ended {op : HostOp} {s : State} (hl : ∀ p, op ≠ .load p) (h : Ended s) :
    (hostDo op s).2.runState = s.runState := by
  cases op with
  | load p => exact absurd rfl (hl p)
  | feed v => simp only [hostDo, feed]; split <;> [split; skip] <;> rfl
  | pop => simp only [hostDo, pop]; split <;> rfl
  | step => obtain h | h := h <;> simp only [hostDo, hostStep, h]
  | status => rfl

/-- Nor does a schedule without LOAD. -/
theorem hostRun_ended {ops : List HostOp} : ∀ {s : State}, (∀ p, HostOp.load p ∉ ops) → Ended s →
    (hostRun ops s).2.runState = s.runState := by
  induction ops with
  | nil => exact fun _ _ => rfl
  | cons op ops ih =>
    intro s hl h
    simp only [List.mem_cons, not_or, ne_comm] at hl
    have h1 : (hostDo op s).2.runState = s.runState := hostDo_ended (fun p => (hl p).1) h
    have h2 : Ended (hostDo op s).2 := by rw [Ended, Succeeded, Failed, h1]; exact h
    exact (ih (fun p => (hl p).2) h2).trans h1

theorem load_notMem_schedulePrefix {sched : Nat → HostOp} (h : ∀ n p, sched n ≠ .load p) (n : Nat) (p : List Int) :
    HostOp.load p ∉ schedulePrefix sched n := by
  simp [schedulePrefix, h]

/-- A core that hangs has not ended: the outcomes of R202 exclude each other. -/
theorem hangs_not_ended {sched : Nat → HostOp} {s : State} (h : Hangs sched s) : ¬ Ended s := by
  intro he
  obtain ⟨k, -, hk⟩ := h.2 0
  have hr : (stateBefore sched s k).runState = s.runState := hostRun_ended (load_notMem_schedulePrefix h.1 k) he
  cases ho : sched k <;> rw [ho] at hk <;> simp only [hostDo, reduceCtorEq] at hk
  obtain he | he := he <;> simp [hostStep, hr.trans he] at hk

/-- A step that progresses to the same state hangs the core, if the host does nothing but step. -/
theorem hangs_of_selfLoop {s : State} (h : hostStep s = .next (.progressed, s)) : Hangs (fun _ => .step) s := by
  have hs : ∀ n, stateBefore (fun _ => .step) s n = s := by
    intro n
    rw [stateBefore, schedulePrefix, List.map_const', List.length_range]
    induction n with
    | zero => rfl
    | succ n ih => rw [List.replicate_succ, hostRun, hostDo_step_of_next h]; exact ih
  exact ⟨fun _ _ => by simp, fun n => ⟨n, le_rfl, by rw [hs, hostDo_step_of_next h]⟩⟩

end Sys2Proof.Machine
end

