-- ==== Sys2Proof/Laws/PerInstr.lean ====
section
/-! SUPPORT. Laws stated once for every instruction, one lemma per constructor. -/

namespace Sys2Proof.Laws.EncodeLength

/-- R70, R73: the encoding has as many words as the instruction is long, one more than its parameters, and at
most four. -/
def Statement (i : Instr) : Prop :=
  (encode i).length = i.length ∧ i.length = i.params.length + 1 ∧ i.raws = i.params.map Param.raw
    ∧ i.length ≤ 4

theorem add (a b c : Param) : Statement (.add a b c) := ⟨rfl, rfl, rfl, Nat.le_of_ble_eq_true rfl⟩
theorem mul (a b c : Param) : Statement (.mul a b c) := ⟨rfl, rfl, rfl, Nat.le_of_ble_eq_true rfl⟩
theorem inp (a : Param) : Statement (.inp a) := ⟨rfl, rfl, rfl, Nat.le_of_ble_eq_true rfl⟩
theorem out (a : Param) : Statement (.out a) := ⟨rfl, rfl, rfl, Nat.le_of_ble_eq_true rfl⟩
theorem jt (a b : Param) : Statement (.jt a b) := ⟨rfl, rfl, rfl, Nat.le_of_ble_eq_true rfl⟩
theorem jf (a b : Param) : Statement (.jf a b) := ⟨rfl, rfl, rfl, Nat.le_of_ble_eq_true rfl⟩
theorem lt (a b c : Param) : Statement (.lt a b c) := ⟨rfl, rfl, rfl, Nat.le_of_ble_eq_true rfl⟩
theorem eq (a b c : Param) : Statement (.eq a b c) := ⟨rfl, rfl, rfl, Nat.le_of_ble_eq_true rfl⟩
theorem arb (a : Param) : Statement (.arb a) := ⟨rfl, rfl, rfl, Nat.le_of_ble_eq_true rfl⟩
theorem hlt : Statement .hlt := ⟨rfl, rfl, rfl, Nat.le_of_ble_eq_true rfl⟩

end Sys2Proof.Laws.EncodeLength
end

