-- ==== Sys2Proof/Laws/Step.lean ====
section
/-! SUPPORT. What a step can do, said once: a fetch that fails names a cause, and a step runs the fetched
instruction or enters a fault. -/

namespace Sys2Proof.Machine

theorem namesCause_mode (n k : Nat) : NamesCause (readMode n k) ∧ NamesCause (writeMode n k) := by
  constructor
  · intro t h; unfold readMode at h; split at h <;> cases h; simp
  · intro t h; unfold writeMode at h; split at h <;> cases h; simp

theorem namesCause_checkExcess (n k : Nat) : NamesCause (checkExcess n k) := by
  intro t h; unfold checkExcess at h; split at h <;> cases h; simp

theorem namesCause_decodeWord (w : Int) : NamesCause (decodeWord w) := by
  have rd := fun n k => (namesCause_mode n k).1
  have wr := fun n k => (namesCause_mode n k).2
  have ex := namesCause_checkExcess
  have rrw : ∀ mk n, NamesCause (headRRW mk n) := fun mk n =>
    namesCause_bind (rd _ _) fun _ => namesCause_bind (rd _ _) fun _ => namesCause_bind (wr _ _) fun _ =>
      namesCause_bind (ex _ _) fun _ => namesCause_ok _
  have rr : ∀ mk n, NamesCause (headRR mk n) := fun mk n =>
    namesCause_bind (rd _ _) fun _ => namesCause_bind (rd _ _) fun _ =>
      namesCause_bind (ex _ _) fun _ => namesCause_ok _
  have r : ∀ mk n, NamesCause (headR mk n) := fun mk n =>
    namesCause_bind (rd _ _) fun _ => namesCause_bind (ex _ _) fun _ => namesCause_ok _
  have wm : ∀ mk n, NamesCause (headW mk n) := fun mk n =>
    namesCause_bind (wr _ _) fun _ => namesCause_bind (ex _ _) fun _ => namesCause_ok _
  have no : ∀ mk n, NamesCause (headNone mk n) := fun mk n =>
    namesCause_bind (ex _ _) fun _ => namesCause_ok _
  unfold decodeWord
  split
  · intro t h; cases h; simp
  · unfold decodeNat
    split
    · exact rrw _ _
    · exact rrw _ _
    · exact wm _ _
    · exact r _ _
    · exact rr _ _
    · exact rr _ _
    · exact rrw _ _
    · exact rrw _ _
    · exact r _ _
    · exact no _ _
    · intro t h; cases h; simp

theorem namesCause_fetchParams (s : State) (h : Head) : NamesCause (fetchParams s h) := by
  have p : ∀ n k, NamesCause (fetchParam s n k) := by
    intro n k; unfold fetchParam; split
    · exact namesCause_memRead _ _
    · exact namesCause_ok _
  exact namesCause_bind (p _ _) fun _ => namesCause_bind (p _ _) fun _ =>
    namesCause_bind (p _ _) fun _ => namesCause_ok _

theorem checkPc_error {s : State} {t : Trap} (h : checkPc s = .error t) :
    t = { cause := .invalidPc, info := s.ip } ∧ cellExists s.cfg s.ip = false := by
  unfold checkPc at h
  unfold cellExists
  split at h
  · cases h; simp_all
  · split at h
    · cases h
    · cases h; simp_all

/-- A fetch that fails: INVALID_PC with no word fetched, or a fault with the word at `IP`. -/
theorem fetch_trap_cases {s : State} {w : Int} {t : Trap} (h : fetch s = .trap w t) :
    t.cause ≠ .none ∧
      ((w = 0 ∧ t = { cause := .invalidPc, info := s.ip } ∧ cellExists s.cfg s.ip = false) ∨
        (w = s.cell s.ip ∧ cellExists s.cfg s.ip = true)) := by
  unfold fetch at h
  cases hp : checkPc s with
  | error t' =>
    rw [hp] at h; cases h
    obtain ⟨rfl, he⟩ := checkPc_error hp
    exact ⟨by simp, .inl ⟨rfl, rfl, he⟩⟩
  | ok n =>
    obtain ⟨he, rfl⟩ := checkPc_ok_iff.1 hp
    rw [hp] at h
    simp only [fetchRest] at h
    cases hd : decodeWord (Memory.read s.mem s.ip.toNat) with
    | error t' =>
      rw [hd] at h; cases h
      exact ⟨namesCause_decodeWord _ _ hd, .inr ⟨rfl, he⟩⟩
    | ok hh =>
      cases hf : fetchParams s hh with
      | error t' =>
        simp only [hd, hf] at h; cases h
        exact ⟨namesCause_fetchParams _ _ _ hf, .inr ⟨rfl, he⟩⟩
      | ok i => simp only [hd, hf] at h; cases h

/-- A running core runs the fetched instruction, or enters the fault of its fetch. -/
theorem execute_cases (s : State) :
    (∃ i, fetch s = .instr i ∧ execute s = runInstr i s) ∨
      ∃ (w : Int) (t : Trap), fetch s = .trap w t ∧ t.cause ≠ .none ∧
        execute s = (.faulted t.cause, raiseFault w t s) := by
  unfold execute
  cases hf : fetch s with
  | instr i => exact .inl ⟨i, rfl, rfl⟩
  | trap w t => exact .inr ⟨w, t, rfl, (fetch_trap_cases hf).1, rfl⟩

end Sys2Proof.Machine
end

