-- ==== Sys2Proof/Tests/Slice0.lean ====
section
/-! SUPPORT. Tests of the model against the spec's test vectors (95_test_vectors.md; the vector is named beside each),
and for every obligation with hypotheses a witness that meets them together. -/

namespace Sys2Proof.Tests

open Sys2Proof Sys2Proof.Machine

/-- The state after LOAD in configuration `c`. -/
def loaded (c : Config) (p : List Int) : State := State.initial c (Memory.place 0 p)

/-- The state after LOAD in the reference configuration. -/
def prog (p : List Int) : State := loaded Config.reference p

/-- The next state. -/
def after (s : State) : State := match step s with | .next t => t | _ => s

/-- The fault record (R30). -/
def record (s : State) : FaultCause × Int × Int × Int := (s.faultCause, s.faultIp, s.faultWord, s.faultInfo)

/-- Finite configurations: words of 12 bits, a small memory, queues of one entry. -/
def bits12 : Config := { Config.reference with wordBits := some 12 }
def cells4 : Config := { Config.reference with memWords := some 4 }
def depth1 : Config := { Config.reference with inDepth := some 1, outDepth := some 1 }

/-! ### WellFormed refuses an immediate destination (R81) -/

theorem test_wellFormed_refuses_immediate_add :
    (Instr.add ⟨.position, 0⟩ ⟨.position, 0⟩ ⟨.immediate, 0⟩).wellFormed = false := by decide
theorem test_wellFormed_refuses_immediate_mul :
    (Instr.mul ⟨.position, 0⟩ ⟨.position, 0⟩ ⟨.immediate, 0⟩).wellFormed = false := by decide
theorem test_wellFormed_refuses_immediate_in : (Instr.inp ⟨.immediate, 5⟩).wellFormed = false := by decide
theorem test_wellFormed_refuses_immediate_lt :
    (Instr.lt ⟨.position, 0⟩ ⟨.position, 0⟩ ⟨.immediate, 0⟩).wellFormed = false := by decide
theorem test_wellFormed_refuses_immediate_eq :
    (Instr.eq ⟨.position, 0⟩ ⟨.position, 0⟩ ⟨.immediate, 0⟩).wellFormed = false := by decide
theorem test_config_refuses_one_bit_words :
    ({ Config.reference with wordBits := some 1 } : Config).wf = false := by decide

/-! ### Decoding (V-DEC and the programs of L3), one word for each instruction -/

theorem test_decode_add : decodeWord 21101 = .ok (.add .immediate .immediate .relative) := by decide
theorem test_decode_mul : decodeWord 1002 = .ok (.mul .position .immediate .position) := by decide
theorem test_decode_in : decodeWord 203 = .ok (.inp .relative) := by decide
theorem test_decode_out : decodeWord 104 = .ok (.out .immediate) := by decide
theorem test_decode_jt : decodeWord 2205 = .ok (.jt .relative .relative) := by decide
theorem test_decode_jf : decodeWord 1006 = .ok (.jf .position .immediate) := by decide
theorem test_decode_lt : decodeWord 22207 = .ok (.lt .relative .relative .relative) := by decide
theorem test_decode_eq : decodeWord 1008 = .ok (.eq .position .immediate .position) := by decide
theorem test_decode_arb : decodeWord 209 = .ok (.arb .relative) := by decide
theorem test_decode_hlt : decodeWord 99 = .ok .hlt := by decide

theorem test_decode_unset : decodeWord 0 = .error ⟨.invalidOpcode, 0⟩ := by decide
theorem test_decode_opcode_first : decodeWord 100 = .error ⟨.invalidOpcode, 0⟩ := by decide
theorem test_decode_immediate_destination : decodeWord 12207 = .error ⟨.illegalMode, 3⟩ := by decide
theorem test_decode_mode_three : decodeWord 3001 = .error ⟨.illegalMode, 2⟩ := by decide
theorem test_decode_excess_halt : decodeWord 1099 = .error ⟨.excessModeDigits, 10⟩ := by decide
theorem test_decode_excess_in : decodeWord 2203 = .error ⟨.excessModeDigits, 22⟩ := by decide
theorem test_decode_negative : decodeWord (-99) = .error ⟨.negativeWord, 0⟩ := by decide
theorem test_decode_truncated : decode [1, 2, 3] = .error .truncated := by decide

/-- The word of a table row, its parameter cells 0 (opcode_table.json, row `mul`). -/
theorem test_table_word : decodeTableWord 8 2 =
    some (.mul ⟨.position, 0⟩ ⟨.position, 0⟩ ⟨.position, 0⟩) := by decide
/-- `hlt` as the first instruction after reset (E1). -/
theorem test_withFetchWord : (after (State.reset.withFetchWord 8 99)).runState = .halted := by decide
/-- `arb [0]` as the first instruction after reset: it reads its own word (R170). -/
theorem test_withFetchWord_arb : (after (State.reset.withFetchWord 8 9)).rb = 9 := by decide

/-! ### One step of each instruction -/

/-- A5. -/
theorem test_add : Memory.read (after (prog [1101, 100, -1, 4, 0])).mem 4 = 99 := by decide
/-- A10: both operands are read before the result is written. -/
theorem test_add_reads_first : Memory.read (after (prog [1, 5, 5, 5, 99, 7])).mem 5 = 14 := by decide
/-- E4: no overflow. -/
theorem test_mul : Memory.read (after (prog [1102, 34915192, 34915192, 7, 4, 7, 99, 0])).mem 7
    = 1219070632396864 := by decide
/-- A7. -/
theorem test_mul_negative : Memory.read (after (prog [1102, -4, -5, 5, 99, 0])).mem 5 = 20 := by decide
/-- V-IO-1: the suspension. -/
theorem test_in_suspends : ((after (prog [3, 0, 4, 0, 99])).runState, (after (prog [3, 0, 4, 0, 99])).pend)
    = (.awaitingInput, some ⟨.position, 0⟩) := by decide
/-- V-IO-2: the resumption writes `RB` - 3. -/
theorem test_in_resumes : Memory.read (after (feed 6 (after (after (prog [109, 10, 203, -3, 99])))).2).mem 7 = 6 := by
  decide
/-- IO5. -/
theorem test_out : (after (after (prog [109, 6, 204, -1, 99, 42]))).outq = [42] := by decide
/-- V-FIN: a full output queue stalls. -/
theorem test_out_stalls : (execute (after (loaded depth1 [104, 1, 104, 2, 99]))).1 = .outputStall := by decide
/-- J4: -1 is not zero. -/
theorem test_jt : (after (prog [1105, -1, 4, 99, 104, 1, 99])).ip = 4 := by decide
/-- J11: the target is read from cell 8. -/
theorem test_jt_position : (after (prog [5, 7, 8, 104, 0, 99, 0, 1, 9, 104, 1, 99])).ip = 9 := by decide
/-- J3: not taken. -/
theorem test_jf : (after (prog [1106, 5, 7, 104, 0, 99, 0, 104, 1, 99])).ip = 3 := by decide
/-- J2: taken. -/
theorem test_jf_taken : (after (prog [1106, 0, 7, 104, 0, 99, 0, 104, 1, 99])).ip = 7 := by decide
/-- C1: signed. -/
theorem test_lt : Memory.read (after (prog [1107, -1, 0, 5, 99, 0])).mem 5 = 1 := by decide
/-- C3: the operands in their order. -/
theorem test_lt_order : Memory.read (after (prog [1107, 5, -5, 5, 99, 7])).mem 5 = 0 := by decide
/-- C6. -/
theorem test_eq : Memory.read (after (prog [1108, -7, -7, 5, 99, 0])).mem 5 = 1 := by decide
/-- C8: it overwrites its own word. -/
theorem test_eq_own_word : Memory.read (after (prog [8, 0, 0, 0, 99])).mem 0 = 1 := by decide
/-- B3. -/
theorem test_arb : ((after (prog [209, 3, 99, 7])).rb, (after (prog [209, 3, 99, 7])).ip) = (7, 2) := by decide
/-- B1: a negative `RB` is legal. -/
theorem test_arb_negative : (after (after (prog [109, 5, 109, -7, 99]))).rb = -2 := by decide
/-- H1: `IP` stays. -/
theorem test_hlt : ((after (prog [99])).runState, (after (prog [99])).ip) = (.halted, 0) := by decide

/-! ### Faults (V-FLT, V-FIN, priorities) -/

theorem test_fault_opcode : record (after (prog [100])) = (.invalidOpcode, 0, 100, 0) := by decide
theorem test_fault_pc : record (after (after (prog [1105, 1, -3]))) = (.invalidPc, -3, 0, -3) := by decide
theorem test_fault_pc_range : record (after (after (loaded cells4 [1105, 1, 4, 99]))) = (.invalidPc, 4, 0, 4) := by
  decide
theorem test_fault_negative_address_in : record (after (prog [3, -1, 99])) = (.negativeAddress, 0, 3, -1) := by
  decide
theorem test_fault_parameter_cell : record (after (loaded { cells4 with memWords := some 3 } [1101, 1, 1]))
    = (.addressRange, 0, 1101, 3) := by decide
theorem test_fault_destination : record (after (loaded cells4 [1101, 1, 1, 9])) = (.addressRange, 0, 1101, 9) := by
  decide
theorem test_fault_overflow : record (after (loaded bits12 [1101, 1000, 1048, 5, 99, 0]))
    = (.overflow, 0, 1101, 2048) := by decide
theorem test_largest_word : Memory.read (after (loaded bits12 [1101, 1000, 1047, 5, 99, 0])).mem 5 = 2047 := by
  decide
theorem test_priority_address_before_fit : record (after (loaded bits12 [1101, 2000, 2000, -1, 99]))
    = (.negativeAddress, 0, 1101, -1) := by decide
theorem test_priority_parameter_one : record (after (prog [1, -1, -2, -3, 99])) = (.negativeAddress, 0, 1, -1) := by
  decide

/-! ### The host (V-HOST, V-FIN), program text and assembly (R88, R89, R252) -/

theorem test_load_refusals : ((load [2048] State.reset).1, (load [2048] (loaded bits12 [])).1,
    (load [2047, -2048] (loaded bits12 [])).1, (load [1, 1, 1, 1, 9] (loaded cells4 [])).1)
    = (.accepted, .refused .notAWord, .accepted, .refused .tooLong) := by decide
/-- STATUS of a faulted core (R25, R221, V-FLT). -/
theorem test_status : ((status (after (prog [-1]))).state, (status (after (prog [-1]))).faultCause) = (3, 5) := by decide
/-- J8: `jt 1, 0` jumps to itself for ever, a hang (R202). -/
theorem test_hang : Hangs (fun _ => .step) (prog [1105, 1, 0]) := hangs_of_selfLoop rfl
/-- D4: P1 with one input only. -/
theorem test_run_starved :
    (runToCompletion 9 [5] (prog [3, 20, 3, 21, 1, 20, 21, 22, 4, 22, 99])).1 = ([], .starved) := by decide
/-- D6: outputs before the fault are kept. -/
theorem test_run_faulted : (runToCompletion 9 [] (prog [104, 1, 104, 2, 1105, 1, -1])).1
    = ([1, 2], .faulted .invalidPc (-1) 0 (-1)) := by decide
theorem test_run_depth_one : (runToCompletion 9 [1, 2] (loaded depth1 [3, 10, 3, 11, 4, 10, 4, 11, 99])).1
    = ([1, 2], .completed) := by decide
theorem test_program_text : readProgram " 109,-1,204\n".toList = some [109, -1, 204] := by decide
theorem test_program_text_refuses_plus : readProgram "1,+2".toList = none := by decide
/-- R88's example. -/
theorem test_assemble : assembleText "mul [4], 3, [4]".toList = some [1002, 4, 3, 4] := by decide
/-- P2's loop: the label is the address of the word after it. -/
theorem test_assemble_label : assembleText "in  [100]\nloop:\nout [100]\njt [100], loop".toList
    = some [3, 100, 4, 100, 1005, 100, 2] := by decide
/-- Labels and blanks inside brackets (assumption 12). -/
theorem test_assemble_brackets : (assembleText "x: out [ x ]\nout [rb+ x]\nout [rb- 4 ]\n.word x".toList,
    assembleText "x: out [rb-x]".toList, assembleText "out [rb +4]".toList)
    = (some [4, 0, 204, 0, 204, -4, 0], none, none) := by decide
/-- Blanks in front of a statement and beside a label's colon (assumption 12). -/
theorem test_assemble_line_blanks : assembleText "  hlt \n x : jmp x\n".toList = some [99, 1105, 1, 1] := by decide
theorem test_assemble_refuses_immediate : assembleText "add 1, 2, 3".toList = none := by decide
theorem test_print : printInstr (.out ⟨.relative, -1⟩) = "out [rb-1]".toList := by decide

/-! ### Witnesses: concrete inputs that meet the hypotheses of an obligation, clause by clause -/

/-- A state of configuration `c` at `ip`, with `RB` 2 and 7 in cell 0. -/
def at_ (c : Config) (ip : Int) : State := { State.initial c [(0, 7)] with ip := ip, rb := 2 }

/-- In `at_`: `[0]` reads 7, `5` reads 5, `[rb+1]` names cell 3. -/
theorem witness_operands (c : Config) (ip : Int) (h : c = Config.reference ∨ c = bits12 ∨ c = cells4 ∨ c = depth1) :
    ReadsAs (at_ c ip) ⟨.position, 0⟩ 7 ∧ ReadsAs (at_ c ip) ⟨.immediate, 5⟩ 5
      ∧ WritesTo (at_ c ip) ⟨.relative, 1⟩ 3 ∧ c.wf = true := by
  obtain rfl | rfl | rfl | rfl := h <;> exact ⟨⟨rfl, rfl⟩, rfl, ⟨rfl, rfl⟩, rfl⟩

theorem witness_DecodeOfEncode :
    (Instr.add ⟨.position, 4⟩ ⟨.immediate, -3⟩ ⟨.relative, 4⟩).wellFormed = true := by decide
theorem witness_EncodeOfDecode : decode [1002, 4, 3, 4, 33]
    = .ok (.mul ⟨.position, 4⟩ ⟨.immediate, 3⟩ ⟨.position, 4⟩, [33]) := by decide
theorem witness_DecodeRefusesWordsWithoutOpcode :
    (-1 : Int) < 0 ∧ (∀ k, (0 % 100, k) ∉ opcodeParams) ∧ (∀ k, (198 % 100, k) ∉ opcodeParams) := by
  simp [opcodeParams]
theorem witness_DecodeRefusesIllegalModeDigits :
    ((301 % 100, 3) ∈ opcodeParams ∧ illegalDigit 301 1 = true) ∧
    ((11101 % 100, 3) ∈ opcodeParams ∧ illegalDigit 11101 3 = true ∧
      ∀ j, 1 ≤ j → j < 3 → illegalDigit 11101 j = false) := by
  refine ⟨by decide, by decide, by decide, ?_⟩
  intro j h1 h3; interval_cases j <;> decide
theorem witness_DecodeRefusesExcessDigits :
    ((199 % 100, 0) ∈ opcodeParams ∧ 199 / 10 ^ (0 + 2) ≠ 0) ∧
    ((10003 % 100, 1) ∈ opcodeParams ∧ illegalDigit 10003 1 = false ∧ 10003 / 10 ^ (1 + 2) ≠ 0) := by decide

/-- Cells 3 and 4 of a memory of 4 words: the last that exists and the first that does not. -/
theorem witness_MemReadFaultsOrReturnsCell :
    (-1 : Int) < 0 ∧ ((at_ cells4 0).cfg.memWords = some 4 ∧ ((4 : Nat) : Int) ≤ 4) ∧
    (0 ≤ (3 : Int) ∧ ∀ m, (at_ cells4 0).cfg.memWords = some m → (3 : Int) < m) := by
  refine ⟨by decide, ⟨rfl, by decide⟩, by decide, ?_⟩
  intro m hm; cases hm; decide
theorem witness_MemWriteFaultsOrStores :
    cellExists cells4 4 = false ∧ (cellExists bits12 4 = true ∧ fit bits12 2048 = false) ∧
    (cellExists bits12 4 = true ∧ fit bits12 (-2048) = true ∧ Memory.wf [(0, 7)] = true) := by decide
theorem witness_CanonicalMemoriesThatReadAlikeAreEqual : Memory.wf [(0, 7), (2, -1)] = true ∧
    ∀ a, Memory.read [(0, 7), (2, -1)] a = Memory.read [(0, 7), (2, -1)] a := ⟨by decide, fun _ => rfl⟩

/-! The hypotheses on the operands are `witness_operands`; these are the clauses' own. -/
theorem witness_AddStoresExactSum :
    (fit (at_ Config.reference 0).cfg (7 + 5) = true ∧ fit (at_ Config.reference 0).cfg (0 + 4) = true) ∧
    (ReadsAs (at_ bits12 0) ⟨.immediate, 2043⟩ 2043 ∧ fit (at_ bits12 0).cfg (2043 + 5) = false) ∧
    (fit (at_ bits12 2044).cfg (7 + 5) = true ∧ fit (at_ bits12 2044).cfg (2044 + 4) = false) :=
  ⟨by decide, ⟨rfl, by decide⟩, by decide⟩
theorem witness_MulStoresExactProduct :
    (fit (at_ Config.reference 0).cfg (7 * 5) = true ∧ fit (at_ Config.reference 0).cfg (0 + 4) = true) ∧
    (ReadsAs (at_ bits12 0) ⟨.immediate, 410⟩ 410 ∧ fit (at_ bits12 0).cfg (410 * 5) = false) ∧
    (fit (at_ bits12 2044).cfg (7 * 5) = true ∧ fit (at_ bits12 2044).cfg (2044 + 4) = false) :=
  ⟨by decide, ⟨rfl, by decide⟩, by decide⟩
theorem witness_InputIsStoredOrAwaited :
    (((at_ bits12 0).setInq [-2048, 1]).inq = [-2048, 1] ∧ fit bits12 (-2048) = true ∧ fit bits12 (0 + 2) = true) ∧
    ((at_ bits12 0).inq = [] ∧ fit bits12 (0 + 2) = true) ∧ fit bits12 (2046 + 2) = false := by decide
theorem witness_OutputIsAppendedOrStalls :
    (fit depth1 (0 + 2) = true ∧ ∀ d, depth1.outDepth = some d → (at_ depth1 0).outq.length ≠ d) ∧
    (fit depth1 (0 + 2) = true ∧ ((at_ depth1 0).pushOut 1).cfg.outDepth = some ((at_ depth1 0).pushOut 1).outq.length) ∧
    fit bits12 (2046 + 2) = false := by
  refine ⟨⟨by decide, ?_⟩, by decide, by decide⟩
  intro d hd; cases hd; decide
theorem witness_JumpIfTrueGoesToTarget :
    ((7 : Int) ≠ 0 ∧ fit bits12 5 = true) ∧ (ReadsAs (at_ bits12 0) ⟨.immediate, 0⟩ 0 ∧ fit bits12 (0 + 3) = true) ∧
    (ReadsAs (at_ bits12 2045) ⟨.immediate, 0⟩ 0 ∧ fit bits12 (2045 + 3) = false) ∧
    ((7 : Int) ≠ 0 ∧ ReadsAs (at_ bits12 0) ⟨.immediate, 2048⟩ 2048 ∧ fit bits12 2048 = false) :=
  ⟨by decide, ⟨rfl, by decide⟩, ⟨rfl, by decide⟩, by decide, rfl, by decide⟩
theorem witness_JumpIfFalseGoesToTarget :
    (ReadsAs (at_ bits12 0) ⟨.immediate, 0⟩ 0 ∧ fit bits12 5 = true) ∧ ((7 : Int) ≠ 0 ∧ fit bits12 (0 + 3) = true) ∧
    ((7 : Int) ≠ 0 ∧ fit bits12 (2045 + 3) = false) ∧
    (ReadsAs (at_ bits12 0) ⟨.immediate, 0⟩ 0 ∧ ReadsAs (at_ bits12 0) ⟨.immediate, 2048⟩ 2048 ∧ fit bits12 2048 = false) :=
  ⟨⟨rfl, by decide⟩, by decide, by decide, rfl, rfl, by decide⟩
theorem witness_LessThanStoresZeroOrOne :
    (fit bits12 (0 + 4) = true ∧ (5 : Int) < 7) ∧ (fit bits12 (0 + 4) = true ∧ (5 : Int) ≤ 7) ∧
    (fit bits12 (0 + 4) = true ∧ (7 : Int) ≤ 7) ∧ fit bits12 (2044 + 4) = false := by decide
theorem witness_EqualsStoresZeroOrOne :
    (fit bits12 (0 + 4) = true ∧ (7 : Int) = 7) ∧ (fit bits12 (0 + 4) = true ∧ (7 : Int) ≠ 5) ∧
    fit bits12 (2044 + 4) = false := by decide
theorem witness_AdjustBaseAddsOperand :
    (fit bits12 (2 + 7) = true ∧ fit bits12 (0 + 2) = true) ∧
    (ReadsAs (at_ bits12 0) ⟨.immediate, 2046⟩ 2046 ∧ fit bits12 (2 + 2046) = false) ∧
    (fit bits12 (2 + 7) = true ∧ fit bits12 (2046 + 2) = false) := ⟨by decide, ⟨rfl, by decide⟩, by decide⟩

/-- The second of three operands names cell 4 of a memory of 4 words, the first is fine. -/
theorem witness_FirstMissingOperandCellFaults :
    let i : Instr := .add ⟨.position, 3⟩ ⟨.relative, 2⟩ ⟨.position, -1⟩
    i.wellFormed = true ∧ i.params = [⟨.position, 3⟩] ++ ⟨.relative, 2⟩ :: [⟨.position, -1⟩] ∧
      (∀ q ∈ [(⟨.position, 3⟩ : Param)], AddressOk (at_ cells4 0) q) ∧
      operandAddress (at_ cells4 0) ⟨.relative, 2⟩ = some 4 ∧ cellExists (at_ cells4 0).cfg 4 = false := by
  refine ⟨rfl, rfl, ?_, rfl, rfl⟩
  intro q hq a ha
  obtain rfl := List.mem_singleton.1 hq
  cases ha; rfl

theorem witness_FrameOfMemoryResults :
    (∃ t, exec (.mul ⟨.position, 0⟩ ⟨.immediate, 5⟩ ⟨.relative, 1⟩) (at_ bits12 0) = .next t) ∧
    effAddr (at_ bits12 0) 3 ⟨.relative, 1⟩ = .ok 3 ∧ Memory.wf (at_ bits12 0).mem = true ∧
    (∃ t, exec (.lt ⟨.position, 0⟩ ⟨.immediate, 5⟩ ⟨.position, 4⟩) (at_ cells4 0) = .next t ∧
      FaultEntered (at_ cells4 0) t) ∧
    effAddr (at_ cells4 0) 3 ⟨.position, 4⟩ = .error (addressTrap 4) :=
  ⟨⟨_, rfl⟩, rfl, rfl, ⟨_, rfl, by decide, rfl⟩, rfl⟩
theorem witness_FrameOfRegisterResults :
    (∃ t, exec (.out ⟨.position, 0⟩) (at_ bits12 0) = .next t ∧ t.outq = [7]) ∧
    (∃ t, exec (.arb ⟨.immediate, 2046⟩) (at_ bits12 0) = .next t ∧ FaultEntered (at_ bits12 0) t) :=
  ⟨⟨_, rfl, rfl⟩, ⟨_, rfl, by decide, rfl⟩⟩
theorem witness_FrameOfInput :
    (∃ t, exec (.inp ⟨.relative, 1⟩) (at_ cells4 0) = .next t ∧ (at_ cells4 0).inq = []) ∧
    (∃ t, exec (.inp ⟨.relative, 1⟩) ((at_ cells4 0).setInq [9]) = .next t ∧ ((at_ cells4 0).setInq [9]).inq ≠ []) ∧
    (∃ t, exec (.inp ⟨.relative, 2⟩) (at_ cells4 0) = .next t ∧ FaultEntered (at_ cells4 0) t) ∧
    effAddr (at_ cells4 0) 1 ⟨.relative, 1⟩ = .ok 3 ∧ Memory.wf (at_ cells4 0).mem = true ∧
    effAddr (at_ cells4 0) 1 ⟨.relative, 2⟩ = .error (addressTrap 4) :=
  ⟨⟨_, rfl, rfl⟩, ⟨_, rfl, by decide⟩, ⟨_, rfl, by decide, rfl⟩, rfl, rfl, rfl⟩

/-- The last instruction of a memory of 4 words. -/
theorem witness_StepRunsDecodedInstruction :
    (loaded cells4 [1002, 3, 3, 3]).runState = .running ∧
    (∀ k : Nat, k < (Instr.mul ⟨.position, 3⟩ ⟨.immediate, 3⟩ ⟨.position, 3⟩).length →
      cellExists (loaded cells4 [1002, 3, 3, 3]).cfg ((loaded cells4 [1002, 3, 3, 3]).ip + k) = true) ∧
    decode (Memory.cells (loaded cells4 [1002, 3, 3, 3]).mem (loaded cells4 [1002, 3, 3, 3]).ip.toNat 4)
      = .ok (.mul ⟨.position, 3⟩ ⟨.immediate, 3⟩ ⟨.position, 3⟩, []) := by decide
theorem witness_FetchOutsideMemoryFaults :
    ((at_ cells4 4).runState = .running ∧ cellExists (at_ cells4 4).cfg (at_ cells4 4).ip = false) ∧
    (at_ Config.reference (-1)).runState = .running ∧ cellExists Config.reference (-1) = false := by decide
theorem witness_IllegalWordFaults :
    (prog [1099]).runState = .running ∧ cellExists (prog [1099]).cfg (prog [1099]).ip = true ∧
      decodeWord ((prog [1099]).cell (prog [1099]).ip) = .error ⟨.excessModeDigits, 10⟩ := by decide
/-- Two of the three parameter cells exist. -/
theorem witness_MissingParameterCellFaults :
    let s := loaded { cells4 with memWords := some 3 } [1101, 1, 1]
    s.runState = .running ∧ cellExists s.cfg s.ip = true ∧
      decodeWord (s.cell s.ip) = .ok (.add .immediate .immediate .position) ∧
      3 ≤ (Head.add .immediate .immediate .position).nparams ∧
      (∀ j : Nat, 1 ≤ j → j < 3 → cellExists s.cfg (s.ip + j) = true) ∧
      cellExists s.cfg (s.ip + (3 : Nat)) = false := by
  refine ⟨rfl, rfl, by decide, by decide, ?_, rfl⟩
  intro j h1 h3
  have : j = 1 ∨ j = 2 := by omega
  obtain rfl | rfl := this <;> rfl

/-! States that meet the invariant, one for each run state. -/

/-- Waiting for the input of `in [0]`. -/
def waiting : State := after (loaded depth1 [3, 0, 99])
/-- The program `99`, halted. -/
def halted : State := after (loaded depth1 [99])
/-- A negative word, faulted. -/
def faulted : State := after (loaded depth1 [-1])
/-- A full output queue in front of `out 2`. -/
def stalled : State := after (loaded depth1 [104, 1, 104, 2, 99])

/-- A state without a latch meets the invariant if these checks hold. -/
theorem invariant_of_checks {s : State} (h1 : s.cfg.wf = true) (h2 : Memory.wf s.mem = true)
    (h3 : ∀ e ∈ s.mem, belowTop s.cfg e.1 = true ∧ fit s.cfg e.2 = true) (h4 : fit s.cfg s.ip = true)
    (h5 : fit s.cfg s.rb = true) (h6 : s.inq = []) (h7 : ∀ v ∈ s.outq, fit s.cfg v = true)
    (h8 : ∀ d, s.cfg.outDepth = some d → s.outq.length ≤ d) (h9 : s.pend = none)
    (h10 : s.runState ≠ .awaitingInput)
    (h11 : s.runState ≠ .faulted → s.faultCause = .none ∧ s.faultIp = 0 ∧ s.faultWord = 0 ∧ s.faultInfo = 0)
    (h12 : s.runState = .faulted → s.faultCause ≠ .none ∧ s.faultIp = s.ip ∧ fit s.cfg s.faultWord = true) :
    Invariant s where
  config_legal := h1
  mem_canonical := h2
  mem_cells := h3
  ip_word := h4
  rb_word := h5
  input_queue := ⟨by simp [h6], by simp [h6]⟩
  output_queue := ⟨h7, h8⟩
  latch_iff := by simp [h9, h10]
  latch_matches := by simp [h9]
  record_clear := h11
  record_set := h12

theorem invariant_of_load {c : Config} {p : List Int} (h1 : c.wf = true) (h2 : Memory.wf (Memory.place 0 p) = true)
    (h3 : ∀ e ∈ Memory.place 0 p, belowTop c e.1 = true ∧ fit c e.2 = true) (h4 : fit c 0 = true) :
    Invariant (loaded c p) :=
  invariant_of_checks h1 h2 h3 h4 h4 rfl (fun _ h => nomatch h) (fun _ _ => Nat.zero_le _) rfl (fun h => nomatch h)
    (fun _ => ⟨rfl, rfl, rfl, rfl⟩) (fun h => nomatch h)

theorem witness_invariant_running : Invariant (loaded depth1 [3, 0, 99]) :=
  invariant_of_load rfl rfl (by decide) rfl
theorem witness_invariant_halted : Invariant halted :=
  invariant_of_checks rfl rfl (by decide) rfl rfl rfl (by decide) (by decide) rfl (by decide) (by decide) (by decide)
theorem witness_invariant_faulted : Invariant faulted :=
  invariant_of_checks rfl rfl (by decide) rfl rfl rfl (by decide) (by decide) rfl (by decide) (by decide) (by decide)
theorem witness_invariant_stalled : Invariant stalled :=
  invariant_of_checks rfl rfl (by decide) rfl rfl rfl (by decide) (fun _ h => by cases h; decide) rfl (by decide)
    (by decide) (by decide)
theorem witness_invariant_waiting : Invariant waiting where
  config_legal := rfl
  mem_canonical := rfl
  mem_cells := by decide
  ip_word := rfl
  rb_word := rfl
  input_queue := ⟨fun _ h => (nomatch h), fun _ _ => Nat.zero_le _⟩
  output_queue := ⟨fun _ h => (nomatch h), fun _ _ => Nat.zero_le _⟩
  latch_iff := by decide
  latch_matches := by
    intro p hp
    cases hp
    exact ⟨by decide, rfl, rfl, by decide, rfl, rfl, rfl⟩
  record_clear := by decide
  record_set := by decide

/-- The same core after FEED(5). -/
def fed : State := (feed 5 waiting).2
theorem witness_invariant_fed : Invariant fed where
  config_legal := rfl
  mem_canonical := rfl
  mem_cells := by decide
  ip_word := rfl
  rb_word := rfl
  input_queue := ⟨by decide, fun _ h => by cases h; decide⟩
  output_queue := ⟨fun _ h => (nomatch h), fun _ _ => Nat.zero_le _⟩
  latch_iff := by decide
  latch_matches := by
    intro p hp
    cases hp
    exact ⟨by decide, rfl, rfl, by decide, rfl, rfl, rfl⟩
  record_clear := by decide
  record_set := by decide

theorem witness_TerminalAndWaitingStatesHold :
    halted.runState = .halted ∧ faulted.runState = .faulted ∧ waiting.runState = .awaitingInput ∧ waiting.inq = [] := by
  decide
theorem witness_ResumptionCompletesPendingWrite :
    Invariant fed ∧ fed.pend = some ⟨.position, 0⟩ ∧ fed.inq = 5 :: [] := ⟨witness_invariant_fed, rfl, rfl⟩
theorem witness_FaultsArePrecise : step (loaded depth1 [-1]) = .next faulted ∧
    FaultEntered (loaded depth1 [-1]) faulted := ⟨rfl, by decide⟩
theorem witness_StepAnswersNextState : Invariant waiting := witness_invariant_waiting

/-- One state for each step result. -/
theorem witness_StepResultTellsRunState :
    hostStep (loaded depth1 [104, 1, 104, 2, 99]) = .next (.progressed, stalled) ∧
    hostStep (loaded depth1 [3, 0, 99]) = .next (.suspended, waiting) ∧
    hostStep halted = .next (.halted, halted) ∧
    hostStep (loaded depth1 [-1]) = .next (.faulted .negativeWord, faulted) ∧
    hostStep stalled = .next (.outputStall, stalled) := ⟨rfl, rfl, rfl, rfl, rfl⟩
theorem witness_RunStateTransitions :
    (Invariant stalled ∧ hostStep stalled = .next (.outputStall, stalled) ∧ stalled.runState = .running) ∧
    (Invariant fed ∧ (∃ t, hostStep fed = .next (.progressed, t)) ∧ fed.runState = .awaitingInput ∧ fed.inq ≠ []) ∧
    (Invariant waiting ∧ hostStep waiting = .next (.suspended, waiting) ∧ waiting.inq = []) ∧
    (Invariant halted ∧ hostStep halted = .next (.halted, halted)) ∧
    (Invariant faulted ∧ hostStep faulted = .next (.faulted .negativeWord, faulted)) :=
  ⟨⟨witness_invariant_stalled, rfl, rfl⟩, ⟨witness_invariant_fed, ⟨_, rfl⟩, rfl, by decide⟩,
    ⟨witness_invariant_waiting, rfl, rfl⟩, ⟨witness_invariant_halted, rfl⟩, ⟨witness_invariant_faulted, rfl⟩⟩
theorem witness_OnlyAdjustBaseChangesRb : step (prog [109, 1, 99]) = .next (after (prog [109, 1, 99])) ∧
    (after (prog [109, 1, 99])).rb ≠ (prog [109, 1, 99]).rb := ⟨rfl, by decide⟩
theorem witness_OnlyJumpsLeaveTheSequence :
    ∃ t, exec (.jt ⟨.position, 0⟩ ⟨.immediate, 5⟩) (at_ bits12 0) = .next t ∧ t.ip ≠ (at_ bits12 0).ip ∧
      t.ip ≠ (at_ bits12 0).ip + (Instr.jt ⟨.position, 0⟩ ⟨.immediate, 5⟩).length :=
  ⟨_, rfl, by decide, by decide⟩
theorem witness_StepChangesAtMostOneCell :
    (Memory.wf (prog [1101, 1, 1, 5, 0]).mem = true ∧
      step (prog [1101, 1, 1, 5, 0]) = .next (after (prog [1101, 1, 1, 5, 0])) ∧
      Memory.read (after (prog [1101, 1, 1, 5, 0])).mem 5 ≠ Memory.read (prog [1101, 1, 1, 5, 0]).mem 5) ∧
    (Memory.wf stalled.mem = true ∧ step stalled = .next stalled ∧ stalled.runState = .running ∧
      fetch stalled = .instr (.out ⟨.immediate, 2⟩)) := ⟨⟨rfl, rfl, by decide⟩, rfl, rfl, rfl, rfl⟩
theorem witness_QueuesAreFifo : (∃ t, step fed = .next t ∧ t.inq ≠ fed.inq) ∧
    step (loaded depth1 [104, 1, 104, 2, 99]) = .next stalled := ⟨⟨_, rfl, by decide⟩, rfl⟩
theorem witness_ReferenceRaisesOnlyCausesOneToSix :
    (prog [3, -1, 99]).cfg = Config.reference ∧ (prog [3, -1, 99]).runState ≠ .faulted ∧
    ∃ t, hostStep (prog [3, -1, 99]) = .next (.faulted .negativeAddress, t) ∧ t.runState = .faulted :=
  ⟨rfl, by decide, _, rfl, rfl⟩
theorem witness_StepKeepsInvariant : Invariant (loaded depth1 [3, 0, 99]) ∧
    step (loaded depth1 [3, 0, 99]) = .next waiting := ⟨witness_invariant_running, rfl⟩
theorem witness_HostOperationsKeepInvariant : Invariant waiting := witness_invariant_waiting
theorem witness_SuspensionIsHazardFree : drivesOnly [.step] = true ∧ waiting.runState = .awaitingInput ∧
    (HostOp.step = .step → waiting.inq = []) := ⟨rfl, rfl, fun _ => rfl⟩
/-- A progressing step, and a fault that the reference configuration raises too. -/
theorem witness_FiniteConfigurationAgreesWithReference :
    (hostStep (loaded depth1 [104, 1, 104, 2, 99]) = .next (.progressed, stalled) ∧
      StepResult.progressed ≠ .outputStall) ∧
    (∃ t, hostStep (at_ cells4 (-1)) = .next (.faulted .invalidPc, t) ∧ (at_ cells4 (-1)).ip < 0) :=
  ⟨⟨rfl, by decide⟩, _, rfl, by decide⟩
theorem witness_LoadSetsEveryPieceOfState :
    (∀ m, faulted.cfg.memWords = some m → [99, 0, -5].length ≤ m) ∧
    (∀ m, (loaded cells4 []).cfg.memWords = some m → [99, 0, -5, 0].length ≤ m) ∧
    (∀ v ∈ [-2048, 2047], fit (loaded bits12 []).cfg v = true) :=
  ⟨fun _ h => (nomatch h), fun _ h => by cases h; decide, by decide⟩
theorem witness_LoadRefusals :
    ((loaded cells4 []).cfg.memWords = some 4 ∧ 4 < [1, 2, 3, 4, 5].length) ∧
    ((∀ m, (loaded bits12 []).cfg.memWords = some m → [1, 2048].length ≤ m) ∧
      ∃ v ∈ [1, 2048], fit (loaded bits12 []).cfg v = false) :=
  ⟨⟨rfl, by decide⟩, fun _ h => (nomatch h), 2048, by decide, by decide⟩
theorem witness_FeedAppendsOrRefuses :
    fit (loaded bits12 []).cfg 2048 = false ∧
    (fit fed.cfg 6 = true ∧ fed.cfg.inDepth = some fed.inq.length) ∧
    (fit waiting.cfg 6 = true ∧ waiting.cfg.inDepth ≠ some waiting.inq.length) := by decide
theorem witness_PopTakesOldestOutput : waiting.outq = [] ∧ stalled.outq = 1 :: [] := by decide
theorem witness_NextOutputAnswers :
    (Invariant stalled ∧ nextOutput 9 stalled = (.value 1, { stalled with outq := [] })) ∧
    (Invariant halted ∧ nextOutput 9 halted = (.endOfStream, halted)) ∧
    (Invariant (loaded depth1 [3, 0, 99]) ∧ nextOutput 9 (loaded depth1 [3, 0, 99]) = (.suspended, waiting)) ∧
    (Invariant faulted ∧ nextOutput 9 faulted = (.error .negativeWord 0 (-1) 0, faulted)) ∧
    (Invariant waiting ∧ nextOutput 0 waiting = (.running, waiting)) :=
  ⟨⟨witness_invariant_stalled, rfl⟩, ⟨witness_invariant_halted, rfl⟩, ⟨witness_invariant_running, rfl⟩,
    ⟨witness_invariant_faulted, rfl⟩, witness_invariant_waiting, rfl⟩
theorem witness_RunToCompletionOutcomes :
    (Invariant halted ∧ runToCompletion 9 [] halted = (([], .completed), halted)) ∧
    (Invariant faulted ∧ runToCompletion 9 [] faulted = (([], .faulted .negativeWord 0 (-1) 0), faulted)) ∧
    (Invariant waiting ∧ runToCompletion 9 [] waiting = (([], .starved), waiting)) ∧
    (Invariant (prog [1105, 1, 0]) ∧ runToCompletion 9 [5] (prog [1105, 1, 0]) = (([], .running), (feed 5 (prog [1105, 1, 0])).2)) :=
  ⟨⟨witness_invariant_halted, rfl⟩, ⟨witness_invariant_faulted, rfl⟩, ⟨witness_invariant_waiting, rfl⟩,
    invariant_of_load rfl rfl (by decide) rfl, rfl⟩
theorem witness_CoresShareNoState : (0 : Nat) ≠ 1 ∧ ([waiting, halted] : System)[1]? = some halted ∧ ([waiting, halted] : System)[0]? = some waiting := ⟨by decide, rfl, rfl⟩
theorem witness_SuspendFeedStepEqualsFeedStep :
    Invariant (loaded depth1 [3, 0, 99]) ∧ (loaded depth1 [3, 0, 99]).runState = .running ∧
    step (loaded depth1 [3, 0, 99]) = .next waiting ∧ waiting.runState = .awaitingInput ∧
    ∃ t, feed 5 (loaded depth1 [3, 0, 99]) = (.accepted, t) :=
  ⟨witness_invariant_running, rfl, rfl, rfl, _, rfl⟩
theorem witness_FeedCommutesWithStep :
    hostStep (loaded depth1 [104, 1, 104, 2, 99]) = .next (.progressed, stalled) ∧
    StepResult.progressed ≠ .suspended ∧ ∃ t, feed 5 (loaded depth1 [104, 1, 104, 2, 99]) = (.accepted, t) :=
  ⟨rfl, by decide, _, rfl⟩

/-- The two schedules of the witness below: interactive, and everything fed first. -/
def interactive : List HostOp := [.step, .step, .feed 42, .step, .step, .pop, .step]
def batch : List HostOp := [.feed 42, .feed 7, .step, .step, .step]
theorem witness_DrivingOrderIsUnobservable :
    let s := prog [3, 0, 4, 0, 99]
    Invariant s ∧ s.runState = .running ∧ s.inq = [] ∧ s.outq = [] ∧
    drivesOnly interactive = true ∧ drivesOnly batch = true ∧ fedValues interactive <+: [42, 7] ∧
    fedValues batch <+: [42, 7] ∧
    (∀ e, HostReply.fed (.refused e) ∉ (hostRun interactive s).1) ∧
    (∀ e, HostReply.fed (.refused e) ∉ (hostRun batch s).1) ∧
    (hostRun interactive s).2.runState = .halted ∧ (hostRun batch s).2.runState = .halted := by
  refine ⟨invariant_of_load rfl rfl (by decide) rfl, rfl, rfl, rfl, rfl, rfl, ?_, ?_, ?_, ?_, rfl, rfl⟩
  · decide
  · decide
  all_goals intro e; cases e <;> decide
theorem witness_ProgramTextRoundTrip : ([99, -1] : List Int) ≠ [] ∧ [' ', '\t'].all isBlank = true ∧
    ['\n'].all isBlank = true := by decide
theorem witness_PseudoInstructionsExpand :
    (AsmOperand.immediate (.number 1)).value = .number 1 ∧ (AsmOperand.cell (.number 51)).value = .number 51 ∧
      (AsmOperand.cell (.number 51)).mode ≠ .immediate := by decide
theorem witness_AssemblyOfPrintedInstruction : (Instr.inp ⟨.relative, -3⟩).wellFormed = true := by decide

end Sys2Proof.Tests
end

