-- ==== Sys2Proof/Proofs/Encoding.lean ====
section
/-! The instruction word of a legal decoding is the word it was decoded from (R71, R87). -/

namespace Sys2Proof

open Sys2Proof.Machine

theorem digit_of_readMode {n k : Nat} {m : Mode} (h : readMode n k = .ok m) : digit n (k + 1) = m.digit := by
  unfold readMode at h
  split at h <;> cases h <;> assumption

theorem digit_of_writeMode {n k : Nat} {m : Mode} (h : writeMode n k = .ok m) : digit n (k + 1) = m.digit := by
  unfold writeMode at h
  split at h <;> cases h <;> assumption

theorem checkExcess_ok_iff {n params : Nat} {u : Unit} :
    checkExcess n params = .ok u ↔ n / 10 ^ (params + 2) = 0 := by
  unfold checkExcess; split <;> simp_all

/-- A number of at most five digits is its low two digits and the three mode digits above them. -/
theorem headNumber_digits {n : Nat} (h : n / 10 ^ 5 = 0) :
    headNumber (n % 100) (digit n 2) (digit n 3) (digit n 4) = n := by
  simp only [headNumber, digit]; omega

/-! Each form of an instruction word, whatever its opcode: `mk` is encoded with opcode `op`, the low two digits. -/

theorem encodeHead_of_headRRW {mk : Mode → Mode → Mode → Head} {op n : Nat} {hd : Head}
    (hmk : ∀ a b c, encodeHead (mk a b c) = headNumber op a.digit b.digit c.digit) (hop : n % 100 = op)
    (h : headRRW mk n = .ok hd) : encodeHead hd = n := by
  simp only [headRRW, bind_ok_iff, checkExcess_ok_iff] at h
  obtain ⟨a, ha, b, hb, c, hc, -, hx, h⟩ := h
  cases h
  rw [hmk, ← digit_of_readMode ha, ← digit_of_readMode hb, ← digit_of_writeMode hc, ← hop, headNumber_digits hx]

theorem encodeHead_of_headRR {mk : Mode → Mode → Head} {op n : Nat} {hd : Head}
    (hmk : ∀ a b, encodeHead (mk a b) = headNumber op a.digit b.digit 0) (hop : n % 100 = op)
    (h : headRR mk n = .ok hd) : encodeHead hd = n := by
  simp only [headRR, bind_ok_iff, checkExcess_ok_iff] at h
  obtain ⟨a, ha, b, hb, -, hx, h⟩ := h
  cases h
  have h4 : digit n 4 = 0 := by simp only [digit]; omega
  rw [hmk, ← digit_of_readMode ha, ← digit_of_readMode hb, ← h4, ← hop, headNumber_digits (by omega)]

/-- One mode digit and no digit above it. -/
theorem headNumber_one_digit {n : Nat} (h : n / 10 ^ 3 = 0) : headNumber (n % 100) (digit n 2) 0 0 = n := by
  simp only [headNumber, digit]; omega

theorem encodeHead_of_headR {mk : Mode → Head} {op n : Nat} {hd : Head}
    (hmk : ∀ a, encodeHead (mk a) = headNumber op a.digit 0 0) (hop : n % 100 = op)
    (h : headR mk n = .ok hd) : encodeHead hd = n := by
  simp only [headR, bind_ok_iff, checkExcess_ok_iff] at h
  obtain ⟨a, ha, -, hx, h⟩ := h
  cases h
  rw [hmk, ← digit_of_readMode ha, ← hop, headNumber_one_digit hx]

theorem encodeHead_of_headW {mk : Mode → Head} {op n : Nat} {hd : Head}
    (hmk : ∀ a, encodeHead (mk a) = headNumber op a.digit 0 0) (hop : n % 100 = op)
    (h : headW mk n = .ok hd) : encodeHead hd = n := by
  simp only [headW, bind_ok_iff, checkExcess_ok_iff] at h
  obtain ⟨a, ha, -, hx, h⟩ := h
  cases h
  rw [hmk, ← digit_of_writeMode ha, ← hop, headNumber_one_digit hx]

theorem encodeHead_of_headNone {mk hd : Head} {op n : Nat} (hmk : encodeHead mk = headNumber op 0 0 0)
    (hop : n % 100 = op) (h : headNone mk n = .ok hd) : encodeHead hd = n := by
  simp only [headNone, bind_ok_iff, checkExcess_ok_iff] at h
  obtain ⟨-, hx, h⟩ := h
  cases h
  rw [hmk, headNumber]; omega

theorem encodeHead_of_decodeNat {n : Nat} {hd : Head} (h : decodeNat n = .ok hd) : encodeHead hd = n := by
  unfold decodeNat at h
  split at h
  case h_1 hop => exact encodeHead_of_headRRW (fun _ _ _ => rfl) hop h
  case h_2 hop => exact encodeHead_of_headRRW (fun _ _ _ => rfl) hop h
  case h_3 hop => exact encodeHead_of_headW (fun _ => rfl) hop h
  case h_4 hop => exact encodeHead_of_headR (fun _ => rfl) hop h
  case h_5 hop => exact encodeHead_of_headRR (fun _ _ => rfl) hop h
  case h_6 hop => exact encodeHead_of_headRR (fun _ _ => rfl) hop h
  case h_7 hop => exact encodeHead_of_headRRW (fun _ _ _ => rfl) hop h
  case h_8 hop => exact encodeHead_of_headRRW (fun _ _ _ => rfl) hop h
  case h_9 hop => exact encodeHead_of_headR (fun _ => rfl) hop h
  case h_10 hop => exact encodeHead_of_headNone rfl hop h
  case h_11 => cases h

/-- Encoding inverts decoding on an instruction word (R87). -/
theorem encodeHead_of_decodeWord {w : Int} {hd : Head} (h : decodeWord w = .ok hd) : encodeHead hd = w := by
  unfold decodeWord at h
  split at h
  · cases h
  · rw [encodeHead_of_decodeNat h]; omega

@[simp] theorem Head.head_instr (hd : Head) (v1 v2 v3 : Int) : (hd.instr v1 v2 v3).head = hd := by
  cases hd <;> rfl

/-- The raw parameters of the instruction of a decoding are among the words given to it. -/
theorem Head.raws_instr_subset (hd : Head) (v1 v2 v3 : Int) : (hd.instr v1 v2 v3).raws ⊆ [v1, v2, v3] := by
  cases hd <;> simp [Head.instr, Instr.raws]

end Sys2Proof
end

