-- ==== Sys2Proof/Proofs/Invariant.lean ====
section
/-! Every operation on the state keeps the invariant, and so does every step. -/

namespace Sys2Proof.Machine

/-! ### Words -/

/-- 0 is a word of every configuration (R12). -/
@[simp] theorem fit_zero (c : Config) : fit c 0 = true := by
  unfold fit
  split
  · rfl
  · next n _ =>
    have := Nat.two_pow_pos (n - 1)
    simp only [Bool.and_eq_true, decide_eq_true_eq]; omega

theorem eq_zero_or_mem_of_read (a : Nat) : ∀ m : Memory, Memory.read m a = 0 ∨ (a, Memory.read m a) ∈ m
  | [] => .inl rfl
  | (b, v) :: m => by
    unfold Memory.read
    split
    · next hb => subst hb; simp
    · exact (eq_zero_or_mem_of_read a m).imp_right (List.mem_cons_of_mem _)

theorem mem_cons_cases {a : Nat} {v : Int} {m : Memory} {e : Cell} (h : e ∈ Memory.cons a v m) :
    e = (a, v) ∨ e ∈ m := by
  unfold Memory.cons at h
  split at h
  · exact .inr h
  · exact List.mem_cons.1 h

/-- A write lists no cell but the one it writes and those listed before. -/
theorem mem_write_cases {a : Nat} {v : Int} {e : Cell} :
    ∀ {m : Memory}, e ∈ Memory.write m a v → e = (a, v) ∨ e ∈ m
  | [], h => mem_cons_cases h
  | (b, u) :: m, h => by
    unfold Memory.write at h
    split at h
    · exact mem_cons_cases h
    · split at h
      · exact (mem_cons_cases h).imp_right (List.mem_cons_of_mem _)
      · obtain rfl | h := List.mem_cons.1 h
        · simp
        · exact (mem_write_cases h).imp_right (List.mem_cons_of_mem _)

/-! ### Queues -/

theorem QueueOk.tail {c : Config} {depth : Option Nat} {x : Int} {q : List Int} (h : QueueOk c depth (x :: q)) :
    QueueOk c depth q where
  words v hv := h.words v (List.mem_cons_of_mem x hv)
  depth d hd := (Nat.le_succ _).trans (h.depth d hd)

/-- A queue that is not full takes another word. -/
theorem QueueOk.append {c : Config} {depth : Option Nat} {x : Int} {q : List Int} (h : QueueOk c depth q)
    (hfull : queueFull depth q = false) (hx : fit c x = true) : QueueOk c depth (q ++ [x]) where
  words v hv := by
    obtain hv | hv := List.mem_append.1 hv
    · exact h.words v hv
    · rwa [List.mem_singleton.1 hv]
  depth d hd := by
    have hle := h.depth d hd
    subst hd
    simp only [queueFull, decide_eq_false_iff_not] at hfull
    simp only [List.length_append, List.length_singleton]; omega

/-! ### What the invariant says of a state -/

theorem Invariant.cell_fits {s : State} (h : Invariant s) (a : Int) : fit s.cfg (s.cell a) = true := by
  obtain h0 | hm := eq_zero_or_mem_of_read a.toNat s.mem
  · rw [State.cell, h0, fit_zero]
  · exact (h.mem_cells _ hm).2

theorem Invariant.exists_latch {s : State} (h : Invariant s) (hs : s.runState = .awaitingInput) :
    ∃ p, s.pend = some p := Option.isSome_iff_exists.1 (h.latch_iff.2 hs)

/-! ### Operations on a running core

A running core holds no latch and no fault record, so of the invariant only the field written is in question. -/

section Running

variable {s : State} (h : Invariant s) (hr : s.runState = .running)
include h hr

theorem Invariant.pend_none_of_running : s.pend = none :=
  Option.not_isSome_iff_eq_none.1 (mt h.latch_iff.1 (by simp [hr]))

/-- Nothing is asked of the latch of a running core, in whatever state `s'` it is compared with. -/
theorem Invariant.no_latch (s' : State) (p : Pending) (hp : s.pend = some p) : LatchMatches s' p := by
  simp [h.pend_none_of_running hr] at hp

theorem Invariant.setIp {v : Int} (hv : fit s.cfg v = true) : Invariant (s.setIp v) :=
  { h with
    ip_word := hv
    latch_matches := h.no_latch hr _
    record_set := by simp [hr] }

theorem Invariant.setRb {v : Int} (hv : fit s.cfg v = true) : Invariant (s.setRb v) :=
  { h with
    rb_word := hv
    latch_matches := h.no_latch hr _ }

theorem Invariant.setInq {q : List Int} (hq : QueueOk s.cfg s.cfg.inDepth q) : Invariant (s.setInq q) :=
  { h with
    input_queue := hq
    latch_matches := h.no_latch hr _ }

theorem Invariant.pushOut {v : Int} (hq : queueFull s.cfg.outDepth s.outq = false) (hv : fit s.cfg v = true) :
    Invariant (s.pushOut v) :=
  { h with
    output_queue := h.output_queue.append hq hv
    latch_matches := h.no_latch hr _ }

theorem Invariant.write {t v : Int} (ht : cellExists s.cfg t = true) (hv : fit s.cfg v = true) :
    Invariant (s.setMem (Memory.write s.mem t.toNat v)) :=
  { h with
    mem_canonical := write_wf h.mem_canonical _ _
    mem_cells := by
      intro e he
      obtain rfl | he := mem_write_cases he
      · refine ⟨?_, hv⟩
        rw [toNat_of_exists ht]; exact (cellExists_iff.1 ht).2
      · exact h.mem_cells e he
    latch_matches := h.no_latch hr _ }

theorem Invariant.halt : Invariant s.halt :=
  { h with
    latch_iff := by simp [h.pend_none_of_running hr]
    latch_matches := h.no_latch hr _
    record_clear := fun _ => h.record_clear (by simp [hr])
    record_set := by simp }

theorem Invariant.suspend {a : Param} (hl : LatchMatches s { mode := a.mode, raw := a.raw }) :
    Invariant (s.suspend a) :=
  { h with
    latch_iff := by simp
    latch_matches := by
      intro p hp
      cases hp
      exact { hl with }
    record_clear := fun _ => h.record_clear (by simp [hr])
    record_set := by simp }

theorem Invariant.raiseFault {w : Int} {t : Trap} (ht : t.cause ≠ .none) (hw : fit s.cfg w = true) :
    Invariant (raiseFault w t s) :=
  { h with
    latch_iff := by simp [h.pend_none_of_running hr]
    latch_matches := h.no_latch hr _
    record_clear := by simp
    record_set := fun _ => ⟨ht, rfl, hw⟩ }

end Running

/-- A core that awaits an input, with its latch dropped, is a running core. -/
theorem Invariant.unsuspend {s : State} (h : Invariant s) (hs : s.runState = .awaitingInput) :
    Invariant s.unsuspend :=
  { h with
    latch_iff := by simp
    latch_matches := by simp
    record_clear := fun _ => h.record_clear (by simp [hs])
    record_set := by simp }

/-! ### What a fetch gives -/

/-- The head of a fetched instruction, its instruction word, and its parameters, which stand in the cells after it. -/
theorem fetch_instr_params {s : State} {i : Instr} (hf : fetch s = .instr i) :
    cellExists s.cfg s.ip = true ∧ decodeWord (s.cell s.ip) = .ok i.head ∧
      ∃ v1 v2 v3, i = i.head.instr v1 v2 v3 ∧ fetchParam s i.head.nparams 1 = .ok v1 ∧
        fetchParam s i.head.nparams 2 = .ok v2 ∧ fetchParam s i.head.nparams 3 = .ok v3 := by
  obtain ⟨he, hd, hw, hp⟩ := fetch_instr_iff.1 hf
  simp only [fetchParams, bind_ok_iff] at hp
  obtain ⟨v1, h1, v2, h2, v3, h3, hi⟩ := hp
  cases hi
  simp only [Head.head_instr]
  exact ⟨he, hw, v1, v2, v3, rfl, h1, h2, h3⟩

/-- The instruction word of a fetched instruction is the word at `IP`. -/
theorem word_of_fetch {s : State} {i : Instr} (hf : fetch s = .instr i) : i.word = s.cell s.ip :=
  encodeHead_of_decodeWord (fetch_instr_params hf).2.1

theorem Invariant.fetchParam_fits {s : State} (h : Invariant s) {n k : Nat} {v : Int}
    (hv : fetchParam s n k = .ok v) : fit s.cfg v = true := by
  obtain ⟨hcell, hzero⟩ := fetchParam_ok_iff.1 hv
  obtain hk | hk := Nat.lt_or_ge n k
  · rw [hzero hk, fit_zero]
  · rw [(hcell hk).2]; exact h.cell_fits _

/-- The parameters of a fetched instruction are words. -/
theorem Invariant.rawsFit_of_fetch {s : State} (h : Invariant s) {i : Instr} (hf : fetch s = .instr i) :
    Instr.rawsFit s.cfg i = true := by
  obtain ⟨-, -, v1, v2, v3, hi, h1, h2, h3⟩ := fetch_instr_params hf
  refine List.all_eq_true.2 fun v hv => ?_
  rw [hi] at hv
  have hmem := Head.raws_instr_subset _ _ _ _ hv
  simp only [List.mem_cons, List.not_mem_nil, or_false] at hmem
  obtain rfl | rfl | rfl := hmem
  · exact h.fetchParam_fits h1
  · exact h.fetchParam_fits h2
  · exact h.fetchParam_fits h3

/-- The value of an operand whose raw word is a word is a word. -/
theorem Invariant.readsAs_fits {s : State} (h : Invariant s) {p : Param} {x : Int} (hp : fit s.cfg p.raw = true)
    (hx : ReadsAs s p x) : fit s.cfg x = true := by
  unfold ReadsAs at hx
  split at hx
  · rwa [hx]
  · rw [hx.2]; exact h.cell_fits _

/-- A latched write parameter names the address that the write parameter itself named (R76, R112). -/
theorem pendingAddress_of_writesTo {s : State} {a : Param} {t : Int} (ht : WritesTo s a t) :
    a.mode ≠ .immediate ∧ pendingAddress s { mode := a.mode, raw := a.raw } = t := by
  obtain ⟨haddr, -⟩ := ht
  cases a with | mk m v => cases m <;> simp_all [operandAddress, pendingAddress]

/-- The latch a suspension writes is that of the fetched opcode-3 instruction, its destination checked (R111). -/
theorem latchMatches_of_fetch {s : State} {a : Param} {t : Int} (hf : fetch s = .instr (.inp a))
    (ht : WritesTo s a t) (hn : fit s.cfg (s.ip + 2) = true) :
    LatchMatches s { mode := a.mode, raw := a.raw } := by
  obtain ⟨he, hw, v1, v2, v3, hi, h1, -, -⟩ := fetch_instr_params hf
  obtain rfl : a.raw = v1 := congrArg Param.raw (Instr.inp.inj hi)
  obtain ⟨he1, hv1⟩ := (fetchParam_ok_iff.1 h1).1 le_rfl
  obtain ⟨hmode, haddr⟩ := pendingAddress_of_writesTo ht
  exact {
    mode_legal := hmode
    ip_exists := he
    param_exists := he1
    word_at_ip := hw
    raw_at_ip := hv1.symm
    target := by rw [haddr]; exact ht.2
    next_ip_fits := hn }

/-! ### Steps -/

/-- An effect of a fetched instruction keeps the invariant. -/
theorem Invariant.effect {s s' : State} {i : Instr} {r : StepResult} (h : Invariant s) (hr : s.runState = .running)
    (hf : fetch s = .instr i) (he : Effect s i r s') : Invariant s' := by
  cases he with
  | store _ ht hv hn => exact (h.write hr ht.2 hv).setIp hr hn
  | input ht hq hx hn =>
    have hrest := (hq ▸ h.input_queue).tail
    exact ((h.setInq hr hrest).write hr ht.2 hx).setIp hr hn
  | suspend ht _ hn => exact h.suspend hr (latchMatches_of_fetch hf ht hn)
  | @output a x hx hq hn =>
    have ha : fit s.cfg a.raw = true := by simpa [Instr.rawsFit, Instr.raws] using h.rawsFit_of_fetch hf
    exact (h.pushOut hr hq (h.readsAs_fits ha hx)).setIp hr hn
  | stall => exact h
  | jump _ hn => exact h.setIp hr hn
  | base _ hb hn => exact (h.setRb hr hb).setIp hr hn
  | halt => exact h.halt hr

/-- The word a failed fetch records is a word. -/
theorem Invariant.fetch_trap_word_fits {s : State} (h : Invariant s) {w : Int} {t : Trap}
    (hf : fetch s = .trap w t) : fit s.cfg w = true := by
  obtain ⟨-, ⟨rfl, -, -⟩ | ⟨rfl, -⟩⟩ := fetch_trap_cases hf
  · exact fit_zero _
  · exact h.cell_fits _

theorem Invariant.execute {s : State} (h : Invariant s) (hr : s.runState = .running) :
    Invariant (execute s).2 := by
  obtain ⟨i, hf, he⟩ | ⟨w, t, hf, ht, he⟩ := execute_cases s
  · rw [he]
    obtain heff | ⟨t, ht, hi⟩ := runInstr_cases i s
    · exact h.effect hr hf heff
    · rw [hi]
      exact h.raiseFault hr ht (by rw [word_of_fetch hf]; exact h.cell_fits _)
  · rw [he]
    exact h.raiseFault hr ht (h.fetch_trap_word_fits hf)

/-- The checks made before a suspension still hold at its end, so a resumption does not fault (R112). -/
theorem Invariant.resume_progresses {s : State} (h : Invariant s) {p : Pending} {x : Int} {rest : List Int}
    (hp : s.pend = some p) (hq : s.inq = x :: rest) :
    resume s = .next (.progressed,
      (((s.setInq rest).setMem (Memory.write s.mem (pendingAddress s p).toNat x)).setIp (s.ip + 2)).unsuspend) := by
  have hx : fit s.cfg x = true := h.input_queue.words x (by simp [hq])
  have hc := (completeInput_ok_iff (rest := rest)).2 ⟨(h.latch_matches p hp).target, hx, rfl⟩
  simp only [resume, hq, hp, conclude_ok hc]

theorem Invariant.resume {s : State} {r : StepResult × State} (h : Invariant s) (hs : s.runState = .awaitingInput)
    (hr : resume s = .next r) : Invariant r.2 := by
  cases hq : s.inq with
  | nil =>
    simp only [Machine.resume, hq] at hr
    cases hr
    exact h
  | cons x rest =>
    obtain ⟨p, hp⟩ := h.exists_latch hs
    have hl := h.latch_matches p hp
    have hin : QueueOk s.cfg s.cfg.inDepth (x :: rest) := hq ▸ h.input_queue
    rw [h.resume_progresses hp hq] at hr
    cases hr
    have hrun : Invariant s.unsuspend := h.unsuspend hs
    exact ((hrun.setInq rfl hin.tail).write rfl hl.target (hin.words x (by simp))).setIp rfl hl.next_ip_fits

theorem step_of_running {s : State} (hr : s.runState = .running) : step s = .next (execute s).2 := by
  simp only [step, execute, hr]
  cases fetch s with
  | trap w t => rfl
  | instr i => exact exec_eq_runInstr i s

theorem step_of_awaitingInput {s : State} (hr : s.runState = .awaitingInput) : step s = resumeState s := by
  simp only [step, hr]

theorem resumeState_next_iff {s s' : State} : resumeState s = .next s' ↔ ∃ r, resume s = .next (r, s') := by
  unfold resumeState
  cases resume s with
  | next r => simp [Prod.ext_iff]
  | fault f => simp
  | refused r => simp

theorem Invariant.step {s s' : State} (h : Invariant s) (hs : step s = .next s') : Invariant s' := by
  cases hr : s.runState with
  | running =>
    rw [step_of_running hr] at hs
    cases hs
    exact h.execute hr
  | awaitingInput =>
    rw [step_of_awaitingInput hr, resumeState_next_iff] at hs
    obtain ⟨r, hres⟩ := hs
    exact h.resume hr hres
  | halted => simp only [Machine.step, hr] at hs; cases hs; exact h
  | faulted => simp only [Machine.step, hr] at hs; cases hs; exact h

/-- Settles O42: the invariant is kept by every effect of an instruction, by a fault and by a resumption, which are
all a step can do. -/
theorem stepKeepsInvariant : Obligations.StepKeepsInvariant := by
  unfold Obligations.StepKeepsInvariant
  exact fun _ _ h hs => h.step hs

end Sys2Proof.Machine
end

