-- ==== Sys2Proof/Proofs/Reference.lean ====
section
/-! A finite configuration only adds faults and holds (R6, R7): every check of a step in any configuration answers as in
the reference configuration, unless it raises ADDRESS_RANGE or OVERFLOW. -/

namespace Sys2Proof.Machine

/-- The same state in the reference configuration. -/
def State.toReference (s : State) : State := { s with cfg := Config.reference }

@[simp] theorem State.toReference_cfg (s : State) : s.toReference.cfg = Config.reference := rfl
@[simp] theorem State.toReference_mem (s : State) : s.toReference.mem = s.mem := rfl
@[simp] theorem State.toReference_ip (s : State) : s.toReference.ip = s.ip := rfl
@[simp] theorem State.toReference_rb (s : State) : s.toReference.rb = s.rb := rfl
@[simp] theorem State.toReference_inq (s : State) : s.toReference.inq = s.inq := rfl
@[simp] theorem State.toReference_pend (s : State) : s.toReference.pend = s.pend := rfl
@[simp] theorem State.toReference_runState (s : State) : s.toReference.runState = s.runState := rfl

/-- The answer of a step with its next state in the reference configuration. -/
def answerToReference : StepResult × State → StepResult × State := Prod.map id State.toReference

/-- The faults a finite configuration can add inside a step: ADDRESS_RANGE and OVERFLOW (R221). -/
def IsAddedFault (t : Trap) : Prop := t.cause = .addressRange ∨ t.cause = .overflow

/-- The check `m` raises an added fault, or the check `m'` of the reference configuration answers as `m` does, a value
translated by `f`. -/
def OnlyAdds {α β : Type} (f : α → β) (m : Except Trap α) (m' : Except Trap β) : Prop :=
  (∃ t, m = .error t ∧ IsAddedFault t) ∨ m' = m.map f

theorem onlyAdds_ok {α β : Type} {f : α → β} {x : α} {y : β} (h : y = f x) : OnlyAdds f (.ok x) (.ok y) :=
  .inr (by rw [h]; rfl)

theorem onlyAdds_error {α β : Type} {f : α → β} (t : Trap) : OnlyAdds f (.error t) (.error t) := .inr rfl

/-- A sequence of checks that only add faults only adds faults. -/
theorem onlyAdds_bind {α β α' β' : Type} {f : α → α'} {g : β → β'}
    {m : Except Trap α} {m' : Except Trap α'} {k : α → Except Trap β} {k' : α' → Except Trap β'}
    (hm : OnlyAdds f m m') (hk : ∀ x, m = .ok x → OnlyAdds g (k x) (k' (f x))) : OnlyAdds g (m >>= k) (m' >>= k') := by
  obtain ⟨t, rfl, ht⟩ | rfl := hm
  · exact .inl ⟨t, rfl, ht⟩
  · cases m with
    | error t => exact onlyAdds_error t
    | ok x => exact hk x rfl

/-! ### The shared operations -/

theorem onlyAdds_requireFit (c : Config) (v : Int) :
    OnlyAdds id (requireFit c v) (requireFit Config.reference v) := by
  cases h : requireFit c v with
  | ok u => exact onlyAdds_ok rfl
  | error t =>
    obtain ⟨rfl, -⟩ := requireFit_error h
    exact .inl ⟨_, rfl, .inr rfl⟩

theorem onlyAdds_checkAddress (c : Config) (a : Int) :
    OnlyAdds id (checkAddress c a) (checkAddress Config.reference a) := by
  unfold checkAddress
  split
  · exact onlyAdds_error _
  · split
    · exact onlyAdds_ok rfl
    · exact .inl ⟨_, rfl, .inl rfl⟩

section Rules

variable (s : State)

theorem onlyAdds_memRead (a : Int) : OnlyAdds id (memRead s a) (memRead s.toReference a) :=
  onlyAdds_bind (onlyAdds_checkAddress _ _) fun _ _ => onlyAdds_ok rfl

theorem onlyAdds_memWrite (a v : Int) :
    OnlyAdds State.toReference (memWrite s a v) (memWrite s.toReference a v) :=
  onlyAdds_bind (onlyAdds_checkAddress _ _) fun _ _ =>
    onlyAdds_bind (onlyAdds_requireFit _ _) fun _ _ => onlyAdds_ok rfl

theorem onlyAdds_effRead (p : Param) : OnlyAdds id (effRead s p) (effRead s.toReference p) := by
  unfold effRead
  cases p.mode with
  | position => exact onlyAdds_memRead s _
  | immediate => exact onlyAdds_ok rfl
  | relative => exact onlyAdds_memRead s _

theorem onlyAdds_effAddr (k : Nat) (p : Param) : OnlyAdds id (effAddr s k p) (effAddr s.toReference k p) := by
  unfold effAddr
  cases p.mode with
  | position => exact onlyAdds_checkAddress _ _
  | immediate => exact onlyAdds_error _
  | relative => exact onlyAdds_checkAddress _ _

theorem onlyAdds_evalRRW (a b c : Param) : OnlyAdds id (evalRRW s a b c) (evalRRW s.toReference a b c) :=
  onlyAdds_bind (onlyAdds_effRead s a) fun _ _ => onlyAdds_bind (onlyAdds_effRead s b) fun _ _ =>
    onlyAdds_bind (onlyAdds_effAddr s 3 c) fun _ _ => onlyAdds_ok rfl

theorem onlyAdds_evalRR (a b : Param) : OnlyAdds id (evalRR s a b) (evalRR s.toReference a b) :=
  onlyAdds_bind (onlyAdds_effRead s a) fun _ _ => onlyAdds_bind (onlyAdds_effRead s b) fun _ _ => onlyAdds_ok rfl

theorem onlyAdds_storeAndAdvance (t : Nat) (v len : Int) :
    OnlyAdds answerToReference (storeAndAdvance s t v len) (storeAndAdvance s.toReference t v len) :=
  onlyAdds_bind (onlyAdds_requireFit _ _) fun _ _ =>
    onlyAdds_bind (onlyAdds_memWrite s _ _) fun _ _ => onlyAdds_ok rfl

/-! ### The rules of the instructions -/

theorem onlyAdds_runArith (f : Int → Int → Int) (a b c : Param) :
    OnlyAdds answerToReference (runArith f s a b c) (runArith f s.toReference a b c) :=
  onlyAdds_bind (onlyAdds_evalRRW s a b c) fun _ _ =>
    onlyAdds_bind (onlyAdds_requireFit _ _) fun _ _ => onlyAdds_storeAndAdvance s _ _ _

theorem onlyAdds_runCompare (f : Int → Int → Int) (a b c : Param) :
    OnlyAdds answerToReference (runCompare f s a b c) (runCompare f s.toReference a b c) :=
  onlyAdds_bind (onlyAdds_evalRRW s a b c) fun _ _ => onlyAdds_storeAndAdvance s _ _ _

theorem onlyAdds_jumpIf (test : Int → Bool) (a b : Param) :
    OnlyAdds answerToReference (jumpIf test s a b) (jumpIf test s.toReference a b) :=
  onlyAdds_bind (onlyAdds_evalRR s a b) fun _ _ =>
    onlyAdds_bind (onlyAdds_requireFit _ _) fun _ _ => onlyAdds_ok rfl

theorem onlyAdds_adjustBase (a : Param) :
    OnlyAdds answerToReference (adjustBase s a) (adjustBase s.toReference a) :=
  onlyAdds_bind (onlyAdds_effRead s a) fun _ _ => onlyAdds_bind (onlyAdds_requireFit _ _) fun _ _ =>
    onlyAdds_bind (onlyAdds_requireFit _ _) fun _ _ => onlyAdds_ok rfl

theorem onlyAdds_takeInput (a : Param) :
    OnlyAdds answerToReference (takeInput s a) (takeInput s.toReference a) := by
  refine onlyAdds_bind (onlyAdds_effAddr s 1 a) fun t _ => onlyAdds_bind (onlyAdds_requireFit _ _) fun _ _ => ?_
  rw [State.toReference_inq]
  cases s.inq with
  | nil => exact onlyAdds_ok rfl
  | cons x rest => exact onlyAdds_storeAndAdvance (s.setInq rest) t x 2

/-- An output that does not stall only adds faults: the reference configuration's queue is never full. -/
theorem onlyAdds_putOutput (a : Param) (hns : putOutput s a ≠ .ok (.outputStall, s)) :
    OnlyAdds answerToReference (putOutput s a) (putOutput s.toReference a) := by
  refine onlyAdds_bind (onlyAdds_effRead s a) fun x hx => onlyAdds_bind (onlyAdds_requireFit _ _) fun _ hn => ?_
  cases hq : queueFull s.cfg.outDepth s.outq with
  | false => exact onlyAdds_ok rfl
  | true =>
    refine absurd (putOutput_ok_iff.2 ⟨x, effRead_ok_iff.1 hx, requireFit_ok_iff.1 hn, ?_⟩) hns
    rw [if_pos hq]

theorem onlyAdds_completeInput (p : Pending) (x : Int) (rest : List Int) :
    OnlyAdds answerToReference (completeInput s p x rest) (completeInput s.toReference p x rest) :=
  onlyAdds_bind (onlyAdds_memWrite (s.setInq rest) _ _) fun _ _ => onlyAdds_ok rfl

theorem onlyAdds_ruleOf (i : Instr) (hns : ruleOf i s ≠ .ok (.outputStall, s)) :
    OnlyAdds answerToReference (ruleOf i s) (ruleOf i s.toReference) := by
  cases i with
  | add a b c => exact onlyAdds_runArith s _ a b c
  | mul a b c => exact onlyAdds_runArith s _ a b c
  | inp a => exact onlyAdds_takeInput s a
  | out a => exact onlyAdds_putOutput s a hns
  | jt a b => exact onlyAdds_jumpIf s _ a b
  | jf a b => exact onlyAdds_jumpIf s _ a b
  | lt a b c => exact onlyAdds_runCompare s _ a b c
  | eq a b c => exact onlyAdds_runCompare s _ a b c
  | arb a => exact onlyAdds_adjustBase s a
  | hlt => exact onlyAdds_ok rfl

/-! ### Fetching -/

theorem onlyAdds_fetchParam (n k : Nat) : OnlyAdds id (fetchParam s n k) (fetchParam s.toReference n k) := by
  unfold fetchParam
  split
  · exact onlyAdds_memRead s _
  · exact onlyAdds_ok rfl

theorem onlyAdds_fetchParams (h : Head) : OnlyAdds id (fetchParams s h) (fetchParams s.toReference h) :=
  onlyAdds_bind (onlyAdds_fetchParam s _ _) fun _ _ => onlyAdds_bind (onlyAdds_fetchParam s _ _) fun _ _ =>
    onlyAdds_bind (onlyAdds_fetchParam s _ _) fun _ _ => onlyAdds_ok rfl

end Rules

/-- The reference configuration has no top of memory, so only a negative `IP` is refused (R102). -/
theorem checkPc_toReference {s : State} (h : ∀ t, checkPc s = .error t → s.ip < 0) :
    checkPc s.toReference = checkPc s := by
  cases hp : checkPc s with
  | ok n =>
    obtain ⟨he, rfl⟩ := checkPc_ok_iff.1 hp
    exact checkPc_ok_iff.2 ⟨cellExists_iff.2 ⟨(cellExists_iff.1 he).1, rfl⟩, rfl⟩
  | error t =>
    obtain ⟨rfl, -⟩ := checkPc_error hp
    exact if_pos (h _ hp)

theorem fetchRest_toReference {s : State} {w : Int} (h : ∀ v t, fetchRest s w = .trap v t → ¬ IsAddedFault t) :
    fetchRest s.toReference w = fetchRest s w := by
  cases hw : decodeWord w with
  | error t => simp only [fetchRest, hw]
  | ok hd =>
    obtain ⟨t, ht, hadd⟩ | href := onlyAdds_fetchParams s hd
    · exact absurd hadd (h w t (by simp only [fetchRest, hw, ht]))
    · simp only [fetchRest, hw, href, Except.map_id, id]

/-- A fetch that raises none of the faults a finite configuration adds is the fetch of the reference machine. -/
theorem fetch_toReference {s : State}
    (h : ∀ w t, fetch s = .trap w t → ¬ IsAddedFault t ∧ (t.cause = .invalidPc → s.ip < 0)) :
    fetch s.toReference = fetch s := by
  have hpc : checkPc s.toReference = checkPc s := by
    refine checkPc_toReference fun t ht => (h 0 t (by simp only [fetch, ht])).2 ?_
    rw [(checkPc_error ht).1]
  unfold fetch at h ⊢
  rw [hpc]
  cases hp : checkPc s with
  | error t => rfl
  | ok a => exact fetchRest_toReference (w := Memory.read s.mem a) fun v t ht => (h v t (by simpa only [hp] using ht)).1

/-! ### Steps -/

/-- The end of a step in the reference configuration (R107), if its rule raised no added fault. -/
theorem conclude_toReference {w : Int} {s : State} {m m' : Except Trap (StepResult × State)}
    (hm : OnlyAdds answerToReference m m') (h : ∀ t, m = .error t → ¬ IsAddedFault t) :
    conclude w s.toReference m' = answerToReference (conclude w s m) := by
  obtain ⟨t, ht, hadd⟩ | rfl := hm
  · exact absurd hadd (h t ht)
  · cases m <;> rfl

/-- The answer of a step that shows none of what a finite configuration adds: a hold on a full `OUTQ`, ADDRESS_RANGE,
OVERFLOW, or INVALID_PC at a non-negative `IP`. -/
structure NothingAdded (s : State) (r : StepResult) : Prop where
  no_stall         : r ≠ .outputStall
  no_address_range : r ≠ .faulted .addressRange
  no_overflow      : r ≠ .faulted .overflow
  pc_negative      : r = .faulted .invalidPc → s.ip < 0

theorem NothingAdded.not_added {s : State} {t : Trap} (h : NothingAdded s (.faulted t.cause)) : ¬ IsAddedFault t := by
  rintro (ht | ht)
  · exact h.no_address_range (by rw [ht])
  · exact h.no_overflow (by rw [ht])

theorem runInstr_toReference {i : Instr} {s : State} (h : NothingAdded s (runInstr i s).1) :
    runInstr i s.toReference = answerToReference (runInstr i s) := by
  rw [runInstr_eq_conclude] at h
  rw [runInstr_eq_conclude, runInstr_eq_conclude]
  refine conclude_toReference (onlyAdds_ruleOf s i fun hr => ?_) fun t ht => ?_
  · rw [hr] at h; exact h.no_stall rfl
  · rw [ht] at h; exact h.not_added

theorem execute_of_trap {s : State} {w : Int} {t : Trap} (hf : fetch s = .trap w t) :
    execute s = (.faulted t.cause, raiseFault w t s) := by
  simp only [execute, hf]

theorem execute_of_instr {s : State} {i : Instr} (hf : fetch s = .instr i) : execute s = runInstr i s := by
  simp only [execute, hf]

theorem execute_toReference {s : State} (h : NothingAdded s (execute s).1) :
    execute s.toReference = answerToReference (execute s) := by
  have hfetch : fetch s.toReference = fetch s := by
    refine fetch_toReference fun w t hf => ?_
    rw [execute_of_trap hf] at h
    exact ⟨h.not_added, fun ht => h.pc_negative (congrArg StepResult.faulted ht)⟩
  cases hf : fetch s with
  | trap w t =>
    rw [execute_of_trap hf, execute_of_trap (hfetch.trans hf)]
    rfl
  | instr i =>
    rw [execute_of_instr hf] at h ⊢
    rw [execute_of_instr (hfetch.trans hf)]
    exact runInstr_toReference h

theorem resume_toReference {s : State} {r : StepResult × State} (hr : resume s = .next r) (h : NothingAdded s r.1) :
    resume s.toReference = .next (answerToReference r) := by
  unfold resume at hr ⊢
  rw [State.toReference_inq]
  cases hq : s.inq with
  | nil => simp only [hq] at hr; cases hr; rfl
  | cons x rest =>
    rw [State.toReference_pend]
    cases hp : s.pend with
    | none => simp only [hq, hp, reduceCtorEq] at hr
    | some p =>
      simp only [hq, hp] at hr
      cases hr
      refine congrArg Host.Outcome.next (conclude_toReference (onlyAdds_completeInput s p x rest) fun t ht => ?_)
      rw [ht] at h; exact h.not_added

/-- A step of any configuration that shows none of what a finite configuration adds is the reference machine's. -/
theorem hostStep_toReference {s : State} {r : StepResult × State} (hs : hostStep s = .next r)
    (h : NothingAdded s r.1) : hostStep s.toReference = .next (answerToReference r) := by
  unfold hostStep at hs ⊢
  rw [State.toReference_runState]
  cases hr : s.runState with
  | running =>
    simp only [hr] at hs
    cases hs
    exact congrArg Host.Outcome.next (execute_toReference h)
  | awaitingInput => simp only [hr] at hs; exact resume_toReference hs h
  | halted => simp only [hr] at hs; cases hs; rfl
  | faulted => simp only [hr] at hs; cases hs; rfl

/-- Settles O45: check by check, a configuration answers as the reference configuration or adds a fault, and the
hypotheses exclude the added faults and the hold. -/
theorem finiteConfigurationAgreesWithReference : Obligations.FiniteConfigurationAgreesWithReference := by
  unfold Obligations.FiniteConfigurationAgreesWithReference
  exact fun _ _ _ hs h1 h2 h3 h4 => hostStep_toReference hs ⟨h1, h2, h3, h4⟩

end Sys2Proof.Machine
end

