-- ==== Sys2Proof/Proofs/State.lean ====
section
/-! Only `arb` changes `RB`, the states a step holds, and the state after power-on. -/

namespace Sys2Proof.Machine

/-! ### What a step does to `RB` -/

/-- Of the effects of an instruction, only that of `arb` changes `RB` (R171). -/
theorem Effect.rb_eq_or_arb {s s' : State} {i : Instr} {r : StepResult} (h : Effect s i r s') :
    s'.rb = s.rb ∨ ∃ a, i = .arb a := by
  cases h with
  | store => exact .inl rfl
  | input => exact .inl rfl
  | suspend => exact .inl rfl
  | output => exact .inl rfl
  | stall => exact .inl rfl
  | jump => exact .inl rfl
  | @base a => exact .inr ⟨a, rfl⟩
  | halt => exact .inl rfl

theorem execute_rb_eq_or_arb (s : State) : (execute s).2.rb = s.rb ∨ ∃ a, fetch s = .instr (.arb a) := by
  obtain ⟨i, hf, he⟩ | ⟨w, t, -, -, he⟩ := execute_cases s
  · rw [he, hf]
    obtain heff | ⟨t, -, hi⟩ := runInstr_cases i s
    · exact heff.rb_eq_or_arb.imp_right fun ⟨a, ha⟩ => ⟨a, congrArg Fetched.instr ha⟩
    · rw [hi]; exact .inl rfl
  · rw [he]; exact .inl rfl

/-- A step that fetches nothing leaves `RB` as it was, whether it completes a write, faults or holds (R112, R113). -/
theorem resume_rb {s : State} {r : StepResult × State} (h : resume s = .next r) : r.2.rb = s.rb := by
  cases hq : s.inq with
  | nil => simp only [resume, hq] at h; cases h; rfl
  | cons x rest =>
    cases hp : s.pend with
    | none => simp only [resume, hq, hp, reduceCtorEq] at h
    | some p =>
      obtain ⟨-, -, hr⟩ | ⟨t, -, hr⟩ := resume_cases hq hp
      · rw [hr] at h; cases h; rfl
      · rw [hr] at h; cases h; rfl

/-! ### Steps that hold -/

theorem step_of_halted {s : State} (hr : s.runState = .halted) : step s = .next s := by
  simp only [step, hr]

theorem step_of_faulted {s : State} (hr : s.runState = .faulted) : step s = .next s := by
  simp only [step, hr]

theorem resume_of_inq_nil {s : State} (hq : s.inq = []) : resume s = .next (.suspended, s) := by
  simp only [resume, hq]

theorem hostStep_of_halted {s : State} (hr : s.runState = .halted) : hostStep s = .next (.halted, s) := by
  simp only [hostStep, hr]

theorem hostStep_of_faulted {s : State} (hr : s.runState = .faulted) :
    hostStep s = .next (.faulted s.faultCause, s) := by
  simp only [hostStep, hr]

theorem hostStep_of_awaitingInput {s : State} (hr : s.runState = .awaitingInput) : hostStep s = resume s := by
  simp only [hostStep, hr]

/-! ### The state after LOAD -/

/-- A legal configuration with a canonical memory of words below the top meets the invariant right after LOAD: 0 is a
word, the queues and the latch are empty, and the fault record is clear (R34, R250). -/
theorem Invariant.initial {c : Config} {m : Memory} (hc : c.wf = true) (hm : Memory.wf m = true)
    (hcells : ∀ e ∈ m, belowTop c e.1 = true ∧ fit c e.2 = true) : Invariant (State.initial c m) where
  config_legal := hc
  mem_canonical := hm
  mem_cells := hcells
  ip_word := fit_zero c
  rb_word := fit_zero c
  input_queue := ⟨by simp, by simp⟩
  output_queue := ⟨by simp, by simp⟩
  latch_iff := by simp
  latch_matches := by simp
  record_clear := fun _ => ⟨rfl, rfl, rfl, rfl⟩
  record_set := by simp

/-! ### The obligations -/

/-- Settles O36: a running core changes `RB` by the effect of `arb` only; a resumption does not touch it, and the
terminal states hold. -/
theorem onlyAdjustBaseChangesRb : Obligations.OnlyAdjustBaseChangesRb := by
  unfold Obligations.OnlyAdjustBaseChangesRb
  intro s s' hs hrb
  cases hr : s.runState with
  | running =>
    rw [step_of_running hr] at hs
    cases hs
    exact ⟨rfl, (execute_rb_eq_or_arb s).resolve_left hrb⟩
  | awaitingInput =>
    rw [step_of_awaitingInput hr, resumeState_next_iff] at hs
    obtain ⟨r, hres⟩ := hs
    exact absurd (resume_rb hres) hrb
  | halted => rw [step_of_halted hr] at hs; cases hs; exact absurd rfl hrb
  | faulted => rw [step_of_faulted hr] at hs; cases hs; exact absurd rfl hrb

/-- Settles O29: one equation of `step` and one of `hostStep` for each of the states that hold. -/
theorem terminalAndWaitingStatesHold : Obligations.TerminalAndWaitingStatesHold := by
  unfold Obligations.TerminalAndWaitingStatesHold
  intro s
  refine ⟨fun hr => ⟨step_of_halted hr, hostStep_of_halted hr⟩,
    fun hr => ⟨step_of_faulted hr, hostStep_of_faulted hr⟩, fun hr hq => ?_⟩
  have hres := resume_of_inq_nil hq
  exact ⟨by rw [step_of_awaitingInput hr, resumeState_next_iff]; exact ⟨_, hres⟩,
    (hostStep_of_awaitingInput hr).trans hres⟩

/-- Settles O41: power-on is the state after LOAD of an empty memory in the reference configuration, which is legal. -/
theorem resetMeetsInvariant : Obligations.ResetMeetsInvariant := by
  unfold Obligations.ResetMeetsInvariant
  exact Invariant.initial rfl reset_wf (by simp)

end Sys2Proof.Machine
end

