-- ==== Sys2Proof/Proofs/Memory.lean ====
section
/-! What the memory port reads and writes, what an instruction leaves alone, and which cells a step can change. -/

namespace Sys2Proof.Machine

/-! ### Reading a canonical memory -/

/-- An address below every listed cell reads 0 (R53). -/
theorem read_of_lt_low {a : Nat} : ∀ {m : Memory} {low : Nat}, Memory.wfFrom low m = true → a < low →
    Memory.read m a = 0
  | [], _, _, _ => rfl
  | (b, v) :: m, low, hm, ha => by
    obtain ⟨hb, -, hrest⟩ := wfFrom_cons.1 hm
    rw [Memory.read, if_neg (by omega), read_of_lt_low hrest (by omega)]

theorem read_cons {a b : Nat} {v : Int} {m : Memory} (hm : Memory.wfFrom (a + 1) m = true) :
    Memory.read (Memory.cons a v m) b = if b = a then v else Memory.read m b := by
  obtain rfl | hb := eq_or_ne b a
  · unfold Memory.cons
    split
    · next hv => rw [read_of_lt_low hm (by omega), if_pos rfl, hv]
    · simp [Memory.read]
  · unfold Memory.cons
    rw [if_neg hb]
    split
    · rfl
    · rw [Memory.read, if_neg hb.symm]

theorem read_write_of_wfFrom {a b : Nat} {v : Int} : ∀ {m : Memory} {low : Nat}, Memory.wfFrom low m = true →
    Memory.read (Memory.write m a v) b = if b = a then v else Memory.read m b
  | [], _, _ => read_cons rfl
  | (c, u) :: m, low, hm => by
    obtain ⟨-, hu, hrest⟩ := wfFrom_cons.1 hm
    unfold Memory.write
    split
    · next hac => exact read_cons (wfFrom_cons.2 ⟨hac, hu, hrest⟩)
    · split
      · next hac =>
        subst hac
        rw [read_cons hrest, Memory.read]
        split
        · rfl
        · next hba => rw [if_neg (Ne.symm hba)]
      · next hac =>
        rw [Memory.read, Memory.read, read_write_of_wfFrom hrest]
        obtain rfl | hbc := eq_or_ne b c
        · simp only [if_neg (Ne.symm hac)]
        · simp only [if_neg hbc.symm]

/-- A write to a canonical memory changes the word of the one cell it names (R52). -/
theorem read_write {m : Memory} (hm : Memory.wf m = true) (a b : Nat) (v : Int) :
    Memory.read (Memory.write m a v) b = if b = a then v else Memory.read m b :=
  read_write_of_wfFrom hm

theorem read_write_of_ne {m : Memory} (hm : Memory.wf m = true) {a b : Nat} (v : Int) (h : b ≠ a) :
    Memory.read (Memory.write m a v) b = Memory.read m b := by
  rw [read_write hm, if_neg h]

/-- A listed cell does not hold 0, so a memory that reads alike there cannot have all its addresses above it. -/
theorem low_le_of_read_eq {a low : Nat} {v : Int} {m m' : Memory} (hv : v ≠ 0) (hm' : Memory.wfFrom low m' = true)
    (h : Memory.read ((a, v) :: m) a = Memory.read m' a) : low ≤ a := by
  by_contra hlt
  rw [read_of_lt_low hm' (by omega), Memory.read, if_pos rfl] at h
  exact hv h

theorem eq_of_read_eq : ∀ {m m' : Memory} {low : Nat}, Memory.wfFrom low m = true → Memory.wfFrom low m' = true →
    (∀ a, Memory.read m a = Memory.read m' a) → m = m'
  | [], [], _, _, _, _ => rfl
  | [], (b, u) :: m', _, _, hm', h => by
    obtain ⟨-, hu, -⟩ := wfFrom_cons.1 hm'
    exact absurd (low_le_of_read_eq (low := b + 1) hu rfl (h b).symm) (by omega)
  | (a, v) :: m, [], _, hm, _, h => by
    obtain ⟨-, hv, -⟩ := wfFrom_cons.1 hm
    exact absurd (low_le_of_read_eq (low := a + 1) hv rfl (h a)) (by omega)
  | (a, v) :: m, (b, u) :: m', low, hm, hm', h => by
    obtain ⟨-, hv, hrest⟩ := wfFrom_cons.1 hm
    obtain ⟨-, hu, hrest'⟩ := wfFrom_cons.1 hm'
    obtain rfl : a = b := le_antisymm
      (low_le_of_read_eq hu (wfFrom_cons.2 ⟨le_rfl, hv, hrest⟩) (h b).symm)
      (low_le_of_read_eq hv (wfFrom_cons.2 ⟨le_rfl, hu, hrest'⟩) (h a))
    obtain rfl : v = u := by simpa [Memory.read] using h a
    have htail : ∀ c, Memory.read m c = Memory.read m' c := by
      intro c
      obtain hc | hc := Nat.lt_or_ge a c
      · simpa [Memory.read, hc.ne] using h c
      · rw [read_of_lt_low hrest (by omega), read_of_lt_low hrest' (by omega)]
    rw [eq_of_read_eq hrest hrest' htail]

/-! ### The memory port -/

theorem belowTop_iff {c : Config} {a : Int} : belowTop c a = true ↔ ∀ m : Nat, c.memWords = some m → a < m := by
  unfold belowTop
  split <;> simp_all

theorem memRead_missing {s : State} {a : Int} (h : cellExists s.cfg a = false) :
    memRead s a = .error (addressTrap a) := by
  rw [memRead, checkAddress_missing h, error_bind]

theorem memWrite_missing {s : State} {a v : Int} (h : cellExists s.cfg a = false) :
    memWrite s a v = .error (addressTrap a) := by
  rw [memWrite, checkAddress_missing h, error_bind]

theorem memWrite_unfit {s : State} {a v : Int} (ha : cellExists s.cfg a = true) (hv : fit s.cfg v = false) :
    memWrite s a v = .error (overflowTrap v) := by
  rw [memWrite, checkAddress_of_exists ha, ok_bind, requireFit_unfit hv, error_bind]

/-! ### What an instruction leaves alone -/

/-- An instruction has its effect or enters a fault. -/
theorem exec_cases {i : Instr} {s s' : State} (h : exec i s = .next s') :
    (∃ r, Effect s i r s') ∨ ∃ t, s' = raiseFault i.word t s := by
  rw [exec_eq_runInstr] at h
  cases h
  obtain heff | ⟨t, -, hi⟩ := runInstr_cases i s
  · exact .inl ⟨_, heff⟩
  · exact .inr ⟨t, by rw [hi]⟩

theorem effAddr_of_writesTo {s : State} {p : Param} {t : Int} (h : WritesTo s p t) (k : Nat) :
    effAddr s k p = .ok t.toNat := effAddr_ok_iff.2 ⟨t, h, rfl⟩

theorem effAddr_ne_error {s : State} {p : Param} {t : Int} {k : Nat} {e : Trap} (h : WritesTo s p t) :
    effAddr s k p ≠ .error e := by
  rw [effAddr_of_writesTo h]; nofun

/-- A store to the cell a parameter names leaves every cell but that of its `effAddr` as it was. -/
theorem read_write_of_writesTo {s : State} {p : Param} {t v : Int} {k n : Nat} (h : WritesTo s p t)
    (hn : effAddr s k p = .ok n) (hm : Memory.wf s.mem = true) {j : Nat} (hj : j ≠ n) :
    Memory.read (Memory.write s.mem t.toNat v) j = Memory.read s.mem j := by
  rw [effAddr_of_writesTo h] at hn
  cases hn
  exact read_write_of_ne hm v hj

/-- The effect of `add`, `mul`, `lt` and `eq` is a store to the cell their third parameter names. -/
theorem Effect.eq_store {s s' : State} {i : Instr} {a b c : Param} {r : StepResult}
    (hi : i ∈ [.add a b c, .mul a b c, .lt a b c, .eq a b c]) (h : Effect s i r s') :
    ∃ t v, WritesTo s c t ∧ s' = (s.setMem (Memory.write s.mem t.toNat v)).setIp (s.ip + 4) := by
  cases h with
  | @store _ a' b' c' t v hi' ht =>
    obtain rfl : c' = c := by
      simp only [List.mem_cons, List.not_mem_nil, or_false] at hi
      obtain rfl | rfl | rfl | rfl := hi <;> simp_all
    exact ⟨t, v, ht, rfl⟩
  | jump hi' =>
    simp only [List.mem_cons, List.not_mem_nil, or_false] at hi'
    obtain rfl | rfl := hi' <;> simp at hi
  | _ => simp at hi

/-- The effect of `out`, `jt`, `jf`, `arb` and `hlt` is on registers and the output queue, each with its own writer. -/
theorem Effect.eq_registers {s s' : State} {i : Instr} {a b : Param} {r : StepResult}
    (hi : i ∈ [.out a, .jt a b, .jf a b, .arb a, .hlt]) (h : Effect s i r s') :
    ∃ ip rb outq, s' = { s with ip, rb, outq, runState := if i = .hlt then .halted else s.runState } ∧
      (i ≠ .arb a → rb = s.rb) ∧ (i ≠ .out a → outq = s.outq) ∧ (i = .hlt → ip = s.ip) := by
  cases h with
  | store hi' =>
    simp only [List.mem_cons, List.not_mem_nil, or_false] at hi'
    obtain rfl | rfl | rfl | rfl := hi' <;> simp at hi
  | input => simp at hi
  | suspend => simp at hi
  | @output a' x =>
    obtain rfl : a' = a := by simpa using hi
    exact ⟨s.ip + 2, s.rb, s.outq ++ [x], rfl, by simp, by simp, by simp⟩
  | stall => exact ⟨s.ip, s.rb, s.outq, rfl, by simp, by simp, by simp⟩
  | @jump _ _ _ n hi' =>
    have hne : i ≠ .hlt := by rintro rfl; simp at hi'
    exact ⟨n, s.rb, s.outq, by rw [if_neg hne]; rfl, by simp, by simp, fun h => absurd h hne⟩
  | @base a' x =>
    obtain rfl : a' = a := by simpa using hi
    exact ⟨s.ip + 2, s.rb + x, s.outq, rfl, by simp, by simp, by simp⟩
  | halt => exact ⟨s.ip, s.rb, s.outq, rfl, by simp, by simp, by simp⟩

/-! ### Which cells a step can change -/

/-- The memory of `s'` is that of `s`, or that of `s` after one write. -/
def WritesAtMostOnce (s s' : State) : Prop :=
  s'.mem = s.mem ∨ ∃ (a : Nat) (v : Int), s'.mem = Memory.write s.mem a v

/-- Two cells that differ after at most one write are one cell. -/
theorem WritesAtMostOnce.changed_unique {s s' : State} (h : WritesAtMostOnce s s') (hm : Memory.wf s.mem = true)
    {m n : Nat} (hmc : Memory.read s'.mem m ≠ Memory.read s.mem m) (hnc : Memory.read s'.mem n ≠ Memory.read s.mem n) :
    m = n := by
  obtain heq | ⟨a, v, heq⟩ := h
  · exact absurd (by rw [heq]) hmc
  · rw [heq] at hmc hnc
    have hma : m = a := not_imp_comm.1 (read_write_of_ne hm v) hmc
    have hna : n = a := not_imp_comm.1 (read_write_of_ne hm v) hnc
    rw [hma, hna]

theorem Effect.writesAtMostOnce {s s' : State} {i : Instr} {r : StepResult} (h : Effect s i r s') :
    WritesAtMostOnce s s' := by
  cases h with
  | store => exact .inr ⟨_, _, rfl⟩
  | input => exact .inr ⟨_, _, rfl⟩
  | _ => exact .inl rfl

theorem exec_writesAtMostOnce {i : Instr} {s s' : State} (h : exec i s = .next s') : WritesAtMostOnce s s' := by
  obtain ⟨r, he⟩ | ⟨t, rfl⟩ := exec_cases h
  · exact he.writesAtMostOnce
  · exact .inl rfl

theorem resume_writesAtMostOnce {s : State} {r : StepResult × State} (h : resume s = .next r) :
    WritesAtMostOnce s r.2 := by
  cases hq : s.inq with
  | nil => rw [resume_of_inq_nil hq] at h; cases h; exact .inl rfl
  | cons x rest =>
    cases hp : s.pend with
    | none => simp only [resume, hq, hp, reduceCtorEq] at h
    | some p =>
      obtain ⟨-, -, hr⟩ | ⟨t, -, hr⟩ := resume_cases hq hp
      · rw [hr] at h; cases h; exact .inr ⟨_, _, rfl⟩
      · rw [hr] at h; cases h; exact .inl rfl

theorem step_of_trap {s : State} {w : Int} {t : Trap} (hr : s.runState = .running) (hf : fetch s = .trap w t) :
    step s = .next (raiseFault w t s) := by
  simp only [step, hr, hf]

theorem step_of_instr {s : State} {i : Instr} (hr : s.runState = .running) (hf : fetch s = .instr i) :
    step s = exec i s := by
  simp only [step, hr, hf]

theorem step_writesAtMostOnce {s s' : State} (h : step s = .next s') : WritesAtMostOnce s s' := by
  cases hr : s.runState with
  | running =>
    cases hf : fetch s with
    | trap w t => rw [step_of_trap hr hf] at h; cases h; exact .inl rfl
    | instr i => rw [step_of_instr hr hf] at h; exact exec_writesAtMostOnce h
  | awaitingInput =>
    rw [step_of_awaitingInput hr, resumeState_next_iff] at h
    obtain ⟨r, hres⟩ := h
    exact resume_writesAtMostOnce hres
  | halted => rw [step_of_halted hr] at h; cases h; exact .inl rfl
  | faulted => rw [step_of_faulted hr] at h; cases h; exact .inl rfl

/-! ### Several cores -/

/-- An operation on one core modifies one entry of the list of cores. -/
theorem systemDo_eq_modify (op : HostOp) : ∀ (k : Nat) (sys : System),
    systemDo k op sys = sys.modify k fun s => (hostDo op s).2
  | 0, [] => rfl
  | _ + 1, [] => rfl
  | 0, _ :: _ => rfl
  | k + 1, s :: rest => by rw [systemDo, systemDo_eq_modify op k rest, List.modify_succ_cons]

/-! ### The obligations -/

/-- Settles O8: a read at a missing cell is the address fault, and an existing cell is read. -/
theorem memReadFaultsOrReturnsCell : Obligations.MemReadFaultsOrReturnsCell := by
  unfold Obligations.MemReadFaultsOrReturnsCell
  intro s a
  refine ⟨fun ha => ?_, fun m hm ha => ?_, fun ha hb => ?_⟩
  · rw [memRead_missing (by simp [cellExists, ha]), addressTrap, if_pos ha]
  · rw [memRead_missing (by simp [cellExists, belowTop, hm, ha]), addressTrap, if_neg (by omega)]
  · exact memRead_ok_iff.2 ⟨cellExists_iff.2 ⟨ha, belowTop_iff.2 hb⟩, rfl⟩

/-- Settles O9: the checks in their order, then the read-after-write law of a canonical memory. -/
theorem memWriteFaultsOrStores : Obligations.MemWriteFaultsOrStores := by
  unfold Obligations.MemWriteFaultsOrStores
  intro s a v
  refine ⟨memWrite_missing, memWrite_unfit, fun ha hv hm => ?_⟩
  exact ⟨Memory.write s.mem a.toNat v, memWrite_ok_iff.2 ⟨ha, hv, rfl⟩, by rw [read_write hm, if_pos rfl],
    fun b hb => read_write_of_ne hm v hb⟩

/-- Settles O10: by induction on the two lists, whose first addresses are the first that do not read 0. -/
theorem canonicalMemoriesThatReadAlikeAreEqual : Obligations.CanonicalMemoriesThatReadAlikeAreEqual := by
  unfold Obligations.CanonicalMemoriesThatReadAlikeAreEqual
  exact fun _ _ hm hm' h => eq_of_read_eq hm hm' h

/-- Settles O22: the effect is a store to the cell c names, and a fault writes the record and `STATE` only. -/
theorem frameOfMemoryResults : Obligations.FrameOfMemoryResults := by
  unfold Obligations.FrameOfMemoryResults
  intro s s' i a b c hi hs
  obtain ⟨r, he⟩ | ⟨t, rfl⟩ := exec_cases hs
  · obtain ⟨t, v, ht, rfl⟩ := he.eq_store hi
    exact ⟨rfl, rfl, rfl, rfl, rfl, .inr ⟨rfl, rfl, rfl, rfl, rfl⟩, fun hf => absurd hf.2 hf.1,
      fun _ hn hm _ hj => read_write_of_writesTo ht hn hm hj, fun _ hn => absurd hn (effAddr_ne_error ht)⟩
  · exact ⟨rfl, rfl, rfl, rfl, rfl, .inl rfl, fun _ => ⟨rfl, rfl⟩, fun _ _ _ _ _ => rfl, fun _ _ => rfl⟩

/-- Settles O23: the effect is on registers and the output queue, each with its own writer, and a fault writes the
record and `STATE` only. -/
theorem frameOfRegisterResults : Obligations.FrameOfRegisterResults := by
  unfold Obligations.FrameOfRegisterResults
  intro s s' i a b hi hs
  obtain ⟨r, he⟩ | ⟨t, rfl⟩ := exec_cases hs
  · obtain ⟨ip, rb, outq, rfl, hrb, houtq, hip⟩ := he.eq_registers hi
    refine ⟨rfl, rfl, rfl, rfl, hrb, houtq, hip, .inr ⟨⟨rfl, rfl, rfl, rfl⟩, rfl⟩, ?_⟩
    rintro ⟨hne, hf⟩
    dsimp only at hf
    split at hf
    · cases hf
    · exact absurd hf hne
  · exact ⟨rfl, rfl, rfl, rfl, fun _ => rfl, fun _ => rfl, fun _ => rfl, .inl rfl, fun _ => ⟨rfl, rfl, rfl⟩⟩

/-- Settles O24: with an input the effect is a store to the cell a names, without one it is the suspension, and a
fault writes the record and `STATE` only. -/
theorem frameOfInput : Obligations.FrameOfInput := by
  unfold Obligations.FrameOfInput
  intro s s' a hs
  obtain ⟨r, he⟩ | ⟨t, rfl⟩ := exec_cases hs
  · cases he with
    | store hi => simp at hi
    | jump hi => simp at hi
    | input ht hq =>
      exact ⟨rfl, rfl, rfl, .inr ⟨rfl, rfl, rfl, rfl⟩, fun hf => absurd hf.2 hf.1,
        fun hnil => absurd (hq.symm.trans hnil) (by simp), fun _ => ⟨rfl, .inr rfl⟩,
        fun _ hn hm _ hj => read_write_of_writesTo ht hn hm hj, fun _ hn => absurd hn (effAddr_ne_error ht)⟩
    | suspend ht hq =>
      exact ⟨rfl, rfl, rfl, .inr ⟨rfl, rfl, rfl, rfl⟩, fun hf => absurd hf.2 (by simp), fun _ => ⟨rfl, rfl, hq⟩,
        fun hne => absurd hq hne, fun _ _ _ _ _ => rfl, fun _ hn => absurd hn (effAddr_ne_error ht)⟩
  · exact ⟨rfl, rfl, rfl, .inl rfl, fun _ => ⟨rfl, rfl, rfl, rfl⟩, fun hnil => ⟨rfl, rfl, hnil⟩,
      fun _ => ⟨rfl, .inl rfl⟩, fun _ _ _ _ _ => rfl, fun _ _ => ⟨rfl, rfl, rfl⟩⟩

/-- Settles O38: a step writes memory at most once, and the frame of the register results leaves all of it. -/
theorem stepChangesAtMostOneCell : Obligations.StepChangesAtMostOneCell := by
  unfold Obligations.StepChangesAtMostOneCell
  intro s s' hm hs
  refine ⟨fun m n => (step_writesAtMostOnce hs).changed_unique hm, fun a b hr hfetch => ?_⟩
  obtain ⟨i, hi, hf⟩ :=
    List.mem_map.1 (show fetch s ∈ [.out a, .jt a b, .jf a b, .arb a, .hlt].map Fetched.instr from hfetch)
  rw [step_of_instr hr hf.symm] at hs
  obtain ⟨-, hmem, -⟩ := frameOfRegisterResults s s' i a b hi hs
  exact hmem

/-- Settles O54: a system operation is `List.modify` at the index of its core. -/
theorem coresShareNoState : Obligations.CoresShareNoState := by
  unfold Obligations.CoresShareNoState
  intro sys op k
  rw [systemDo_eq_modify]
  exact ⟨List.getElem?_modify_eq _ _ _, fun j hj => List.getElem?_modify_ne _ _ hj.symm⟩

end Sys2Proof.Machine
end

