-- ==== Sys2Proof/Proofs/DecodeEncode.lean ====
section
/-! The decoder and the encoder are inverse (R86, R87), and what the decoder refuses (R79 to R83). -/

namespace Sys2Proof

open Sys2Proof.Machine

/-! ### Legal decodings -/

@[simp] theorem mem_readModes (m : Mode) : m ∈ readModes := by cases m <;> decide

@[simp] theorem mem_writeModes {m : Mode} : m ∈ writeModes ↔ m ≠ .immediate := by cases m <;> decide

@[simp] theorem Param.writable_iff {p : Param} : p.writable = true ↔ p.mode ≠ .immediate := by
  obtain ⟨m, v⟩ := p
  cases m <;> simp [Param.writable]

theorem ne_immediate_of_writeMode {n k : Nat} {m : Mode} (h : writeMode n k = .ok m) : m ≠ .immediate := by
  unfold writeMode at h
  split at h <;> cases h <;> decide

/-- An instruction is well-formed exactly if its opcode and modes are a legal decoding (R81, R84). -/
theorem Instr.wellFormed_iff {i : Instr} : i.wellFormed = true ↔ i.head ∈ legalHeads := by
  cases i <;> simp [Instr.wellFormed, Instr.head, legalHeads, headsRRW, headsRR]

theorem mem_headsRRW_of_headRRW {mk : Mode → Mode → Mode → Head} {n : Nat} {hd : Head}
    (h : headRRW mk n = .ok hd) : hd ∈ headsRRW mk := by
  simp only [headRRW, bind_ok_iff] at h
  obtain ⟨a, -, b, -, c, hc, -, -, h⟩ := h
  cases h
  simp only [headsRRW, List.mem_flatMap, List.mem_map]
  exact ⟨a, mem_readModes a, b, mem_readModes b, c, mem_writeModes.2 (ne_immediate_of_writeMode hc), rfl⟩

theorem mem_headsRR_of_headRR {mk : Mode → Mode → Head} {n : Nat} {hd : Head} (h : headRR mk n = .ok hd) :
    hd ∈ headsRR mk := by
  simp only [headRR, bind_ok_iff] at h
  obtain ⟨a, -, b, -, -, -, h⟩ := h
  cases h
  simp only [headsRR, List.mem_flatMap, List.mem_map]
  exact ⟨a, mem_readModes a, b, mem_readModes b, rfl⟩

theorem mem_map_of_headR {mk : Mode → Head} {n : Nat} {hd : Head} (h : headR mk n = .ok hd) :
    hd ∈ readModes.map mk := by
  simp only [headR, bind_ok_iff] at h
  obtain ⟨a, -, -, -, h⟩ := h
  cases h
  exact List.mem_map_of_mem (mem_readModes a)

theorem mem_map_of_headW {mk : Mode → Head} {n : Nat} {hd : Head} (h : headW mk n = .ok hd) :
    hd ∈ writeModes.map mk := by
  simp only [headW, bind_ok_iff] at h
  obtain ⟨a, ha, -, -, h⟩ := h
  cases h
  exact List.mem_map_of_mem (mem_writeModes.2 (ne_immediate_of_writeMode ha))

theorem eq_of_headNone {mk hd : Head} {n : Nat} (h : headNone mk n = .ok hd) : hd = mk := by
  simp only [headNone, bind_ok_iff] at h
  obtain ⟨-, -, h⟩ := h
  cases h
  rfl

theorem mem_legalHeads_of_decodeNat {n : Nat} {hd : Head} (h : decodeNat n = .ok hd) : hd ∈ legalHeads := by
  simp only [legalHeads, List.mem_append, List.mem_singleton, or_assoc]
  unfold decodeNat at h
  split at h
  case h_1 => simp only [mem_headsRRW_of_headRRW h, true_or]
  case h_2 => simp only [mem_headsRRW_of_headRRW h, true_or, or_true]
  case h_3 => simp only [mem_map_of_headW h, true_or, or_true]
  case h_4 => simp only [mem_map_of_headR h, true_or, or_true]
  case h_5 => simp only [mem_headsRR_of_headRR h, true_or, or_true]
  case h_6 => simp only [mem_headsRR_of_headRR h, true_or, or_true]
  case h_7 => simp only [mem_headsRRW_of_headRRW h, true_or, or_true]
  case h_8 => simp only [mem_headsRRW_of_headRRW h, true_or, or_true]
  case h_9 => simp only [mem_map_of_headR h, true_or, or_true]
  case h_10 => simp only [eq_of_headNone h, or_true]
  case h_11 => cases h

/-- Each of the 99 legal decodings is what its word decodes to (R84, R87). -/
theorem decodeWord_encodeHead : ∀ hd ∈ legalHeads, decodeWord (encodeHead hd) = .ok hd := by decide

/-- The words that decode are those of the legal decodings (R84). -/
theorem decodeWord_eq_ok_iff {w : Int} {hd : Head} :
    decodeWord w = .ok hd ↔ hd ∈ legalHeads ∧ encodeHead hd = w := by
  constructor
  · intro h
    refine ⟨?_, encodeHead_of_decodeWord h⟩
    unfold decodeWord at h
    split at h
    · cases h
    · exact mem_legalHeads_of_decodeNat h
  · rintro ⟨hd, rfl⟩
    exact decodeWord_encodeHead _ hd

/-! ### Instructions -/

/-- The raw parameters of the instruction of a decoding are the first of the words given to it (R70). -/
theorem Head.raws_instr (hd : Head) (v1 v2 v3 : Int) :
    (hd.instr v1 v2 v3).raws = [v1, v2, v3].take hd.nparams := by
  cases hd <;> rfl

/-- A list of words decodes to the instruction of its first word's decoding and as many raw parameters as that
has (R70, R85). -/
theorem decode_cons_eq_ok_iff {w : Int} {vs rest : List Int} {i : Instr} :
    decode (w :: vs) = .ok (i, rest) ↔ decodeWord w = .ok i.head ∧ vs = i.raws ++ rest := by
  constructor
  · intro h
    cases hw : decodeWord w with
    | error t => simp [decode, hw] at h
    | ok hd =>
      simp only [decode, hw] at h
      split at h <;> cases h
      all_goals next hn => simp [Head.raws_instr, hn]
  · rintro ⟨hw, rfl⟩
    cases i <;> simp [decode, hw, Instr.head, Head.nparams, Head.instr, Instr.raws]

/-- Settles O1: the word of a well-formed instruction is that of a legal decoding, and its raw parameters follow. -/
theorem decodeOfEncode : Obligations.DecodeOfEncode := by
  unfold Obligations.DecodeOfEncode
  intro i rest hi
  exact decode_cons_eq_ok_iff.2 ⟨decodeWord_eq_ok_iff.2 ⟨Instr.wellFormed_iff.1 hi, rfl⟩, rfl⟩

/-- A list that is exactly the words of a well-formed instruction decodes to it, and no word is left. -/
theorem decode_of_encode_eq {i : Instr} {ws : List Int} (hi : i.wellFormed = true) (hws : encode i = ws) :
    decode ws = .ok (i, []) := by
  rw [← hws, ← List.append_nil (encode i)]
  exact decodeOfEncode i [] hi

/-- Settles O2: the first word decodes legally to the instruction's opcode and modes, so it is their encoding. -/
theorem encodeOfDecode : Obligations.EncodeOfDecode := by
  unfold Obligations.EncodeOfDecode
  intro ws rest i h
  cases ws with
  | nil => cases h
  | cons w vs =>
    obtain ⟨hw, rfl⟩ := decode_cons_eq_ok_iff.1 h
    obtain ⟨hlegal, rfl⟩ := decodeWord_eq_ok_iff.1 hw
    exact ⟨Instr.wellFormed_iff.2 hlegal, rfl⟩

/-- Settles O3: the legal words are the encodings of the legal decodings; that they are 99, different and in range is
counted. -/
theorem legalWordsAreNinetyNine : Obligations.LegalWordsAreNinetyNine := by
  unfold Obligations.LegalWordsAreNinetyNine
  refine ⟨by decide, by decide, fun w => ?_, by decide⟩
  simp only [decodeWord_eq_ok_iff, legalWords, List.mem_map]

/-! ### What the decoder refuses -/

/-- The mode digit of parameter `k`, read as the opcode's role for it says (R74). -/
def modeAt (n k : Nat) : Except Trap Mode :=
  if (n % 100, k) ∈ writeParams then writeMode n k else readMode n k

theorem modeAt_of_illegalDigit {n k : Nat} (h : illegalDigit n k = true) :
    modeAt n k = .error { cause := .illegalMode, info := k } := by
  unfold illegalDigit at h
  unfold modeAt readMode writeMode
  split <;> split <;> simp_all

theorem modeAt_of_legalDigit {n k : Nat} (h : illegalDigit n k = false) : ∃ m, modeAt n k = .ok m := by
  unfold illegalDigit at h
  unfold modeAt readMode writeMode
  split <;> split <;> simp_all
  all_goals omega

/-- With a legal opcode the decoder reads the mode digits in ascending order and then the digits above them (R71). -/
theorem decodeNat_eq_modes {n params : Nat} (h : (n % 100, params) ∈ opcodeParams) :
    ∃ mk : List Mode → Head, decodeNat n = (List.range' 1 params).mapM (modeAt n) >>= fun ms =>
      checkExcess n params >>= fun _ => .ok (mk ms) := by
  simp only [opcodeParams, List.mem_cons, Prod.mk.injEq, List.not_mem_nil, or_false] at h
  obtain ⟨hop, rfl⟩ | ⟨hop, rfl⟩ | ⟨hop, rfl⟩ | ⟨hop, rfl⟩ | ⟨hop, rfl⟩ | ⟨hop, rfl⟩ | ⟨hop, rfl⟩ | ⟨hop, rfl⟩ |
    ⟨hop, rfl⟩ | ⟨hop, rfl⟩ := h
  · refine ⟨fun | [a, b, c] => .add a b c | _ => .hlt, ?_⟩
    simp [decodeNat, hop, headRRW, modeAt, writeParams, List.range']
  · refine ⟨fun | [a, b, c] => .mul a b c | _ => .hlt, ?_⟩
    simp [decodeNat, hop, headRRW, modeAt, writeParams, List.range']
  · refine ⟨fun | [a] => .inp a | _ => .hlt, ?_⟩
    simp [decodeNat, hop, headW, modeAt, writeParams, List.range']
  · refine ⟨fun | [a] => .out a | _ => .hlt, ?_⟩
    simp [decodeNat, hop, headR, modeAt, writeParams, List.range']
  · refine ⟨fun | [a, b] => .jt a b | _ => .hlt, ?_⟩
    simp [decodeNat, hop, headRR, modeAt, writeParams, List.range']
  · refine ⟨fun | [a, b] => .jf a b | _ => .hlt, ?_⟩
    simp [decodeNat, hop, headRR, modeAt, writeParams, List.range']
  · refine ⟨fun | [a, b, c] => .lt a b c | _ => .hlt, ?_⟩
    simp [decodeNat, hop, headRRW, modeAt, writeParams, List.range']
  · refine ⟨fun | [a, b, c] => .eq a b c | _ => .hlt, ?_⟩
    simp [decodeNat, hop, headRRW, modeAt, writeParams, List.range']
  · refine ⟨fun | [a] => .arb a | _ => .hlt, ?_⟩
    simp [decodeNat, hop, headR, modeAt, writeParams, List.range']
  · refine ⟨fun _ => .hlt, ?_⟩
    simp [decodeNat, hop, headNone, List.range']

theorem mapM_modeAt_of_legal {n : Nat} : ∀ {ks : List Nat}, (∀ k ∈ ks, illegalDigit n k = false) →
    ∃ ms, ks.mapM (modeAt n) = .ok ms
  | [], _ => ⟨[], rfl⟩
  | k :: ks, h => by
    obtain ⟨hk, hks⟩ := List.forall_mem_cons.1 h
    obtain ⟨m, hm⟩ := modeAt_of_legalDigit hk
    obtain ⟨ms, hms⟩ := mapM_modeAt_of_legal hks
    exact ⟨m :: ms, by rw [List.mapM_cons, hm, hms]; rfl⟩

theorem mapM_modeAt_of_first_illegal {n k : Nat} {ks ks' : List Nat} (hks : ∀ j ∈ ks, illegalDigit n j = false)
    (hk : illegalDigit n k = true) :
    (ks ++ k :: ks').mapM (modeAt n) = .error { cause := .illegalMode, info := k } := by
  obtain ⟨ms, hms⟩ := mapM_modeAt_of_legal hks
  rw [List.mapM_append, List.mapM_cons, hms, modeAt_of_illegalDigit hk]
  rfl

@[simp] theorem decodeWord_natCast (n : Nat) : decodeWord n = decodeNat n := by
  simp [decodeWord]

/-- The parameter indexes, cut at the parameter `k`. -/
theorem range'_eq_append_cons {k params : Nat} (h1 : 1 ≤ k) (hk : k ≤ params) :
    List.range' 1 params = List.range' 1 (k - 1) ++ k :: List.range' (k + 1) (params - k) := by
  obtain ⟨j, rfl⟩ := Nat.exists_eq_add_of_le' h1
  rw [← List.range'_succ, Nat.add_sub_cancel, Nat.add_comm j 1, List.range'_append_1]
  congr 1
  omega

/-- Settles O4: the sign is looked at first, and `decodeNat` then has an arm for the ten opcodes only. -/
theorem decodeRefusesWordsWithoutOpcode : Obligations.DecodeRefusesWordsWithoutOpcode := by
  unfold Obligations.DecodeRefusesWordsWithoutOpcode
  refine ⟨fun w hw => if_pos hw, fun n h => ?_⟩
  rw [decodeWord_natCast]
  have hop : n % 100 ∉ opcodeParams.map Prod.fst := fun hmem => by
    obtain ⟨⟨op, k⟩, hk, rfl⟩ := List.mem_map.1 hmem
    exact h k hk
  unfold decodeNat
  split
  case h_11 => rfl
  all_goals next hn => exact absurd (hn ▸ by decide) hop

/-- Settles O5: the mode digits are read in ascending order, and the first that is illegal ends the decoding. -/
theorem decodeRefusesIllegalModeDigits : Obligations.DecodeRefusesIllegalModeDigits := by
  unfold Obligations.DecodeRefusesIllegalModeDigits
  intro n params k hop h1 hk hbad hbefore
  obtain ⟨mk, hmk⟩ := decodeNat_eq_modes hop
  have hks : ∀ j ∈ List.range' 1 (k - 1), illegalDigit n j = false := fun j hj => by
    rw [List.mem_range'_1] at hj
    exact hbefore j hj.1 (by omega)
  rw [decodeWord_natCast, hmk, range'_eq_append_cons h1 hk, mapM_modeAt_of_first_illegal hks hbad]
  rfl

/-- Settles O6: when the mode digits are legal, the digits above them are looked at. -/
theorem decodeRefusesExcessDigits : Obligations.DecodeRefusesExcessDigits := by
  unfold Obligations.DecodeRefusesExcessDigits
  intro n params hop hlegal hexcess
  obtain ⟨mk, hmk⟩ := decodeNat_eq_modes hop
  have hks : ∀ k ∈ List.range' 1 params, illegalDigit n k = false := fun k hk => by
    rw [List.mem_range'_1] at hk
    exact hlegal k hk.1 (by omega)
  obtain ⟨ms, hms⟩ := mapM_modeAt_of_legal hks
  rw [decodeWord_natCast, hmk, hms, checkExcess, if_neg hexcess]
  rfl

/-- Settles O7: each row is the encoding of its instruction, so O1 gives its decoding. -/
theorem writtenOutWordsDecode : Obligations.WrittenOutWordsDecode := by
  unfold Obligations.WrittenOutWordsDecode
  refine ⟨?_, ?_, ?_, ?_, ?_, ?_, ?_, ?_⟩ <;> exact decode_of_encode_eq rfl rfl

end Sys2Proof
end

