-- ==== Sys2Proof/Proofs/ProgramText.lean ====
section
/-! The program text reads back as the program (R90, R252). -/

namespace Sys2Proof.Machine

/-! ### Characters -/

/-- A decimal digit, or the sign of a number. -/
def isNumberChar (c : Char) : Bool := c.isDigit || c == '-'

theorem digitValue_digitChar : ∀ d < 10, digitValue (digitChar d) = some d := by decide

theorem isDigit_digitChar : ∀ d < 10, (digitChar d).isDigit = true := by decide

/-- What passes a test is not what fails it. -/
theorem ne_of_test {α : Type} {p : α → Bool} {a b : α} (ha : p a = true) (hb : p b = false) : a ≠ b := by
  rintro rfl
  simp [ha] at hb

/-- The characters that are blanks (assumption 12). -/
theorem isBlank_iff {c : Char} : isBlank c = true ↔ c ∈ [' ', '\t', '\n', '\r'] := by
  simp [isBlank, or_assoc]

/-- A character that passes a test all blanks fail is no blank. -/
theorem isBlank_of_test {p : Char → Bool} (hp : [' ', '\t', '\n', '\r'].all (! p ·) = true) {c : Char}
    (h : p c = true) : isBlank c = false := by
  rw [← Bool.not_eq_true, isBlank_iff]
  intro hmem
  simpa [h] using List.all_eq_true.1 hp c hmem

theorem isBlank_of_isNumberChar {c : Char} : isNumberChar c = true → isBlank c = false :=
  isBlank_of_test rfl

/-! ### Numbers -/

theorem printDigits_isDigit {fuel n : Nat} {acc : List Char} (hacc : ∀ c ∈ acc, c.isDigit = true) :
    ∀ c ∈ printDigits fuel n acc, c.isDigit = true := by
  induction fuel generalizing n acc with
  | zero => exact hacc
  | succ fuel ih =>
    rw [printDigits]
    split
    · next hn => exact List.forall_mem_cons.2 ⟨isDigit_digitChar n hn, hacc⟩
    · exact ih (List.forall_mem_cons.2 ⟨isDigit_digitChar _ (Nat.mod_lt _ (by decide)), hacc⟩)

theorem printNat_isDigit (n : Nat) : ∀ c ∈ printNat n, c.isDigit = true :=
  printDigits_isDigit (by simp)

/-- The printed digits in front of `acc` read as the number they print, and reading goes on behind them. -/
theorem readDigits_printDigits {fuel n : Nat} (acc : List Char) (h : n < fuel) :
    readDigits 0 (printDigits fuel n acc) = readDigits n acc := by
  induction fuel generalizing n acc with
  | zero => omega
  | succ fuel ih =>
    rw [printDigits]
    split
    · next hn => simp [readDigits, digitValue_digitChar n hn]
    · rw [ih _ (by omega), readDigits, digitValue_digitChar _ (Nat.mod_lt _ (by decide))]
      simp only [Nat.div_add_mod]

theorem printDigits_ne_nil {fuel n : Nat} (acc : List Char) (h : n < fuel) : printDigits fuel n acc ≠ [] := by
  induction fuel generalizing n acc with
  | zero => omega
  | succ fuel ih =>
    rw [printDigits]
    split
    · exact List.cons_ne_nil _ _
    · exact ih _ (by omega)

theorem printNat_ne_nil (n : Nat) : printNat n ≠ [] := printDigits_ne_nil [] (Nat.lt_succ_self n)

@[simp] theorem readNat_printNat (n : Nat) : readNat (printNat n) = some n := by
  obtain ⟨c, cs, hp⟩ := List.exists_cons_of_ne_nil (printNat_ne_nil n)
  have h : readDigits 0 (printNat n) = some n := readDigits_printDigits [] (Nat.lt_succ_self n)
  rw [hp] at h ⊢
  exact h

theorem readInt_of_readNat {cs : List Char} {n : Nat} (h : ∀ c ∈ cs, c.isDigit = true) (hn : readNat cs = some n) :
    readInt cs = some (n : Int) := by
  cases cs with
  | nil => cases hn
  | cons c cs => rw [readInt, if_neg (ne_of_test (h c List.mem_cons_self) (by decide)), hn]; rfl

theorem readInt_minus {cs : List Char} {n : Nat} (hn : readNat cs = some n) :
    readInt ('-' :: cs) = some (-(n : Int)) := by
  rw [readInt, if_pos rfl, hn]; rfl

@[simp] theorem readInt_printInt (v : Int) : readInt (printInt v) = some v := by
  unfold printInt
  split
  · rw [readInt_minus (readNat_printNat _)]
    exact congrArg some (by omega)
  · rw [readInt_of_readNat (printNat_isDigit _) (readNat_printNat _)]
    exact congrArg some (by omega)

theorem printInt_isNumberChar (v : Int) : ∀ c ∈ printInt v, isNumberChar c = true := by
  have hnat : ∀ c ∈ printNat v.natAbs, isNumberChar c = true := fun c hc => by
    rw [isNumberChar, printNat_isDigit _ c hc, Bool.true_or]
  unfold printInt
  split
  · exact List.forall_mem_cons.2 ⟨by decide, hnat⟩
  · exact hnat

/-! ### Blanks around a text -/

/-- The text begins and ends with characters that are not blanks, so it is not empty. -/
structure Trimmed (cs : List Char) : Prop where
  head : ∃ c ∈ cs.head?, isBlank c = false
  last : ∃ c ∈ cs.getLast?, isBlank c = false

theorem Trimmed.ne_nil {cs : List Char} (h : Trimmed cs) : cs ≠ [] := by
  rintro rfl
  simpa using h.head

theorem trimmed_of_no_blank {cs : List Char} (hne : cs ≠ []) (h : ∀ c ∈ cs, isBlank c = false) : Trimmed cs :=
  ⟨⟨_, List.head?_eq_some_head hne, h _ (List.head_mem hne)⟩,
    ⟨_, List.getLast?_eq_some_getLast hne, h _ (List.getLast_mem hne)⟩⟩

/-- Only the two ends count. -/
theorem Trimmed.append {a b : List Char} (ha : Trimmed a) (hb : Trimmed b) (mid : List Char) :
    Trimmed (a ++ mid ++ b) := by
  obtain ⟨c, hc, hcb⟩ := ha.head
  obtain ⟨d, hd, hdb⟩ := hb.last
  exact ⟨⟨c, by simp_all, hcb⟩, ⟨d, by simp_all, hdb⟩⟩

/-- Trimming removes the blanks around a text and nothing of the text. -/
theorem trimBlanks_append {front cs back : List Char} (hf : front.all isBlank = true) (hcs : Trimmed cs)
    (hb : back.all isBlank = true) : trimBlanks (front ++ cs ++ back) = cs := by
  rw [List.all_eq_true] at hf hb
  obtain ⟨⟨c, hc, hcb⟩, ⟨d, hd, hdb⟩⟩ := hcs
  have hfront : (front ++ cs ++ back).dropWhile isBlank = cs ++ back := by
    rw [List.append_assoc, List.dropWhile_append_of_pos hf]
    obtain ⟨cs, rfl⟩ := List.head?_eq_some_iff.1 hc
    simp [hcb]
  obtain ⟨cs, rfl⟩ := List.getLast?_eq_some_iff.1 hd
  rw [trimBlanks, hfront, List.reverse_append, List.dropWhile_append_of_pos (by simpa using hb)]
  simp [hdb]

theorem trimBlanks_blanks_append {front cs : List Char} (hf : front.all isBlank = true) (hcs : Trimmed cs) :
    trimBlanks (front ++ cs) = cs := by
  simpa using trimBlanks_append hf hcs (back := []) rfl

theorem Trimmed.trimBlanks {cs : List Char} (h : Trimmed cs) : trimBlanks cs = cs :=
  trimBlanks_blanks_append (front := []) rfl h

theorem trimmed_printInt (v : Int) : Trimmed (printInt v) := by
  refine trimmed_of_no_blank (fun h => ?_) fun c hc => isBlank_of_isNumberChar (printInt_isNumberChar v c hc)
  simpa [h, readInt] using readInt_printInt v

/-! ### Pieces between separators -/

theorem joinWith_cons_cons (sep p q : List Char) (ps : List (List Char)) :
    joinWith sep (p :: q :: ps) = p ++ sep ++ joinWith sep (q :: ps) := rfl

theorem joinWith_append_cons (sep a p : List Char) (ps : List (List Char)) :
    joinWith sep ((a ++ p) :: ps) = a ++ joinWith sep (p :: ps) := by
  cases ps <;> simp [joinWith]

theorem Trimmed.joinWith {sep : List Char} : ∀ {ps : List (List Char)}, ps ≠ [] → (∀ p ∈ ps, Trimmed p) →
    Trimmed (joinWith sep ps)
  | [p], _, h => h p List.mem_cons_self
  | p :: q :: ps, _, h => by
    obtain ⟨hp, hps⟩ := List.forall_mem_cons.1 h
    exact hp.append (Trimmed.joinWith (List.cons_ne_nil q ps) hps) sep

/-- A character of joined pieces is one of a piece or of the separator. -/
theorem forall_mem_joinWith {P : Char → Prop} {sep : List Char} (hsep : ∀ c ∈ sep, P c) :
    ∀ {ps : List (List Char)}, (∀ p ∈ ps, ∀ c ∈ p, P c) → ∀ c ∈ joinWith sep ps, P c
  | [], _ => by simp [Machine.joinWith]
  | [p], h => h p List.mem_cons_self
  | p :: q :: ps, h => by
    obtain ⟨hp, hps⟩ := List.forall_mem_cons.1 h
    rw [joinWith_cons_cons]
    simp only [List.forall_mem_append]
    exact ⟨⟨hp, hsep⟩, forall_mem_joinWith hsep hps⟩

theorem splitCommas_of_no_comma : ∀ {p : List Char}, ',' ∉ p → splitCommas p = [p]
  | [], _ => rfl
  | c :: p, h => by
    rw [List.mem_cons, not_or] at h
    simp [splitCommas, Ne.symm h.1, splitCommas_of_no_comma h.2]

theorem splitCommas_append_comma (cs : List Char) : ∀ {p : List Char}, ',' ∉ p →
    splitCommas (p ++ ',' :: cs) = p :: splitCommas cs
  | [], _ => rfl
  | c :: p, h => by
    rw [List.mem_cons, not_or] at h
    simp [splitCommas, Ne.symm h.1, splitCommas_append_comma cs h.2]

/-- Splitting at commas undoes joining with a comma and `sep`, which then stands before each piece but the first. -/
theorem splitCommas_joinWith {sep : List Char} (hsep : ',' ∉ sep) : ∀ {p : List Char} {ps : List (List Char)},
    ',' ∉ p → (∀ q ∈ ps, ',' ∉ q) → splitCommas (joinWith (',' :: sep) (p :: ps)) = p :: ps.map (sep ++ ·)
  | p, [], hp, _ => splitCommas_of_no_comma hp
  | p, q :: ps, hp, hps => by
    obtain ⟨hq, hps⟩ := List.forall_mem_cons.1 hps
    have hsq : ',' ∉ sep ++ q := by simp [hsep, hq]
    rw [joinWith_cons_cons, List.append_assoc, List.cons_append, splitCommas_append_comma _ hp,
      ← joinWith_append_cons, splitCommas_joinWith hsep hsq hps, List.map_cons]

theorem readAll_map {α β : Type} {read : List Char → Option α} {f : β → List Char} {g : β → α} :
    ∀ {xs : List β}, (∀ x ∈ xs, read (f x) = some (g x)) → readAll read (xs.map f) = some (xs.map g)
  | [], _ => rfl
  | x :: xs, h => by
    obtain ⟨hx, hxs⟩ := List.forall_mem_cons.1 h
    simp [readAll, hx, readAll_map hxs]

/-! ### The program text -/

/-- Settles O58: the text is trimmed, has a comma between its integers only, and each integer reads back. -/
theorem programTextRoundTrip : Obligations.ProgramTextRoundTrip := by
  unfold Obligations.ProgramTextRoundTrip
  intro p front back hp hfront hback
  have htrim : Trimmed (printProgram p) := Trimmed.joinWith (by simpa using hp) (by simp [trimmed_printInt])
  have hcomma : ∀ v, ',' ∉ printInt v := fun v h => absurd (printInt_isNumberChar v _ h) (by decide)
  obtain ⟨v, vs, rfl⟩ := List.exists_cons_of_ne_nil hp
  have hsplit : splitCommas (printProgram (v :: vs)) = (v :: vs).map printInt := by
    have h := splitCommas_joinWith (sep := []) (by simp) (hcomma v) (ps := vs.map printInt) (by simp [hcomma])
    simpa [printProgram, Function.comp_def] using h
  rw [readProgram, trimBlanks_append hfront htrim hback, hsplit, readAll_map (g := id) (by simp), List.map_id]

end Sys2Proof.Machine
end

