-- ==== Sys2Proof/Proofs/Assembly.lean ====
section
/-! The assembler on an instruction's printed text and on the pseudo-instructions (R88, R89). -/

namespace Sys2Proof.Machine

/-! ### Assembling one instruction -/

/-- The operand R88 prints for a parameter. -/
def operandOf (p : Param) : AsmOperand :=
  match p.mode with
  | .position  => .cell (.number p.raw)
  | .immediate => .immediate (.number p.raw)
  | .relative  => .relative (.number p.raw)

/-- The mnemonic R78 gives an instruction. -/
def mnemonicOf : Instr → Mnemonic
  | .add _ _ _ => .add
  | .mul _ _ _ => .mul
  | .inp _     => .inp
  | .out _     => .out
  | .jt _ _    => .jt
  | .jf _ _    => .jf
  | .lt _ _ _  => .lt
  | .eq _ _ _  => .eq
  | .arb _     => .arb
  | .hlt       => .hlt

theorem resolveOperand_of_number {labels : Labels} {o : AsmOperand} {v : Int} (h : o.value = .number v) :
    resolveOperand labels o = some ⟨o.mode, v⟩ := by
  rw [resolveOperand, h]
  rfl

theorem resolveOperand_operandOf (labels : Labels) (p : Param) : resolveOperand labels (operandOf p) = some p := by
  obtain ⟨m, v⟩ := p
  cases m <;> rfl

theorem resolveAll_map {α β : Type} {resolve : α → Option β} {f : β → α} (h : ∀ y, resolve (f y) = some y) :
    ∀ ys : List β, resolveAll resolve (ys.map f) = some ys
  | [] => rfl
  | y :: ys => by simp [resolveAll, h, resolveAll_map h ys]

/-- Only the expansion of an instruction is assembled (R89). -/
theorem assemble_of_expandPseudo_eq {m m' : Mnemonic} {os os' : List AsmOperand}
    (h : expandPseudo m os = expandPseudo m' os') : assemble [.instr m os] = assemble [.instr m' os'] := by
  simp only [assemble, collectLabels, assembleItems, assembleItem, h]

theorem buildInstr_params {i : Instr} (h : i.wellFormed = true) : buildInstr (mnemonicOf i) i.params = some i := by
  cases i <;> simp [buildInstr, mnemonicOf, Instr.params, h]

/-- A mnemonic and operands that expand to a well-formed instruction assemble to its words (R88). -/
theorem assemble_eq_encode {m : Mnemonic} {os os' : List AsmOperand} {i : Instr} (hi : i.wellFormed = true)
    (hexp : expandPseudo m os = (mnemonicOf i, os')) (hps : resolveAll (resolveOperand []) os' = some i.params) :
    assemble [.instr m os] = some (encode i) := by
  simp [assemble, collectLabels, assembleItems, assembleItem, hexp, hps, buildInstr_params hi]

theorem expandPseudo_mnemonicOf (i : Instr) (os : List AsmOperand) :
    expandPseudo (mnemonicOf i) os = (mnemonicOf i, os) := by
  cases i <;> rfl

/-! ### Pseudo-instructions -/

@[simp] theorem resolveOperand_asmImmediate (labels : Labels) (v : Int) :
    resolveOperand labels (asmImmediate v) = some ⟨.immediate, v⟩ := rfl

theorem headNumber_immediate_second (op m1 m3 : Nat) :
    headNumber op m1 Mode.immediate.digit m3 = op + 1000 * 1 + 100 * m1 + 10000 * m3 := by
  simp only [headNumber, Mode.digit]
  omega

theorem headNumber_immediate_first (op m2 : Nat) :
    headNumber op Mode.immediate.digit m2 0 = (op + 100 : Nat) + 1000 * m2 := by
  simp only [headNumber, Mode.digit]
  omega

/-- The operands of the expansions of `mov` and `neg`: `k` stands between the source and the destination. -/
theorem resolveAll_source_immediate_dest {s d : AsmOperand} {u k v : Int} (hs : s.value = .number u)
    (hd : d.value = .number v) : resolveAll (resolveOperand []) [s, asmImmediate k, d] =
      some [⟨s.mode, u⟩, ⟨.immediate, k⟩, ⟨d.mode, v⟩] := by
  simp [resolveAll, resolveOperand_of_number hs, resolveOperand_of_number hd]

/-- Settles O59: a pseudo-instruction expands to the operands of its row, which assemble to the row's numbers. -/
theorem pseudoInstructionsExpand : Obligations.PseudoInstructionsExpand := by
  unfold Obligations.PseudoInstructionsExpand
  refine ⟨fun s d u v hs hd hmode => ?_, fun t u ht => ?_, by decide, by decide⟩
  · have hps := fun k => resolveAll_source_immediate_dest (k := k) hs hd
    refine ⟨assemble_of_expandPseudo_eq rfl, ?_, assemble_of_expandPseudo_eq rfl, ?_⟩
    · rw [assemble_eq_encode (i := .add ⟨s.mode, u⟩ ⟨.immediate, 0⟩ ⟨d.mode, v⟩) (Param.writable_iff.2 hmode) rfl
        (hps 0)]
      exact congrArg (fun w => some [w, u, 0, v]) (headNumber_immediate_second 1 _ _)
    · rw [assemble_eq_encode (i := .mul ⟨s.mode, u⟩ ⟨.immediate, -1⟩ ⟨d.mode, v⟩) (Param.writable_iff.2 hmode) rfl
        (hps (-1))]
      exact congrArg (fun w => some [w, u, -1, v]) (headNumber_immediate_second 2 _ _)
  · have hps : resolveAll (resolveOperand []) [asmImmediate 1, t] = some [⟨.immediate, 1⟩, ⟨t.mode, u⟩] := by
      simp [resolveAll, resolveOperand_of_number ht]
    refine ⟨assemble_of_expandPseudo_eq rfl, ?_⟩
    rw [assemble_eq_encode (i := .jt ⟨.immediate, 1⟩ ⟨t.mode, u⟩) rfl rfl hps]
    exact congrArg (fun w => some [w, 1, u]) (headNumber_immediate_first 5 _)

/-! ### Characters of a printed instruction -/

/-- A character of a mnemonic or of an operand as R88 writes them. -/
def isTokenChar (c : Char) : Bool := c.isAlphanum || c ∈ ['-', '[', ']', '+']

theorem isBlank_of_isTokenChar {c : Char} : isTokenChar c = true → isBlank c = false :=
  isBlank_of_test rfl

theorem isTokenChar_of_isDigit {c : Char} (h : c.isDigit = true) : isTokenChar c = true := by
  simp [isTokenChar, Char.isAlphanum, h]

theorem isTokenChar_of_isNumberChar {c : Char} (h : isNumberChar c = true) : isTokenChar c = true := by
  rw [isNumberChar, Bool.or_eq_true, beq_iff_eq] at h
  obtain h | rfl := h
  · exact isTokenChar_of_isDigit h
  · decide

theorem mnemonicText_isTokenChar (i : Instr) : ∀ c ∈ mnemonicText i, isTokenChar c = true := by
  rw [← List.all_eq_true]
  cases i <;> rfl

theorem mnemonicText_ne_nil (i : Instr) : mnemonicText i ≠ [] := by
  cases i <;> exact List.cons_ne_nil _ _

theorem bracketed_isTokenChar {inner : List Char} (h : ∀ c ∈ inner, isTokenChar c = true) :
    ∀ c ∈ '[' :: inner ++ [']'], isTokenChar c = true :=
  List.forall_mem_append.2 ⟨List.forall_mem_cons.2 ⟨rfl, h⟩, List.forall_mem_singleton.2 rfl⟩

theorem rb_isTokenChar {sign : Char} (h : isTokenChar sign = true) (n : Nat) :
    ∀ c ∈ 'r' :: 'b' :: sign :: printNat n, isTokenChar c = true := by
  simp only [List.forall_mem_cons]
  exact ⟨rfl, rfl, h, fun c hc => isTokenChar_of_isDigit (printNat_isDigit n c hc)⟩

theorem printParam_isTokenChar (p : Param) : ∀ c ∈ printParam p, isTokenChar c = true := by
  have hint : ∀ c ∈ printInt p.raw, isTokenChar c = true := fun c hc =>
    isTokenChar_of_isNumberChar (printInt_isNumberChar _ c hc)
  unfold printParam
  split
  · exact bracketed_isTokenChar hint
  · exact hint
  · split
    · exact bracketed_isTokenChar (rb_isTokenChar rfl _)
    · exact bracketed_isTokenChar (rb_isTokenChar rfl _)

theorem printParam_ne_nil (p : Param) : printParam p ≠ [] := by
  unfold printParam
  split
  · exact List.cons_ne_nil _ _
  · exact (trimmed_printInt _).ne_nil
  · split <;> exact List.cons_ne_nil _ _

theorem trimmed_of_isTokenChar {cs : List Char} (hne : cs ≠ []) (h : ∀ c ∈ cs, isTokenChar c = true) : Trimmed cs :=
  trimmed_of_no_blank hne fun c hc => isBlank_of_isTokenChar (h c hc)

theorem trimmed_mnemonicText (i : Instr) : Trimmed (mnemonicText i) :=
  trimmed_of_isTokenChar (mnemonicText_ne_nil i) (mnemonicText_isTokenChar i)

theorem trimmed_printParam (p : Param) : Trimmed (printParam p) :=
  trimmed_of_isTokenChar (printParam_ne_nil p) (printParam_isTokenChar p)

theorem trimmed_joinWith_printParam (p : Param) (ps : List Param) :
    Trimmed (joinWith [',', ' '] ((p :: ps).map printParam)) :=
  Trimmed.joinWith (List.cons_ne_nil _ _) (List.forall_mem_map.2 fun q _ => trimmed_printParam q)

theorem trimmed_rb {sign : Char} (h : isTokenChar sign = true) (n : Nat) :
    Trimmed ('r' :: 'b' :: sign :: printNat n) :=
  trimmed_of_isTokenChar (List.cons_ne_nil _ _) (rb_isTokenChar h n)

/-! ### Reading the printed operands -/

theorem readValue_printInt (v : Int) : readValue (printInt v) = some (.number v) := by
  rw [readValue, (trimmed_printInt v).trimBlanks, readInt_printInt]

theorem readOperand_blanks {front cs : List Char} (hf : front.all isBlank = true) (hcs : Trimmed cs) :
    readOperand (front ++ cs) = readOperand cs := by
  rw [readOperand, readOperand, trimBlanks_blanks_append hf hcs, hcs.trimBlanks]

/-- The bracket forms of an operand. -/
theorem readOperand_bracket (inner : List Char) : readOperand ('[' :: inner ++ [']']) = readBracket inner := by
  have h : Trimmed (['['] ++ inner ++ [']']) :=
    Trimmed.append ⟨⟨'[', rfl, rfl⟩, ⟨'[', rfl, rfl⟩⟩ ⟨⟨']', rfl, rfl⟩, ⟨']', rfl, rfl⟩⟩ inner
  rw [readOperand, show '[' :: inner ++ [']'] = ['['] ++ inner ++ [']'] from rfl, h.trimBlanks]
  simp

theorem readBracket_printInt (v : Int) : readBracket (printInt v) = some (.cell (.number v)) := by
  have hr : ∀ cs, printInt v ≠ 'r' :: cs := fun cs h =>
    absurd (printInt_isNumberChar v 'r' (h ▸ List.mem_cons_self)) (by decide)
  rw [readBracket, (trimmed_printInt v).trimBlanks]
  split
  · next h => exact absurd h (hr _)
  · next h => exact absurd h (hr _)
  · rw [readValue_printInt]; rfl

theorem printInt_natCast (n : Nat) : printInt n = printNat n := by
  simp [printInt]

theorem readBracket_rb_plus (n : Nat) :
    readBracket ('r' :: 'b' :: '+' :: printNat n) = some (.relative (.number n)) := by
  rw [readBracket, (trimmed_rb rfl n).trimBlanks, ← printInt_natCast]
  simp [readValue_printInt]

theorem readBracket_rb_minus (n : Nat) :
    readBracket ('r' :: 'b' :: '-' :: printNat n) = some (.relative (.number (-(n : Int)))) := by
  have hn : Trimmed (printNat n) := printInt_natCast n ▸ trimmed_printInt n
  rw [readBracket, (trimmed_rb rfl n).trimBlanks]
  simp [hn.trimBlanks]

theorem readOperand_printParam (p : Param) : readOperand (printParam p) = some (operandOf p) := by
  obtain ⟨m, v⟩ := p
  cases m with
  | position => exact (readOperand_bracket _).trans (readBracket_printInt v)
  | immediate =>
    have ht := trimmed_printInt v
    obtain ⟨c, cs, hc⟩ := List.exists_cons_of_ne_nil ht.ne_nil
    have hb : c ≠ '[' := ne_of_test (printInt_isNumberChar v c (hc ▸ List.mem_cons_self)) (by decide)
    rw [printParam, readOperand, ht.trimBlanks, hc]
    simp only [if_neg hb]
    rw [← hc, readValue_printInt]
    rfl
  | relative =>
    unfold printParam operandOf
    simp only
    split
    · next hv =>
      refine (readOperand_bracket _).trans ((readBracket_rb_minus _).trans ?_)
      rw [show -(v.natAbs : Int) = v by omega]
    · next hv =>
      refine (readOperand_bracket _).trans ((readBracket_rb_plus _).trans ?_)
      rw [show (v.natAbs : Int) = v by omega]

theorem readOperands_blanks {front cs : List Char} (hf : front.all isBlank = true) (hcs : Trimmed cs) :
    readOperands (front ++ cs) = readAll readOperand (splitCommas cs) := by
  obtain ⟨c, rest, rfl⟩ := List.exists_cons_of_ne_nil hcs.ne_nil
  rw [readOperands, trimBlanks_blanks_append hf hcs]

/-- What R88 writes behind the mnemonic: nothing, or a blank and the operands. -/
def operandsText : List Param → List Char
  | [] => []
  | p :: ps => ' ' :: joinWith [',', ' '] ((p :: ps).map printParam)

theorem printInstr_eq (i : Instr) : printInstr i = mnemonicText i ++ operandsText i.params := by
  unfold printInstr
  cases i.params <;> simp [operandsText]

theorem readOperands_operandsText (ps : List Param) : readOperands (operandsText ps) = some (ps.map operandOf) := by
  cases ps with
  | nil => rfl
  | cons p ps =>
    have hcomma : ∀ q, ',' ∉ printParam q := fun q h => absurd (printParam_isTokenChar q _ h) (by decide)
    have hsplit := splitCommas_joinWith (sep := [' ']) (by decide) (hcomma p) (ps := ps.map printParam)
      (by simp [hcomma])
    have hps : readAll readOperand (ps.map fun q => ' ' :: printParam q) = some (ps.map operandOf) :=
      readAll_map fun q _ =>
        (readOperand_blanks (front := [' ']) rfl (trimmed_printParam q)).trans (readOperand_printParam q)
    refine (readOperands_blanks (front := [' ']) rfl (trimmed_joinWith_printParam p ps)).trans ?_
    rw [List.map_cons, hsplit]
    simp [readAll, readOperand_printParam, Function.comp_def, hps]

/-! ### Reading the printed line -/

theorem findMnemonic_mnemonicText (i : Instr) : findMnemonic (mnemonicText i) mnemonicNames = some (mnemonicOf i) := by
  cases i <;> rfl

theorem mnemonicText_ne_word (i : Instr) : mnemonicText i ≠ ".word".toList := by
  cases i <;> exact ne_of_beq_false rfl

theorem readStatement_printInstr (i : Instr) :
    readStatement (printInstr i) = some (.instr (mnemonicOf i) (i.params.map operandOf)) := by
  have hm : ∀ c ∈ mnemonicText i, (!isBlank c) = true := fun c hc => by
    rw [isBlank_of_isTokenChar (mnemonicText_isTokenChar i c hc), Bool.not_false]
  have hname : (operandsText i.params).takeWhile (fun c => !isBlank c) = [] := by
    cases i.params <;> rfl
  have hrest : (operandsText i.params).dropWhile (fun c => !isBlank c) = operandsText i.params := by
    cases i.params <;> rfl
  rw [printInstr_eq, readStatement, List.takeWhile_append_of_pos hm, List.dropWhile_append_of_pos hm, hname, hrest,
    List.append_nil]
  simp only [if_neg (mnemonicText_ne_word i), findMnemonic_mnemonicText, readOperands_operandsText]

/-- A line with no `:` that holds a statement. -/
theorem readLine_of_statement {line : List Char} {item : AsmItem} (ht : Trimmed line) (hcolon : ':' ∉ line)
    (hs : readStatement line = some item) : readLine line = some [item] := by
  have hall : ∀ c ∈ line, (c != ':') = true := fun c hc => bne_iff_ne.2 (ne_of_mem_of_not_mem hc hcolon)
  rw [readLine, ht.trimBlanks, List.takeWhile_eq_self_iff.2 hall, List.dropWhile_eq_nil_iff.2 hall]
  simp [ht.ne_nil, hs]

theorem splitLines_of_no_newline : ∀ {text : List Char}, '\n' ∉ text → splitLines text = [text]
  | [], _ => rfl
  | c :: text, h => by
    rw [List.mem_cons, not_or] at h
    simp [splitLines, Ne.symm h.1, splitLines_of_no_newline h.2]

/-- A text of one line that holds one statement. -/
theorem assembleText_of_statement {text : List Char} {item : AsmItem} (ht : Trimmed text) (hcolon : ':' ∉ text)
    (hline : '\n' ∉ text) (hs : readStatement text = some item) : assembleText text = assemble [item] := by
  simp [assembleText, readSource, splitLines_of_no_newline hline, readAll, readLine_of_statement ht hcolon hs]

theorem trimmed_printInstr (i : Instr) : Trimmed (printInstr i) := by
  rw [printInstr_eq]
  cases i.params with
  | nil => simpa [operandsText] using trimmed_mnemonicText i
  | cons p ps =>
    simpa [operandsText] using (trimmed_mnemonicText i).append (trimmed_joinWith_printParam p ps) [' ']

/-- A printed instruction holds the characters of its tokens and separators only, so neither `:` nor a newline. -/
theorem not_mem_printInstr {b : Char} (hb : isTokenChar b = false) (hsep : b ∉ [',', ' ']) (i : Instr) :
    b ∉ printInstr i := by
  have htok : ∀ c, isTokenChar c = true → c ≠ b := fun c hc => ne_of_test hc hb
  have hseps : ∀ c ∈ [',', ' '], c ≠ b := fun c hc => ne_of_mem_of_not_mem hc hsep
  have hops : ∀ c ∈ operandsText i.params, c ≠ b := by
    cases i.params with
    | nil => simp [operandsText]
    | cons p ps =>
      refine List.forall_mem_cons.2 ⟨hseps _ (by simp), forall_mem_joinWith hseps ?_⟩
      simp only [List.forall_mem_map]
      exact fun q _ c hc => htok c (printParam_isTokenChar q c hc)
  rw [printInstr_eq]
  intro hmem
  obtain hm | hm := List.mem_append.1 hmem
  · exact htok b (mnemonicText_isTokenChar i b hm) rfl
  · exact hops b hm rfl

/-- Settles O60: the printed line is one statement, and it reads as the mnemonic and operands of the instruction. -/
theorem assemblyOfPrintedInstruction : Obligations.AssemblyOfPrintedInstruction := by
  unfold Obligations.AssemblyOfPrintedInstruction
  intro i hi
  rw [assembleText_of_statement (trimmed_printInstr i) (not_mem_printInstr rfl (by decide) i)
    (not_mem_printInstr rfl (by decide) i) (readStatement_printInstr i)]
  exact assemble_eq_encode hi (expandPseudo_mnemonicOf i _) (resolveAll_map (resolveOperand_operandOf []) _)

end Sys2Proof.Machine
end

