-- ==== Sys2Proof/Proofs/Fetch.lean ====
section
/-! What a fetch gives (R102 to R104), and the first operand address that names no cell (R105). -/

namespace Sys2Proof.Machine

/-! ### Fetching -/

/-- The fetch at an existing cell goes on with the word in it (R102, R103). -/
theorem fetch_of_exists {s : State} (h : cellExists s.cfg s.ip = true) : fetch s = fetchRest s (s.cell s.ip) := by
  simp only [fetch, checkPc_ok_iff.2 ⟨h, rfl⟩, State.cell]

theorem fetchRest_of_illegal {s : State} {w : Int} {t : Trap} (hw : decodeWord w = .error t) :
    fetchRest s w = .trap w t := by
  simp only [fetchRest, hw]

theorem fetchRest_of_params_error {s : State} {w : Int} {hd : Head} {t : Trap} (hw : decodeWord w = .ok hd)
    (hp : fetchParams s hd = .error t) : fetchRest s w = .trap w t := by
  simp only [fetchRest, hw, hp]

theorem fetchParam_of_exists {s : State} {n k : Nat} (h : k ≤ n → cellExists s.cfg (s.ip + k) = true) :
    fetchParam s n k = .ok (if k ≤ n then s.cell (s.ip + k) else 0) := by
  rw [fetchParam_ok_iff]
  exact ⟨fun hk => ⟨h hk, if_pos hk⟩, fun hk => if_neg (by omega)⟩

/-- A cell past an existing `IP` can be missing only past a finite top (R104). -/
theorem fetchParam_missing {s : State} {n k : Nat} (hip : 0 ≤ s.ip) (hk : k ≤ n)
    (h : cellExists s.cfg (s.ip + k) = false) :
    fetchParam s n k = .error { cause := .addressRange, info := s.ip + k } := by
  rw [fetchParam, if_pos hk, memRead_missing h, addressTrap, if_neg (by omega)]

theorem nparams_le_three (hd : Head) : hd.nparams ≤ 3 := by
  cases hd <;> simp [Head.nparams]

/-- The parameter cells are read ascending, so the first that is missing ends the fetch (R104). -/
theorem fetchParams_missing {s : State} {hd : Head} {k : Nat} (hip : 0 ≤ s.ip) (h1 : 1 ≤ k) (hk : k ≤ hd.nparams)
    (hbefore : ∀ j : Nat, 1 ≤ j → j < k → cellExists s.cfg (s.ip + j) = true)
    (hmiss : cellExists s.cfg (s.ip + k) = false) :
    fetchParams s hd = .error { cause := .addressRange, info := s.ip + k } := by
  have hread : ∀ j, 1 ≤ j → j < k → ∃ v, fetchParam s hd.nparams j = .ok v := fun j h1 hj =>
    ⟨_, fetchParam_of_exists fun _ => hbefore j h1 hj⟩
  have hlast := fetchParam_missing hip hk hmiss
  have hle := nparams_le_three hd
  obtain rfl | rfl | rfl : k = 1 ∨ k = 2 ∨ k = 3 := by omega
  · rw [fetchParams, hlast, error_bind]
  · obtain ⟨v1, hv1⟩ := hread 1 (by omega) (by omega)
    rw [fetchParams, hv1, ok_bind, hlast, error_bind]
  · obtain ⟨v1, hv1⟩ := hread 1 (by omega) (by omega)
    obtain ⟨v2, hv2⟩ := hread 2 (by omega) (by omega)
    rw [fetchParams, hv1, ok_bind, hv2, ok_bind, hlast, error_bind]

/-- When the cells of a decoding exist, its raw parameters are the words in them; a word beyond its last parameter is
not looked at (R70). -/
theorem fetchParams_of_exists {s : State} {hd : Head}
    (h : ∀ k : Nat, 1 ≤ k → k ≤ hd.nparams → cellExists s.cfg (s.ip + k) = true) :
    fetchParams s hd = .ok (hd.instr (s.cell (s.ip + 1)) (s.cell (s.ip + 2)) (s.cell (s.ip + 3))) := by
  rw [fetchParams, fetchParam_of_exists (h 1 (by omega)), ok_bind, fetchParam_of_exists (h 2 (by omega)), ok_bind,
    fetchParam_of_exists (h 3 (by omega)), ok_bind]
  cases hd <;> rfl

/-- The four words from an existing `IP` on. -/
theorem cells_at_ip {s : State} (hip : 0 ≤ s.ip) :
    Memory.cells s.mem s.ip.toNat 4 =
      [s.cell s.ip, s.cell (s.ip + 1), s.cell (s.ip + 2), s.cell (s.ip + 3)] := by
  have hcell : ∀ k : Nat, Memory.read s.mem (s.ip.toNat + k) = s.cell (s.ip + k) := fun k => by
    rw [State.cell, Int.toNat_add_nat hip]
  exact congrArg (s.cell s.ip :: ·) <| congrArg₂ List.cons (hcell 1) <| congrArg₂ List.cons (hcell 2) <|
    congrArg₂ List.cons (hcell 3) rfl

/-- A legal word with three words after it decodes to the instruction with as many of them as it has parameters. -/
theorem decode_of_head {w v1 v2 v3 : Int} {hd : Head} (hw : decodeWord w = .ok hd) :
    decode [w, v1, v2, v3] = .ok (hd.instr v1 v2 v3, [v1, v2, v3].drop hd.nparams) := by
  rw [decode_cons_eq_ok_iff, Head.head_instr, Head.raws_instr, List.take_append_drop]
  exact ⟨hw, rfl⟩

/-- Where the cells of the instruction exist that the words from `IP` on decode to, the fetch gives it (R102 to
R104). -/
theorem fetch_of_decode_cells {s : State} {i : Instr} {rest : List Int}
    (hex : ∀ k : Nat, k < i.length → cellExists s.cfg (s.ip + k) = true)
    (hd : decode (Memory.cells s.mem s.ip.toNat 4) = .ok (i, rest)) : fetch s = .instr i := by
  have he : cellExists s.cfg s.ip = true := by simpa using hex 0 (Nat.succ_pos _)
  rw [cells_at_ip (cellExists_iff.1 he).1] at hd
  obtain ⟨hw, -⟩ := decode_cons_eq_ok_iff.1 hd
  have hp := fetchParams_of_exists (hd := i.head) fun k _ hk => hex k (Nat.lt_succ_of_le hk)
  obtain ⟨hi, -⟩ := Prod.mk.inj (Except.ok.inj ((decode_of_head hw).symm.trans hd))
  exact fetch_instr_iff.2 ⟨he, _, hw, hp.trans (congrArg Except.ok hi)⟩

/-! ### Operands -/

/-- A parameter has an effective value exactly if it names no missing cell (R75). -/
theorem exists_readsAs_iff {s : State} {p : Param} : (∃ x, ReadsAs s p x) ↔ AddressOk s p := by
  unfold ReadsAs AddressOk
  cases operandAddress s p with
  | none => simp
  | some a => simp

/-- A write parameter names a cell exactly if it is not immediate and its address exists. -/
theorem exists_writesTo_iff {s : State} {p : Param} :
    (∃ t, WritesTo s p t) ↔ p.mode ≠ .immediate ∧ AddressOk s p := by
  cases p with | mk m v => cases m <;> simp [WritesTo, AddressOk, operandAddress]

/-- The parameter has the address `x`, which names no cell. -/
def Misses (s : State) (x : Int) (p : Param) : Prop := operandAddress s p = some x ∧ cellExists s.cfg x = false

/-- The first parameter of the list, ascending, whose address names no cell has the address `x` (R105). -/
def FirstMisses (s : State) (x : Int) : List Param → Prop
  | [] => False
  | p :: ps => Misses s x p ∨ (AddressOk s p ∧ FirstMisses s x ps)

theorem firstMisses_append_cons {s : State} {x : Int} {p : Param} {after : List Param} (hp : Misses s x p) :
    ∀ {before : List Param}, (∀ q ∈ before, AddressOk s q) → FirstMisses s x (before ++ p :: after)
  | [], _ => .inl hp
  | q :: _, h => .inr ⟨h q (by simp), firstMisses_append_cons hp fun r hr => h r (List.mem_cons_of_mem q hr)⟩

theorem effRead_of_misses {s : State} {x : Int} {p : Param} (h : Misses s x p) :
    effRead s p = .error (addressTrap x) := by
  obtain ⟨hp, hx⟩ := h
  cases p with | mk m v =>
  cases m with
  | position => cases hp; exact memRead_missing hx
  | immediate => cases hp
  | relative => cases hp; exact memRead_missing hx

theorem effAddr_of_misses {s : State} {x : Int} {p : Param} (h : Misses s x p) (k : Nat) :
    effAddr s k p = .error (addressTrap x) := by
  obtain ⟨hp, hx⟩ := h
  cases p with | mk m v =>
  cases m with
  | position => cases hp; exact checkAddress_missing hx
  | immediate => cases hp
  | relative => cases hp; exact checkAddress_missing hx

/-- A parameter that names no missing cell can be read. -/
theorem exists_effRead_of_addressOk {s : State} {p : Param} (h : AddressOk s p) : ∃ x, effRead s p = .ok x := by
  obtain ⟨x, hx⟩ := exists_readsAs_iff.2 h
  exact ⟨x, effRead_ok_iff.2 hx⟩

section FirstMisses

variable {s : State} {x : Int}

theorem evalRR_of_firstMisses {a b : Param} (h : FirstMisses s x [a, b]) :
    evalRR s a b = .error (addressTrap x) := by
  obtain ha | ⟨ha, hb | ⟨-, ⟨⟩⟩⟩ := h
  · rw [evalRR, effRead_of_misses ha, error_bind]
  · obtain ⟨y, hy⟩ := exists_effRead_of_addressOk ha
    rw [evalRR, hy, ok_bind, effRead_of_misses hb, error_bind]

theorem evalRRW_of_firstMisses {a b c : Param} (h : FirstMisses s x [a, b, c]) :
    evalRRW s a b c = .error (addressTrap x) := by
  obtain ha | ⟨ha, hb | ⟨hb, hc | ⟨-, ⟨⟩⟩⟩⟩ := h
  · rw [evalRRW, effRead_of_misses ha, error_bind]
  · obtain ⟨y, hy⟩ := exists_effRead_of_addressOk ha
    rw [evalRRW, hy, ok_bind, effRead_of_misses hb, error_bind]
  · obtain ⟨y, hy⟩ := exists_effRead_of_addressOk ha
    obtain ⟨z, hz⟩ := exists_effRead_of_addressOk hb
    rw [evalRRW, hy, ok_bind, hz, ok_bind, effAddr_of_misses hc, error_bind]

theorem misses_of_firstMisses_singleton {a : Param} (h : FirstMisses s x [a]) : Misses s x a := by
  obtain ha | ⟨-, ⟨⟩⟩ := h
  exact ha

/-- Every rule evaluates its parameters, ascending, before anything else, so the first missing cell is its answer
(R105). -/
theorem ruleOf_of_firstMisses {i : Instr} (h : FirstMisses s x i.params) : ruleOf i s = .error (addressTrap x) := by
  cases i with
  | add a b c => rw [ruleOf, runArith, evalRRW_of_firstMisses h, error_bind]
  | mul a b c => rw [ruleOf, runArith, evalRRW_of_firstMisses h, error_bind]
  | inp a => rw [ruleOf, takeInput, effAddr_of_misses (misses_of_firstMisses_singleton h), error_bind]
  | out a => rw [ruleOf, putOutput, effRead_of_misses (misses_of_firstMisses_singleton h), error_bind]
  | jt a b => rw [ruleOf, jumpIf, evalRR_of_firstMisses h, error_bind]
  | jf a b => rw [ruleOf, jumpIf, evalRR_of_firstMisses h, error_bind]
  | lt a b c => rw [ruleOf, runCompare, evalRRW_of_firstMisses h, error_bind]
  | eq a b c => rw [ruleOf, runCompare, evalRRW_of_firstMisses h, error_bind]
  | arb a => rw [ruleOf, adjustBase, effRead_of_misses (misses_of_firstMisses_singleton h), error_bind]
  | hlt => cases h

end FirstMisses

/-! ### The obligations -/

/-- Settles O25: the decoder and the fetch read the same words, and a running core steps as the fetched instruction. -/
theorem stepRunsDecodedInstruction : Obligations.StepRunsDecodedInstruction := by
  unfold Obligations.StepRunsDecodedInstruction
  exact fun s i rest hr hex hd => step_of_instr hr (fetch_of_decode_cells hex hd)

/-- Settles O27: the fetch ends in the trap of the decoding, with the word it read. -/
theorem illegalWordFaults : Obligations.IllegalWordFaults := by
  unfold Obligations.IllegalWordFaults
  intro s t hr he hw
  exact step_of_trap hr ((fetch_of_exists he).trans (fetchRest_of_illegal hw))

/-- Settles O28: the fetch ends at the first missing parameter cell, with the word it read. -/
theorem missingParameterCellFaults : Obligations.MissingParameterCellFaults := by
  unfold Obligations.MissingParameterCellFaults
  intro s hd k hr he hw h1 hk hbefore hmiss
  have hp := fetchParams_missing (cellExists_iff.1 he).1 h1 hk hbefore hmiss
  exact step_of_trap hr ((fetch_of_exists he).trans (fetchRest_of_params_error hw hp))

/-- Settles O21: the rule of every instruction ends at the first parameter whose cell is missing. -/
theorem firstMissingOperandCellFaults : Obligations.FirstMissingOperandCellFaults := by
  unfold Obligations.FirstMissingOperandCellFaults
  intro s i before after p x _ hl hbefore hp hx
  have hfirst : FirstMisses s x i.params := hl ▸ firstMisses_append_cons ⟨hp, hx⟩ hbefore
  rw [exec_eq_runInstr, runInstr_eq_conclude, ruleOf_of_firstMisses hfirst, conclude]

end Sys2Proof.Machine
end

