-- ==== Sys2Proof/Proofs/Transitions.lean ====
section
/-! What one step can do, said once with its result (R101, R109, R110), and what follows from it: precise faults, the
transitions of `STATE`, the resumption, and the order of a suspension and a FEED (R114). -/

namespace Sys2Proof.Machine

/-! ### `step` and its result -/

theorem hostStep_of_running {s : State} (hr : s.runState = .running) : hostStep s = .next (execute s) := by
  simp only [hostStep, hr]

/-- A running core that fetches `i` answers as `i` does. -/
theorem hostStep_of_instr {s : State} {i : Instr} (hr : s.runState = .running) (hf : fetch s = .instr i) :
    hostStep s = .next (runInstr i s) := by
  rw [hostStep_of_running hr, execute_of_instr hf]

/-- `step` is `hostStep` without its result (R194). -/
theorem step_next_iff {s s' : State} : step s = .next s' ↔ ∃ r, hostStep s = .next (r, s') := by
  cases hr : s.runState with
  | running => simp [step_of_running hr, hostStep_of_running hr, Prod.ext_iff]
  | awaitingInput => rw [step_of_awaitingInput hr, hostStep_of_awaitingInput hr, resumeState_next_iff]
  | halted => simp [step_of_halted hr, hostStep_of_halted hr]
  | faulted => simp [step_of_faulted hr, hostStep_of_faulted hr]

theorem step_of_hostStep {s s' : State} {r : StepResult} (h : hostStep s = .next (r, s')) : step s = .next s' :=
  step_next_iff.2 ⟨r, h⟩

/-! ### What a step can do -/

/-- The word a fault records: the word at `IP` if this step fetched it, else 0 (R231). -/
def fetchedWord (s : State) : Int :=
  if s.runState = .running ∧ cellExists s.cfg s.ip = true then s.cell s.ip else 0

/-- The state in which a resumption has written the input `x` to the address of the latch `p` (R112). -/
def resumed (s : State) (p : Pending) (x : Int) (rest : List Int) : State :=
  (((s.setInq rest).setMem (Memory.write s.mem (pendingAddress s p).toNat x)).setIp (s.ip + 2)).unsuspend

/-- Everything a step can do, from every state: its result and next state (R101, R109). -/
inductive Transition (s : State) : StepResult → State → Prop
  | run {i : Instr} {r : StepResult} {s' : State} (hr : s.runState = .running) (hf : fetch s = .instr i)
      (he : Effect s i r s') : Transition s r s'
  | fault {t : Trap} (hr : s.runState = .running ∨ s.runState = .awaitingInput) (ht : t.cause ≠ .none) :
      Transition s (.faulted t.cause) (raiseFault (fetchedWord s) t s)
  | resume {p : Pending} {x : Int} {rest : List Int} (hr : s.runState = .awaitingInput) (hp : s.pend = some p)
      (hq : s.inq = x :: rest) (ha : cellExists s.cfg (pendingAddress s p) = true) (hx : fit s.cfg x = true) :
      Transition s .progressed (resumed s p x rest)
  | wait (hr : s.runState = .awaitingInput) (hq : s.inq = []) : Transition s .suspended s
  | halted (hr : s.runState = .halted) : Transition s .halted s
  | faulted (hr : s.runState = .faulted) : Transition s (.faulted s.faultCause) s

theorem fetchedWord_of_instr {s : State} {i : Instr} (hr : s.runState = .running) (hf : fetch s = .instr i) :
    fetchedWord s = i.word := by
  rw [fetchedWord, if_pos ⟨hr, (fetch_instr_params hf).1⟩, word_of_fetch hf]

theorem fetchedWord_of_trap {s : State} {w : Int} {t : Trap} (hr : s.runState = .running) (hf : fetch s = .trap w t) :
    fetchedWord s = w := by
  obtain ⟨-, ⟨rfl, -, he⟩ | ⟨rfl, he⟩⟩ := fetch_trap_cases hf
  · exact if_neg (by simp [he])
  · exact if_pos ⟨hr, he⟩

theorem fetchedWord_of_awaitingInput {s : State} (hr : s.runState = .awaitingInput) : fetchedWord s = 0 :=
  if_neg (by simp [hr])

theorem transition_of_execute {s : State} (hr : s.runState = .running) :
    Transition s (execute s).1 (execute s).2 := by
  obtain ⟨i, hf, he⟩ | ⟨w, t, hf, ht, he⟩ := execute_cases s
  · rw [he]
    obtain heff | ⟨t, ht, hi⟩ := runInstr_cases i s
    · exact .run hr hf heff
    · rw [hi, ← fetchedWord_of_instr hr hf]
      exact .fault (.inl hr) ht
  · rw [he, ← fetchedWord_of_trap hr hf]
    exact .fault (.inl hr) ht

theorem transition_of_resume {s s' : State} {r : StepResult} (hr : s.runState = .awaitingInput)
    (h : resume s = .next (r, s')) : Transition s r s' := by
  cases hq : s.inq with
  | nil => rw [resume_of_inq_nil hq] at h; cases h; exact .wait hr hq
  | cons x rest =>
    cases hp : s.pend with
    | none => simp only [resume, hq, hp, reduceCtorEq] at h
    | some p =>
      obtain ⟨ha, hx, hres⟩ | ⟨t, ht, hres⟩ := resume_cases hq hp
      · rw [hres] at h; cases h; exact .resume hr hp hq ha hx
      · rw [hres] at h; cases h
        rw [← fetchedWord_of_awaitingInput hr]
        exact .fault (.inr hr) ht

/-- Every step is one of the transitions. -/
theorem transition_of_hostStep {s s' : State} {r : StepResult} (h : hostStep s = .next (r, s')) :
    Transition s r s' := by
  cases hr : s.runState with
  | running =>
    rw [hostStep_of_running hr, Host.Outcome.next.injEq] at h
    have htr := transition_of_execute hr
    rwa [h] at htr
  | awaitingInput => rw [hostStep_of_awaitingInput hr] at h; exact transition_of_resume hr h
  | halted => rw [hostStep_of_halted hr] at h; cases h; exact .halted hr
  | faulted => rw [hostStep_of_faulted hr] at h; cases h; exact .faulted hr

/-! ### The run state afterwards -/

/-- The run state a step result leaves (R109). -/
def StepResult.runState : StepResult → RunState
  | .progressed  => .running
  | .suspended   => .awaitingInput
  | .halted      => .halted
  | .faulted _   => .faulted
  | .outputStall => .running

theorem Effect.runState_eq {s s' : State} {i : Instr} {r : StepResult} (h : Effect s i r s')
    (hr : s.runState = .running) : s'.runState = r.runState := by
  cases h with
  | suspend => rfl
  | halt => rfl
  | store => exact hr
  | input => exact hr
  | output => exact hr
  | stall => exact hr
  | jump => exact hr
  | base => exact hr

/-- The step result tells the run state afterwards (R109). -/
theorem Transition.runState_eq {s s' : State} {r : StepResult} (h : Transition s r s') :
    s'.runState = r.runState := by
  cases h with
  | run hr _ he => exact he.runState_eq hr
  | fault => rfl
  | resume => rfl
  | wait hr => exact hr
  | halted hr => exact hr
  | faulted hr => exact hr

/-- No effect of an instruction enters FAULTED. -/
theorem Effect.runState_ne_faulted {s s' : State} {i : Instr} {r : StepResult} (h : Effect s i r s') :
    r.runState ≠ .faulted := by
  cases h <;> simp [StepResult.runState]

/-- A step enters FAULTED by raising a fault (R107). -/
theorem Transition.eq_raiseFault {s s' : State} {r : StepResult} (h : Transition s r s') (hf : FaultEntered s s') :
    ∃ t : Trap, t.cause ≠ .none ∧ r = .faulted t.cause ∧ s' = raiseFault (fetchedWord s) t s := by
  obtain ⟨hs, hs'⟩ := hf
  have hres : r.runState = .faulted := h.runState_eq.symm.trans hs'
  cases h with
  | run _ _ he => exact absurd hres he.runState_ne_faulted
  | @fault t _ ht => exact ⟨t, ht, rfl, rfl⟩
  | resume => cases hres
  | wait => cases hres
  | halted => cases hres
  | faulted hr => exact absurd hr hs

theorem Transition.faultCause_eq {s s' : State} {c : FaultCause} (h : Transition s (.faulted c) s') :
    s'.faultCause = c := by
  cases h with
  | run _ _ he => exact absurd rfl he.runState_ne_faulted
  | fault => rfl
  | faulted => rfl

/-! ### Who halts, who suspends, who stalls -/

theorem queueFull_iff {d : Option Nat} {q : List Int} : queueFull d q = true ↔ d = some q.length := by
  unfold queueFull
  split <;> simp [eq_comm]

/-- Opcode 99 alone halts (R180). -/
theorem Effect.of_halted {s s' : State} {i : Instr} (h : Effect s i .halted s') : i = .hlt := by
  cases h with
  | halt => rfl

/-- Opcode 3 alone suspends, its destination and the next `IP` checked, on an empty queue (R111). -/
theorem Effect.of_suspended {s s' : State} {i : Instr} (h : Effect s i .suspended s') :
    ∃ (a : Param) (t : Int), i = .inp a ∧ WritesTo s a t ∧ fit s.cfg (s.ip + 2) = true ∧ s.inq = [] ∧
      s' = s.suspend a := by
  cases h with
  | suspend ht hq hn => exact ⟨_, _, rfl, ht, hn, hq, rfl⟩

/-- Opcode 4 alone stalls, its operand read and the next `IP` checked, on a full queue, and nothing changes (R141). -/
theorem Effect.of_outputStall {s s' : State} {i : Instr} (h : Effect s i .outputStall s') :
    ∃ (a : Param) (x : Int), i = .out a ∧ ReadsAs s a x ∧ fit s.cfg (s.ip + 2) = true ∧
      s.cfg.outDepth = some s.outq.length ∧ s' = s := by
  cases h with
  | stall hx hq hn => exact ⟨_, _, rfl, hx, hn, queueFull_iff.1 hq, rfl⟩

/-- A fetched instruction is well-formed: the decoder gives no immediate destination (R81). -/
theorem wellFormed_of_fetch {s : State} {i : Instr} (hf : fetch s = .instr i) : i.wellFormed = true := by
  obtain ⟨-, hw, -⟩ := fetch_instr_params hf
  exact Instr.wellFormed_iff.2 (decodeWord_eq_ok_iff.1 hw).1

theorem exists_writesTo_of_fetch {s : State} {a : Param} (hf : fetch s = .instr (.inp a)) (ha : AddressOk s a) :
    ∃ t, WritesTo s a t :=
  exists_writesTo_iff.2 ⟨Param.writable_iff.1 (wellFormed_of_fetch hf), ha⟩

section Running

variable {s s' : State} {r : StepResult} (hr : s.runState = .running)
include hr

theorem hostStep_of_rule_ok {i : Instr} {answer : StepResult × State} (hf : fetch s = .instr i)
    (h : ruleOf i s = .ok answer) : hostStep s = .next answer := by
  rw [hostStep_of_instr hr hf, runInstr_eq_conclude, conclude_ok h]

variable (h : hostStep s = .next (r, s'))
include h

theorem result_of_rule_ok {i : Instr} {answer : StepResult × State} (hf : fetch s = .instr i)
    (hi : ruleOf i s = .ok answer) : r = answer.1 := by
  rw [hostStep_of_rule_ok hr hf hi] at h
  cases h
  rfl

/-- A running core has the effect of the fetched instruction, or its result is a fault. -/
theorem effect_or_faulted : (∃ i, fetch s = .instr i ∧ Effect s i r s') ∨ ∃ c, r = .faulted c := by
  cases transition_of_hostStep h with
  | run _ hf he => exact .inl ⟨_, hf, he⟩
  | fault => exact .inr ⟨_, rfl⟩
  | faulted => exact .inr ⟨_, rfl⟩
  | resume hr' => cases hr.symm.trans hr'
  | wait hr' => cases hr.symm.trans hr'
  | halted hr' => cases hr.symm.trans hr'

theorem halted_iff_fetch : r = .halted ↔ fetch s = .instr .hlt := by
  refine ⟨?_, fun hf => result_of_rule_ok hr h hf rfl⟩
  rintro rfl
  obtain ⟨i, hf, he⟩ | ⟨c, ⟨⟩⟩ := effect_or_faulted hr h
  rw [hf, he.of_halted]

theorem suspended_iff_fetch :
    r = .suspended ↔ ∃ a, fetch s = .instr (.inp a) ∧ AddressOk s a ∧ fit s.cfg (s.ip + 2) = true ∧ s.inq = [] := by
  constructor
  · rintro rfl
    obtain ⟨i, hf, he⟩ | ⟨c, ⟨⟩⟩ := effect_or_faulted hr h
    obtain ⟨a, t, rfl, ht, hn, hq, -⟩ := he.of_suspended
    exact ⟨a, hf, (exists_writesTo_iff.1 ⟨t, ht⟩).2, hn, hq⟩
  · rintro ⟨a, hf, ha, hn, hq⟩
    obtain ⟨t, ht⟩ := exists_writesTo_of_fetch hf ha
    exact result_of_rule_ok hr h hf (takeInput_ok_iff.2 ⟨t, ht, hn, .inl ⟨hq, rfl⟩⟩)

theorem outputStall_iff_fetch :
    r = .outputStall ↔ ∃ a, fetch s = .instr (.out a) ∧ AddressOk s a ∧ fit s.cfg (s.ip + 2) = true ∧
      s.cfg.outDepth = some s.outq.length := by
  constructor
  · rintro rfl
    obtain ⟨i, hf, he⟩ | ⟨c, ⟨⟩⟩ := effect_or_faulted hr h
    obtain ⟨a, x, rfl, hx, hn, hq, -⟩ := he.of_outputStall
    exact ⟨a, hf, exists_readsAs_iff.1 ⟨x, hx⟩, hn, hq⟩
  · rintro ⟨a, hf, ha, hn, hq⟩
    obtain ⟨x, hx⟩ := exists_readsAs_iff.2 ha
    exact result_of_rule_ok hr h hf (putOutput_ok_iff.2 ⟨x, hx, hn, (if_pos (queueFull_iff.2 hq)).symm⟩)

theorem fetch_of_progressed (hp : r = .progressed) : ∃ i, fetch s = .instr i ∧ i ≠ .hlt := by
  obtain ⟨i, hf, -⟩ | ⟨c, rfl⟩ := effect_or_faulted hr h
  · refine ⟨i, hf, ?_⟩
    rintro rfl
    cases hp.symm.trans ((halted_iff_fetch hr h).2 hf)
  · cases hp

end Running

/-! ### Resumption -/

/-- A checked latch and an input in front complete the write (R112). -/
theorem resume_of_latch {s : State} {p : Pending} {x : Int} {rest : List Int} (hp : s.pend = some p)
    (hq : s.inq = x :: rest) (ha : cellExists s.cfg (pendingAddress s p) = true) (hx : fit s.cfg x = true) :
    resume s = .next (.progressed, resumed s p x rest) := by
  simp only [resume, hq, hp, conclude_ok (completeInput_ok_iff.2 ⟨ha, hx, rfl⟩), resumed]

section Invariant

variable {s : State} (h : Invariant s)
include h

theorem Invariant.hostStep_resumes {p : Pending} {x : Int} {rest : List Int} (hs : s.runState = .awaitingInput)
    (hp : s.pend = some p) (hq : s.inq = x :: rest) :
    hostStep s = .next (.progressed, resumed s p x rest) :=
  (hostStep_of_awaitingInput hs).trans (h.resume_progresses hp hq)

/-- A waiting core has a latch, so a step stops in no state that meets the invariant (R100). -/
theorem Invariant.exists_hostStep : ∃ answer, hostStep s = .next answer := by
  cases hr : s.runState with
  | running => exact ⟨_, hostStep_of_running hr⟩
  | awaitingInput =>
    cases hq : s.inq with
    | nil => exact ⟨_, (hostStep_of_awaitingInput hr).trans (resume_of_inq_nil hq)⟩
    | cons x rest =>
      obtain ⟨p, hp⟩ := h.exists_latch hr
      exact ⟨_, h.hostStep_resumes hr hp hq⟩
  | halted => exact ⟨_, hostStep_of_halted hr⟩
  | faulted => exact ⟨_, hostStep_of_faulted hr⟩

end Invariant

/-! ### Suspending and feeding -/

theorem feed_accepted_iff {v : Int} {s s' : State} :
    feed v s = (.accepted, s') ↔
      fit s.cfg v = true ∧ queueFull s.cfg.inDepth s.inq = false ∧ s' = s.setInq (s.inq ++ [v]) := by
  unfold feed
  cases fit s.cfg v <;> cases queueFull s.cfg.inDepth s.inq <;> simp [eq_comm]

/-- A fetch does not look at the input queue. -/
@[simp] theorem fetch_setInq (s : State) (q : List Int) : fetch (s.setInq q) = fetch s := rfl

/-- The state after opcode 3 has stored the input `v` in cell `t` of `s`, the queue's rest being `rest` (R140). -/
def inputStored (s : State) (t v : Int) (rest : List Int) : State :=
  ((s.setInq rest).setMem (Memory.write s.mem t.toNat v)).setIp (s.ip + 2)

section SuspendedInput

variable {s : State} {a : Param} {t v : Int} {rest : List Int} (hr : s.runState = .running) (ht : WritesTo s a t)
  (hv : fit s.cfg v = true)
include hr ht hv

/-- Opcode 3 that finds an input stores it (R140). -/
theorem step_of_fed_input (hf : fetch s = .instr (.inp a)) (hn : fit s.cfg (s.ip + 2) = true) :
    step (s.setInq (v :: rest)) = .next (inputStored s t v rest) :=
  step_of_hostStep <| hostStep_of_rule_ok (s := s.setInq (v :: rest)) hr ((fetch_setInq s _).trans hf) <|
    takeInput_ok_iff.2 ⟨t, ht, hn, .inr ⟨v, rest, rfl, hv, rfl⟩⟩

/-- A latched write ends as the store of the opcode 3 that was suspended (R111, R112). -/
theorem step_of_suspended_fed (hp : s.pend = none) :
    step ((s.suspend a).setInq (v :: rest)) = .next (inputStored s t v rest) := by
  obtain ⟨-, haddr⟩ := pendingAddress_of_writesTo ht
  have hres := resume_of_latch (s := (s.suspend a).setInq (v :: rest)) rfl rfl (haddr ▸ ht.2) hv
  have hstored : resumed ((s.suspend a).setInq (v :: rest)) { mode := a.mode, raw := a.raw } v rest =
      inputStored s t v rest := by
    subst haddr
    cases s
    cases hr
    cases hp
    rfl
  exact step_of_hostStep ((hostStep_of_awaitingInput rfl).trans (hstored ▸ hres))

end SuspendedInput

/-! ### The obligations -/

/-- Settles O30: the invariant has the checks of the suspension, so the write completes. -/
theorem resumptionCompletesPendingWrite : Obligations.ResumptionCompletesPendingWrite := by
  unfold Obligations.ResumptionCompletesPendingWrite
  intro s p x rest h hp hq
  have hs : s.runState = .awaitingInput := h.latch_iff.1 (Option.isSome_iff_exists.2 ⟨p, hp⟩)
  have hstep := h.hostStep_resumes hs hp hq
  refine ⟨_, step_of_hostStep hstep, hstep, ?_⟩
  cases p with | mk m v => cases m <;> rfl

/-- Settles O31: a step enters FAULTED by raising a fault only, with the word that it fetched. -/
theorem faultsArePrecise : Obligations.FaultsArePrecise := by
  unfold Obligations.FaultsArePrecise
  intro s s' hs hf
  obtain ⟨r, hstep⟩ := step_next_iff.1 hs
  obtain ⟨t, ht, rfl, rfl⟩ := (transition_of_hostStep hstep).eq_raiseFault hf
  exact ⟨⟨rfl, rfl, rfl, rfl, rfl, rfl⟩, rfl, ht, rfl, rfl, hstep⟩

/-- Settles O32: a waiting core has a latch, and every other step answers. -/
theorem stepAnswersNextState : Obligations.StepAnswersNextState := by
  unfold Obligations.StepAnswersNextState
  intro s h
  obtain ⟨⟨r, s'⟩, hstep⟩ := h.exists_hostStep
  exact ⟨s', step_of_hostStep hstep⟩

/-- Settles O34: every transition leaves the run state of its result, and says what else the result tells. -/
theorem stepResultTellsRunState : Obligations.StepResultTellsRunState := by
  unfold Obligations.StepResultTellsRunState
  intro s s' r _ hs
  have htr := transition_of_hostStep hs
  have hrun := htr.runState_eq
  cases r with
  | progressed => exact hrun
  | suspended =>
    refine ⟨hrun, ?_⟩
    cases htr with
    | run _ _ he =>
      obtain ⟨a, t, -, -, -, hq, rfl⟩ := he.of_suspended
      exact hq
    | wait _ hq => exact hq
  | halted => exact hrun
  | faulted c => exact ⟨hrun, htr.faultCause_eq⟩
  | outputStall =>
    cases htr with
    | run _ _ he =>
      obtain ⟨a, x, -, -, -, hfull, rfl⟩ := he.of_outputStall
      exact ⟨hrun, rfl, hfull⟩

/-- Settles O35: who halts, suspends and stalls is told by the fetch, and the other run states have one transition
each. -/
theorem runStateTransitions : Obligations.RunStateTransitions := by
  unfold Obligations.RunStateTransitions
  intro s s' r h hs
  refine ⟨fun hr => ⟨halted_iff_fetch hr hs, suspended_iff_fetch hr hs, outputStall_iff_fetch hr hs,
    fetch_of_progressed hr hs, (transition_of_hostStep hs).runState_eq.trans (by cases r <;> rfl)⟩, ?_, ?_, ?_, ?_⟩
  · intro hr hne
    obtain ⟨x, rest, hq⟩ := List.exists_cons_of_ne_nil hne
    obtain ⟨p, hp⟩ := h.exists_latch hr
    rw [h.hostStep_resumes hr hp hq] at hs
    cases hs
    exact ⟨rfl, rfl⟩
  · intro hr hq
    rw [hostStep_of_awaitingInput hr, resume_of_inq_nil hq] at hs
    cases hs
    exact ⟨rfl, rfl⟩
  · intro hr
    rw [hostStep_of_halted hr] at hs
    cases hs
    exact ⟨rfl, rfl⟩
  · intro hr
    rw [hostStep_of_faulted hr] at hs
    cases hs
    exact ⟨rfl, rfl⟩

/-- Settles O55: the step that suspends is opcode 3 on an empty queue, and both orders end in its write of `v`. -/
theorem suspendFeedStepEqualsFeedStep : Obligations.SuspendFeedStepEqualsFeedStep := by
  unfold Obligations.SuspendFeedStepEqualsFeedStep
  intro s s1 s' v h hr hs hs1 hfeed
  obtain ⟨r, hstep⟩ := step_next_iff.1 hs
  obtain ⟨i, hf, he⟩ | ⟨c, rfl⟩ := effect_or_faulted hr hstep
  · have hres : r.runState = .awaitingInput := (he.runState_eq hr).symm.trans hs1
    obtain rfl : r = .suspended := by cases r <;> cases hres; rfl
    obtain ⟨a, t, rfl, ht, hn, hq, rfl⟩ := he.of_suspended
    obtain ⟨hv, hfull, rfl⟩ := feed_accepted_iff.1 hfeed
    have hsuspended : feed v (s.suspend a) = (.accepted, (s.suspend a).setInq (s.inq ++ [v])) :=
      feed_accepted_iff.2 ⟨hv, hfull, rfl⟩
    rw [hsuspended, hq, List.nil_append, step_of_suspended_fed hr ht hv (h.pend_none_of_running hr),
      step_of_fed_input hr ht hv hf hn]
  · cases (transition_of_hostStep hstep).runState_eq.symm.trans hs1

end Sys2Proof.Machine
end

