-- ==== Sys2Proof/Proofs/Arithmetic.lean ====
section
/-! `add` and `mul` (R130, R131) are one rule, `runArith`, with two operations: its three ends are proved once, for
any operation, after the ends of a step that every instruction shares. -/

namespace Sys2Proof.Machine

/-! ### From the rule of an instruction to its meaning -/

theorem runInstr_of_rule_ok {i : Instr} {s : State} {answer : StepResult × State} (h : ruleOf i s = .ok answer) :
    runInstr i s = answer := by
  rw [runInstr_eq_conclude, conclude_ok h]

theorem exec_of_rule_ok {i : Instr} {s : State} {answer : StepResult × State} (h : ruleOf i s = .ok answer) :
    exec i s = .next answer.2 := by
  rw [exec_eq_runInstr, runInstr_of_rule_ok h]

theorem exec_of_rule_error {i : Instr} {s : State} {e : Trap} (h : ruleOf i s = .error e) :
    exec i s = .next (raiseFault i.word e s) := by
  rw [exec_eq_runInstr, runInstr_eq_conclude, h, conclude]

/-! ### The checks of a store and the instruction word -/

/-- The next `IP` is checked before the store (R108). -/
theorem storeAndAdvance_unfit_ip {s : State} {len : Int} (h : fit s.cfg (s.ip + len) = false) (t : Nat) (v : Int) :
    storeAndAdvance s t v len = .error (overflowTrap (s.ip + len)) := by
  rw [storeAndAdvance, requireFit_unfit h, error_bind]

theorem headNumber_eq (op m1 m2 m3 : Nat) :
    headNumber op m1 m2 m3 = (op : Int) + 100 * m1 + 1000 * m2 + 10000 * m3 := by
  simp only [headNumber]; omega

/-! ### The three ends of an arithmetic instruction -/

section Arithmetic
variable {f : Int → Int → Int} {s : State} {i : Instr} {a b c : Param} {x y t : Int}
  (hi : ruleOf i s = runArith f s a b c) (hx : ReadsAs s a x) (hy : ReadsAs s b y) (ht : WritesTo s c t)
include hi hx hy ht

theorem exec_arith_stores (hv : fit s.cfg (f x y) = true) (hn : fit s.cfg (s.ip + 4) = true) :
    exec i s = .next { s with mem := Memory.write s.mem t.toNat (f x y), ip := s.ip + 4 } ∧
      (runInstr i s).1 = .progressed := by
  have hrule : ruleOf i s =
      .ok (.progressed, (s.setMem (Memory.write s.mem t.toNat (f x y))).setIp (s.ip + 4)) :=
    hi.trans (runArith_ok_iff.2 ⟨x, y, t, hx, hy, ht, hv, hn, rfl⟩)
  exact ⟨exec_of_rule_ok hrule, by rw [runInstr_of_rule_ok hrule]⟩

/-- With its operands evaluated, what is left of the rule is the check of the result and the store. -/
theorem ruleOf_arith_eq :
    ruleOf i s = requireFit s.cfg (f x y) >>= fun _ => storeAndAdvance s t.toNat (f x y) 4 := by
  rw [hi, runArith, evalRRW_ok_iff.2 ⟨hx, hy, t, ht, rfl⟩, ok_bind]

theorem exec_arith_unfit_result (hv : fit s.cfg (f x y) = false) :
    exec i s = .next (raiseFault i.word (overflowTrap (f x y)) s) :=
  exec_of_rule_error (by rw [ruleOf_arith_eq hi hx hy ht, requireFit_unfit hv, error_bind])

theorem exec_arith_unfit_ip (hv : fit s.cfg (f x y) = true) (hn : fit s.cfg (s.ip + 4) = false) :
    exec i s = .next (raiseFault i.word (overflowTrap (s.ip + 4)) s) :=
  exec_of_rule_error (by
    rw [ruleOf_arith_eq hi hx hy ht, requireFit_of_fit hv, ok_bind, storeAndAdvance_unfit_ip hn])

end Arithmetic

/-! ### The obligations -/

/-- Settles O11: the three ends of the arithmetic rule, at the sum. -/
theorem addStoresExactSum : Obligations.AddStoresExactSum := by
  unfold Obligations.AddStoresExactSum
  intro s a b c x y t hx hy ht
  have hi : ruleOf (.add a b c) s = runArith (fun x y => x + y) s a b c := rfl
  exact ⟨exec_arith_stores hi hx hy ht, exec_arith_unfit_result hi hx hy ht, exec_arith_unfit_ip hi hx hy ht,
    headNumber_eq 1 _ _ _, rfl⟩

/-- Settles O12: the three ends of the arithmetic rule, at the product. -/
theorem mulStoresExactProduct : Obligations.MulStoresExactProduct := by
  unfold Obligations.MulStoresExactProduct
  intro s a b c x y t hx hy ht
  have hi : ruleOf (.mul a b c) s = runArith (fun x y => x * y) s a b c := rfl
  exact ⟨exec_arith_stores hi hx hy ht, exec_arith_unfit_result hi hx hy ht, exec_arith_unfit_ip hi hx hy ht,
    headNumber_eq 2 _ _ _, rfl⟩

end Sys2Proof.Machine
end

