-- ==== Sys2Proof/Proofs/InOut.lean ====
section
/-! Opcodes 3 and 4 (R140, R141), their ends proved through the rules `takeInput` and `putOutput`, and what a step can
do to the two queues (R142). -/

namespace Sys2Proof.Machine

/-! ### Checks before the queues are looked at -/

/-- A next `IP` that does not fit ends `in` before the queue is looked at (R140). -/
theorem takeInput_unfit_ip {s : State} {a : Param} {t : Int} (ht : WritesTo s a t)
    (hn : fit s.cfg (s.ip + 2) = false) : takeInput s a = .error (overflowTrap (s.ip + 2)) := by
  rw [takeInput, effAddr_of_writesTo ht, ok_bind, requireFit_unfit hn, error_bind]

/-- A next `IP` that does not fit ends `out` before the queue is looked at (R141). -/
theorem putOutput_unfit_ip {s : State} {a : Param} {x : Int} (hx : ReadsAs s a x)
    (hn : fit s.cfg (s.ip + 2) = false) : putOutput s a = .error (overflowTrap (s.ip + 2)) := by
  rw [putOutput, effRead_ok_iff.2 hx, ok_bind, requireFit_unfit hn, error_bind]

/-- A FIFO has room exactly when its depth is unbounded or is not the number of its values (R141, R192). -/
theorem not_queueFull_iff {d : Option Nat} {q : List Int} :
    ¬ queueFull d q = true ↔ ∀ n, d = some n → q.length ≠ n := by
  rw [queueFull_iff]
  exact ⟨fun h n hd hq => h (hq ▸ hd), fun h hd => h _ hd rfl⟩

/-! ### The answer and the word -/

/-- A rule that succeeds gives the next state and the step result of its instruction. -/
theorem exec_and_result_of_rule_ok {i : Instr} {s s' : State} {r : StepResult} (h : ruleOf i s = .ok (r, s')) :
    exec i s = .next s' ∧ (runInstr i s).1 = r :=
  ⟨exec_of_rule_ok h, congrArg Prod.fst (runInstr_of_rule_ok h)⟩

theorem headNumber_one_param (op m : Nat) : headNumber op m 0 0 = (op : Int) + 100 * m := by
  rw [headNumber_eq]; simp

/-! ### The queues after a step -/

/-- The input queue of `s'` is that of `s` or lacks just its head, and the output queue is that of `s` or has one
value more at its tail (R142). -/
def MovesQueuesByOne (s s' : State) : Prop :=
  (s'.inq = s.inq ∨ ∃ x, s.inq = x :: s'.inq) ∧ (s'.outq = s.outq ∨ ∃ x, s'.outq = s.outq ++ [x])

theorem movesQueuesByOne_of_eq {s s' : State} (hi : s'.inq = s.inq) (ho : s'.outq = s.outq) :
    MovesQueuesByOne s s' := ⟨.inl hi, .inl ho⟩

/-- Only `in` takes an input, and only `out` appends an output. -/
theorem Effect.movesQueuesByOne {s s' : State} {i : Instr} {r : StepResult} (h : Effect s i r s') :
    MovesQueuesByOne s s' := by
  cases h with
  | @input _ _ x _ _ hq => exact ⟨.inr ⟨x, hq⟩, .inl rfl⟩
  | @output _ x => exact ⟨.inl rfl, .inr ⟨x, rfl⟩⟩
  | _ => exact movesQueuesByOne_of_eq rfl rfl

/-- Besides `in` and `out`, only a resumption moves a queue: it takes the input it stores (R112). -/
theorem Transition.movesQueuesByOne {s s' : State} {r : StepResult} (h : Transition s r s') :
    MovesQueuesByOne s s' := by
  cases h with
  | run _ _ he => exact he.movesQueuesByOne
  | @resume _ x _ _ _ hq => exact ⟨.inr ⟨x, hq⟩, .inl rfl⟩
  | _ => exact movesQueuesByOne_of_eq rfl rfl

/-! ### The obligations -/

/-- Settles O13: the ends of `takeInput`, by the head of the input queue. -/
theorem inputIsStoredOrAwaited : Obligations.InputIsStoredOrAwaited := by
  unfold Obligations.InputIsStoredOrAwaited
  intro s a t ht
  refine ⟨fun x rest hq hx hn => ?_, fun hq hn => ?_, fun hn => ?_, headNumber_one_param 3 _, rfl⟩
  · have hrule : ruleOf (.inp a) s = .ok (.progressed, inputStored s t x rest) :=
      takeInput_ok_iff.2 ⟨t, ht, hn, .inr ⟨x, rest, hq, hx, rfl⟩⟩
    exact exec_and_result_of_rule_ok hrule
  · have hrule : ruleOf (.inp a) s = .ok (.suspended, s.suspend a) :=
      takeInput_ok_iff.2 ⟨t, ht, hn, .inl ⟨hq, rfl⟩⟩
    exact exec_and_result_of_rule_ok hrule
  · exact exec_of_rule_error (takeInput_unfit_ip ht hn)

/-- Settles O14: the ends of `putOutput`, by whether the output queue is full. -/
theorem outputIsAppendedOrStalls : Obligations.OutputIsAppendedOrStalls := by
  unfold Obligations.OutputIsAppendedOrStalls
  intro s a x hx
  refine ⟨fun hn hroom => ?_, fun hn hfull => ?_, fun hn => ?_, headNumber_one_param 4 _, rfl⟩
  · have hq : ¬ queueFull s.cfg.outDepth s.outq = true := not_queueFull_iff.2 hroom
    have hrule : ruleOf (.out a) s = .ok (.progressed, (s.pushOut x).setIp (s.ip + 2)) :=
      putOutput_ok_iff.2 ⟨x, hx, hn, (if_neg hq).symm⟩
    exact exec_and_result_of_rule_ok hrule
  · have hrule : ruleOf (.out a) s = .ok (.outputStall, s) :=
      putOutput_ok_iff.2 ⟨x, hx, hn, (if_pos (queueFull_iff.2 hfull)).symm⟩
    exact exec_and_result_of_rule_ok hrule
  · exact exec_of_rule_error (putOutput_unfit_ip hx hn)

/-- Settles O39: no transition moves a queue by more than one value. -/
theorem queuesAreFifo : Obligations.QueuesAreFifo := by
  unfold Obligations.QueuesAreFifo
  intro s s' h
  obtain ⟨r, hstep⟩ := step_next_iff.1 h
  exact (transition_of_hostStep hstep).movesQueuesByOne

end Sys2Proof.Machine
end

