-- ==== Sys2Proof/Proofs/Jumps.lean ====
section
/-! `jt` and `jf` (R150, R151) are one rule, `jumpIf`, with two tests: its two ends are proved once, for any test.
No other instruction leaves the sequence (R152). -/

namespace Sys2Proof.Machine

/-! ### The two ends of a conditional jump -/

section Jump
variable {test : Int → Bool} {s : State} {i : Instr} {a b : Param} {x y n : Int}
  (hi : ruleOf i s = jumpIf test s a b) (hx : ReadsAs s a x) (hy : ReadsAs s b y)
  (hnext : (if test x then y else s.ip + 3) = n)
include hi hx hy hnext

/-- With its operands evaluated, what is left of the rule is the check of the next `IP` and the jump. -/
theorem ruleOf_jump_eq :
    ruleOf i s = requireFit s.cfg n >>= fun _ => .ok (.progressed, s.setIp n) := by
  rw [hi, jumpIf, evalRR_ok_iff.2 ⟨hx, hy⟩, ok_bind, ← hnext]

theorem exec_jump_fit (hn : fit s.cfg n = true) :
    exec i s = .next { s with ip := n } ∧ (runInstr i s).1 = .progressed := by
  have hrule : ruleOf i s = .ok (.progressed, s.setIp n) := by
    rw [ruleOf_jump_eq hi hx hy hnext, requireFit_of_fit hn, ok_bind]
  exact exec_and_result_of_rule_ok hrule

theorem exec_jump_unfit (hn : fit s.cfg n = false) :
    exec i s = .next (raiseFault i.word (overflowTrap n) s) :=
  exec_of_rule_error (by rw [ruleOf_jump_eq hi hx hy hnext, requireFit_unfit hn, error_bind])

end Jump

/-! ### The tests and the word -/

theorem isNonZero_iff {x : Int} : isNonZero x = true ↔ x ≠ 0 := decide_eq_true_iff

theorem isZero_iff {x : Int} : isZero x = true ↔ x = 0 := decide_eq_true_iff

theorem headNumber_two_params (op m1 m2 : Nat) :
    headNumber op m1 m2 0 = (op : Int) + 100 * m1 + 1000 * m2 := by
  rw [headNumber_eq]; simp

/-! ### Where `IP` goes -/

/-- An effect keeps `IP` (a halt, a suspension, a stall), adds the length of the instruction, or is a jump. -/
theorem Effect.ip_cases {s s' : State} {i : Instr} {r : StepResult} (h : Effect s i r s') :
    s'.ip = s.ip ∨ s'.ip = s.ip + i.length ∨ ∃ a b, i = .jt a b ∨ i = .jf a b := by
  cases h with
  | store hi =>
    have hlength : i.length = 4 := by
      simp only [List.mem_cons, List.not_mem_nil, or_false] at hi
      obtain rfl | rfl | rfl | rfl := hi <;> rfl
    exact .inr (.inl (by rw [hlength]; rfl))
  | input => exact .inr (.inl rfl)
  | suspend => exact .inl rfl
  | output => exact .inr (.inl rfl)
  | stall => exact .inl rfl
  | @jump _ a b _ hi => exact .inr (.inr ⟨a, b, by simpa using hi⟩)
  | base => exact .inr (.inl rfl)
  | halt => exact .inl rfl

/-! ### The obligations -/

/-- Settles O15: the two ends of a jump, at the target when the test of `jt` holds and at `IP + 3` when it fails. -/
theorem jumpIfTrueGoesToTarget : Obligations.JumpIfTrueGoesToTarget := by
  unfold Obligations.JumpIfTrueGoesToTarget
  intro s a b x y hx hy
  have hi : ruleOf (.jt a b) s = jumpIf isNonZero s a b := rfl
  have taken (h : x ≠ 0) : (if isNonZero x then y else s.ip + 3) = y := if_pos (isNonZero_iff.2 h)
  have notTaken (h : x = 0) : (if isNonZero x then y else s.ip + 3) = s.ip + 3 :=
    if_neg fun ht => isNonZero_iff.1 ht h
  exact ⟨fun h => exec_jump_fit hi hx hy (taken h), fun h => exec_jump_unfit hi hx hy (taken h),
    fun h => exec_jump_fit hi hx hy (notTaken h), fun h => exec_jump_unfit hi hx hy (notTaken h),
    headNumber_two_params 5 _ _, rfl⟩

/-- Settles O16: the two ends of a jump, at the target when the test of `jf` holds and at `IP + 3` when it fails. -/
theorem jumpIfFalseGoesToTarget : Obligations.JumpIfFalseGoesToTarget := by
  unfold Obligations.JumpIfFalseGoesToTarget
  intro s a b x y hx hy
  have hi : ruleOf (.jf a b) s = jumpIf isZero s a b := rfl
  have taken (h : x = 0) : (if isZero x then y else s.ip + 3) = y := if_pos (isZero_iff.2 h)
  have notTaken (h : x ≠ 0) : (if isZero x then y else s.ip + 3) = s.ip + 3 :=
    if_neg fun ht => h (isZero_iff.1 ht)
  exact ⟨fun h => exec_jump_fit hi hx hy (taken h), fun h => exec_jump_unfit hi hx hy (taken h),
    fun h => exec_jump_fit hi hx hy (notTaken h), fun h => exec_jump_unfit hi hx hy (notTaken h),
    headNumber_two_params 6 _ _, rfl⟩

/-- Settles O37: an instruction has an effect, whose `IP` `Effect.ip_cases` tells, or raises a fault, which keeps
`IP`. -/
theorem onlyJumpsLeaveTheSequence : Obligations.OnlyJumpsLeaveTheSequence := by
  unfold Obligations.OnlyJumpsLeaveTheSequence
  intro s s' i h hsame hnext
  obtain ⟨r, he⟩ | ⟨t, rfl⟩ := exec_cases h
  · exact (he.ip_cases.resolve_left hsame).resolve_left hnext
  · exact absurd (raiseFault_ip s i.word t) hsame

end Sys2Proof.Machine
end

