-- ==== Sys2Proof/Proofs/Compare.lean ====
section
/-! `lt` and `eq` (R160, R161) are one rule, `runCompare`, with two comparisons: its two ends are proved once, for any
comparison. -/

namespace Sys2Proof.Machine

/-- 1 is a word of every legal configuration: words have at least 2 bits (R6, R12). -/
theorem fit_one {c : Config} (h : c.wf = true) : fit c 1 = true := by
  unfold fit
  split
  · rfl
  · next n hbits =>
    have hn : 2 ≤ n := by
      simp only [Config.wf, hbits, Config.atLeast, Bool.and_eq_true, decide_eq_true_eq] at h
      obtain ⟨⟨⟨hword, -⟩, -⟩, -⟩ := h
      exact hword
    have hpow : 2 ^ 1 ≤ 2 ^ (n - 1) := Nat.pow_le_pow_right (by decide) (by omega)
    simp only [Bool.and_eq_true, decide_eq_true_eq]; omega

/-! ### The two ends of a comparison -/

section Compare
variable {f : Int → Int → Int} {s : State} {i : Instr} {a b c : Param} {x y t : Int}
  (hi : ruleOf i s = runCompare f s a b c) (hx : ReadsAs s a x) (hy : ReadsAs s b y) (ht : WritesTo s c t)
include hi hx hy ht

theorem exec_compare_stores {r : Int} (hr : f x y = r) (hv : fit s.cfg r = true)
    (hn : fit s.cfg (s.ip + 4) = true) :
    exec i s = .next { s with mem := Memory.write s.mem t.toNat r, ip := s.ip + 4 } ∧
      (runInstr i s).1 = .progressed := by
  subst hr
  have hrule : ruleOf i s =
      .ok (.progressed, (s.setMem (Memory.write s.mem t.toNat (f x y))).setIp (s.ip + 4)) :=
    hi.trans (runCompare_ok_iff.2 ⟨x, y, t, hx, hy, ht, hn, hv, rfl⟩)
  exact exec_and_result_of_rule_ok hrule

/-- With its operands evaluated, what is left of the rule is the store. -/
theorem ruleOf_compare_eq : ruleOf i s = storeAndAdvance s t.toNat (f x y) 4 := by
  rw [hi, runCompare, evalRRW_ok_iff.2 ⟨hx, hy, t, ht, rfl⟩, ok_bind]

theorem exec_compare_unfit_ip (hn : fit s.cfg (s.ip + 4) = false) :
    exec i s = .next (raiseFault i.word (overflowTrap (s.ip + 4)) s) :=
  exec_of_rule_error (by rw [ruleOf_compare_eq hi hx hy ht, storeAndAdvance_unfit_ip hn])

end Compare

/-! ### The obligations -/

/-- Settles O17: the two ends of the comparison rule, the result of `lt` being 1 below the second operand and 0 from
it on. -/
theorem lessThanStoresZeroOrOne : Obligations.LessThanStoresZeroOrOne := by
  unfold Obligations.LessThanStoresZeroOrOne
  intro s a b c x y t hwf hx hy ht
  have hi : ruleOf (.lt a b c) s = runCompare lessThanResult s a b c := rfl
  have less (h : x < y) : lessThanResult x y = 1 := if_pos h
  have notLess (h : y ≤ x) : lessThanResult x y = 0 := if_neg (Int.not_lt.2 h)
  exact ⟨fun hn h => exec_compare_stores hi hx hy ht (less h) (fit_one hwf) hn,
    fun hn h => exec_compare_stores hi hx hy ht (notLess h) (fit_zero _) hn,
    exec_compare_unfit_ip hi hx hy ht, headNumber_eq 7 _ _ _, rfl⟩

/-- Settles O18: the two ends of the comparison rule, the result of `eq` being 1 at equal operands and 0 at others. -/
theorem equalsStoresZeroOrOne : Obligations.EqualsStoresZeroOrOne := by
  unfold Obligations.EqualsStoresZeroOrOne
  intro s a b c x y t hwf hx hy ht
  have hi : ruleOf (.eq a b c) s = runCompare equalsResult s a b c := rfl
  have equal (h : x = y) : equalsResult x y = 1 := if_pos h
  have different (h : x ≠ y) : equalsResult x y = 0 := if_neg h
  exact ⟨fun hn h => exec_compare_stores hi hx hy ht (equal h) (fit_one hwf) hn,
    fun hn h => exec_compare_stores hi hx hy ht (different h) (fit_zero _) hn,
    exec_compare_unfit_ip hi hx hy ht, headNumber_eq 8 _ _ _, rfl⟩

end Sys2Proof.Machine
end

