-- ==== Sys2Proof/Proofs/Base.lean ====
section
/-! `arb` (R170): the two checks of its rule `adjustBase`, made once its operand is evaluated, and what it does. -/

namespace Sys2Proof.Machine

/-! ### The two faults of the rule -/

section Base
variable {s : State} {a : Param} {x : Int} (hx : ReadsAs s a x)
include hx

/-- A new `RB` that does not fit ends `arb` before the next `IP` is looked at (R170). -/
theorem adjustBase_unfit_base (hb : fit s.cfg (s.rb + x) = false) :
    adjustBase s a = .error (overflowTrap (s.rb + x)) := by
  rw [adjustBase, effRead_ok_iff.2 hx, ok_bind, requireFit_unfit hb, error_bind]

theorem adjustBase_unfit_ip (hb : fit s.cfg (s.rb + x) = true) (hn : fit s.cfg (s.ip + 2) = false) :
    adjustBase s a = .error (overflowTrap (s.ip + 2)) := by
  rw [adjustBase, effRead_ok_iff.2 hx, ok_bind, requireFit_of_fit hb, ok_bind, requireFit_unfit hn, error_bind]

end Base

/-! ### The obligation -/

/-- Settles O19: the ends of `adjustBase`, by which of its two checks fails first. -/
theorem adjustBaseAddsOperand : Obligations.AdjustBaseAddsOperand := by
  unfold Obligations.AdjustBaseAddsOperand
  intro s a x hx
  refine ⟨fun hb hn => ?_, fun hb => ?_, fun hb hn => ?_, headNumber_one_param 9 _, rfl⟩
  · have hrule : ruleOf (.arb a) s = .ok (.progressed, (s.setRb (s.rb + x)).setIp (s.ip + 2)) :=
      adjustBase_ok_iff.2 ⟨x, hx, hb, hn, rfl⟩
    exact exec_and_result_of_rule_ok hrule
  · exact exec_of_rule_error (adjustBase_unfit_base hx hb)
  · exact exec_of_rule_error (adjustBase_unfit_ip hx hb hn)

end Sys2Proof.Machine
end

