-- ==== Sys2Proof/Proofs/Halt.lean ====
section
/-! `hlt` (R180): its rule has no check to fail, so it has one end, `State.halt`. -/

namespace Sys2Proof.Machine

/-- Settles O20: the one end of the rule of `hlt`, and opcode 99 with no parameters as its word. -/
theorem haltSetsHaltedOnly : Obligations.HaltSetsHaltedOnly := by
  unfold Obligations.HaltSetsHaltedOnly
  intro s
  have hrule : ruleOf .hlt s = .ok (.halted, s.halt) := rfl
  obtain ⟨hnext, hresult⟩ := exec_and_result_of_rule_ok hrule
  exact ⟨hnext, hresult, headNumber_eq 99 0 0 0, rfl⟩

end Sys2Proof.Machine
end

