-- ==== Sys2Proof/Proofs/HostOperations.lean ====
section
/-! LOAD, FEED, POP, STEP and STATUS (R190 to R195): what each does, that each keeps the invariant, and that none but
LOAD disturbs a core that awaits an input (R257). -/

namespace Sys2Proof.Machine

/-! ### The memory of a program -/

/-- The cells of a program placed at `a`: the word of each is one of the program's, and none is past its end. -/
theorem mem_place_cases {e : Cell} : ∀ {p : List Int} {a : Nat}, e ∈ Memory.place a p →
    e.1 < a + p.length ∧ e.2 ∈ p
  | [], _, h => nomatch h
  | v :: p, a, h => by
    obtain rfl | h := mem_cons_cases h
    · simp
    · obtain ⟨hlt, hmem⟩ := mem_place_cases h
      exact ⟨by simp only [List.length_cons]; omega, List.mem_cons_of_mem v hmem⟩

theorem read_place_add : ∀ (p : List Int) (a k : Nat), Memory.read (Memory.place a p) (a + k) = p.getD k 0
  | [], _, _ => rfl
  | v :: p, a, 0 => by rw [Memory.place, read_cons (place_wfFrom p (a + 1)), if_pos (Nat.add_zero a)]; rfl
  | v :: p, a, k + 1 => by
    rw [Memory.place, read_cons (place_wfFrom p (a + 1)), if_neg (by omega),
      show a + (k + 1) = a + 1 + k by omega]
    exact read_place_add p (a + 1) k

/-- A loaded memory reads as the program, and as 0 past its end (R250). -/
theorem read_place (p : List Int) (a : Nat) : Memory.read (Memory.place 0 p) a = p.getD a 0 := by
  simpa using read_place_add p 0 a

/-! ### The three ends of LOAD -/

theorem programFits_iff {c : Config} {p : List Int} :
    programFits c p = true ↔ ∀ m, c.memWords = some m → p.length ≤ m := by
  unfold programFits
  split <;> simp_all

theorem load_accepted {p : List Int} {s : State} (hp : programFits s.cfg p = true)
    (hw : ∀ v ∈ p, fit s.cfg v = true) : load p s = (.accepted, State.initial s.cfg (Memory.place 0 p)) := by
  rw [load, if_pos hp, if_pos (List.all_eq_true.2 hw)]

theorem load_tooLong {p : List Int} {s : State} (hp : programFits s.cfg p ≠ true) :
    load p s = (.refused .tooLong, s) := by
  rw [load, if_neg hp]

theorem load_notAWord {p : List Int} {s : State} (hp : programFits s.cfg p = true)
    (hw : ∃ v ∈ p, fit s.cfg v = false) : load p s = (.refused .notAWord, s) := by
  have hall : ¬ p.all (fit s.cfg) = true := by simpa using hw
  rw [load, if_pos hp, if_neg hall]

/-! ### FEED, POP and STEP -/

theorem feed_notAWord {v : Int} {s : State} (hv : fit s.cfg v = false) : feed v s = (.refused .notAWord, s) := by
  simp [feed, hv]

theorem feed_full {v : Int} {s : State} (hv : fit s.cfg v = true) (hq : queueFull s.cfg.inDepth s.inq = true) :
    feed v s = (.refused .full, s) := by
  simp [feed, hv, hq]

/-- A FEED appends a word to a queue with room, or is refused and changes nothing (R192). -/
theorem feed_cases (v : Int) (s : State) :
    (fit s.cfg v = true ∧ queueFull s.cfg.inDepth s.inq = false ∧
      feed v s = (.accepted, s.setInq (s.inq ++ [v]))) ∨ ∃ e, feed v s = (.refused e, s) := by
  cases hv : fit s.cfg v with
  | false => exact .inr ⟨_, feed_notAWord hv⟩
  | true =>
    cases hq : queueFull s.cfg.inDepth s.inq with
    | true => exact .inr ⟨_, feed_full hv hq⟩
    | false => exact .inl ⟨rfl, rfl, feed_accepted_iff.2 ⟨hv, hq, rfl⟩⟩

theorem pop_of_nil {s : State} (hq : s.outq = []) : pop s = (.empty, s) := by
  simp only [pop, hq]

theorem pop_of_cons {s : State} {x : Int} {rest : List Int} (hq : s.outq = x :: rest) :
    pop s = (.value x, s.setOutq rest) := by
  simp only [pop, hq]

/-- A STEP that answers no next state leaves the state to the host as it was (assumption 5). -/
theorem hostDo_step_cases (s : State) :
    (∃ r, hostStep s = .next r ∧ hostDo .step s = (.stepped r.1, r.2)) ∨ hostDo .step s = (.stuck, s) := by
  cases h : hostStep s with
  | next r => exact .inl ⟨r, rfl, hostDo_step_of_next h⟩
  | fault f => exact .inr (by simp only [hostDo, h])
  | refused f => exact .inr (by simp only [hostDo, h])

/-! ### The invariant -/

/-- A program that fits and holds words only meets the invariant right after LOAD. -/
theorem Invariant.initial_place {p : List Int} {c : Config} (hc : c.wf = true) (hp : programFits c p = true)
    (hw : ∀ v ∈ p, fit c v = true) : Invariant (State.initial c (Memory.place 0 p)) := by
  refine Invariant.initial hc (place_wf p) fun e he => ?_
  obtain ⟨hlt, hmem⟩ := mem_place_cases he
  refine ⟨belowTop_iff.2 fun m hm => ?_, hw _ hmem⟩
  have := programFits_iff.1 hp m hm
  omega

/-- The input queue is read by no other clause of the invariant, so FEED keeps it in every run state. -/
theorem Invariant.append_inq {s : State} {v : Int} (h : Invariant s) (hv : fit s.cfg v = true)
    (hq : queueFull s.cfg.inDepth s.inq = false) : Invariant (s.setInq (s.inq ++ [v])) :=
  { h with
    input_queue := h.input_queue.append hq hv
    latch_matches := fun p hp => { h.latch_matches p hp with } }

theorem Invariant.drop_outq {s : State} {x : Int} {rest : List Int} (h : Invariant s) (hq : s.outq = x :: rest) :
    Invariant (s.setOutq rest) :=
  { h with
    output_queue := (hq ▸ h.output_queue).tail
    latch_matches := fun p hp => { h.latch_matches p hp with } }

theorem Invariant.after_hostDo {s : State} (h : Invariant s) (op : HostOp) : Invariant (hostDo op s).2 := by
  cases op with
  | load p =>
    show Invariant (load p s).2
    by_cases hp : programFits s.cfg p = true
    · by_cases hw : ∀ v ∈ p, fit s.cfg v = true
      · rw [load_accepted hp hw]; exact .initial_place h.config_legal hp hw
      · rw [load_notAWord hp (by simpa using hw)]; exact h
    · rw [load_tooLong hp]; exact h
  | feed v =>
    show Invariant (feed v s).2
    obtain ⟨hv, hq, hfeed⟩ | ⟨e, hfeed⟩ := feed_cases v s
    · rw [hfeed]; exact h.append_inq hv hq
    · rw [hfeed]; exact h
  | pop =>
    show Invariant (pop s).2
    cases hq : s.outq with
    | nil => rw [pop_of_nil hq]; exact h
    | cons x rest => rw [pop_of_cons hq]; exact h.drop_outq hq
  | step =>
    obtain ⟨r, hr, hdo⟩ | hdo := hostDo_step_cases s
    · rw [hdo]; exact h.step (step_of_hostStep hr)
    · rw [hdo]; exact h
  | status => exact h

/-! ### The obligations -/

/-- Settles O43: each operation is refused, or its effect on the one piece of state it writes keeps the invariant. -/
theorem hostOperationsKeepInvariant : Obligations.HostOperationsKeepInvariant := by
  unfold Obligations.HostOperationsKeepInvariant
  exact fun op s h => h.after_hostDo op

/-- Settles O33: `step` is `hostStep` without its result. -/
theorem hostStepIsStepWithResult : Obligations.HostStepIsStepWithResult := by
  unfold Obligations.HostStepIsStepWithResult
  exact fun _ _ => step_next_iff

/-- Settles O48: the three ends of FEED, by its two checks. -/
theorem feedAppendsOrRefuses : Obligations.FeedAppendsOrRefuses := by
  unfold Obligations.FeedAppendsOrRefuses
  intro v s
  refine ⟨feed_notAWord, fun hv hq => feed_full hv (queueFull_iff.2 hq), fun hv hq => ?_⟩
  exact feed_accepted_iff.2 ⟨hv, Bool.eq_false_iff.2 (mt queueFull_iff.1 hq), rfl⟩

/-- Settles O49: STATUS reads the fields, `STATE` and the cause by their codes. -/
theorem statusReportsState : Obligations.StatusReportsState := by
  unfold Obligations.StatusReportsState
  exact fun _ => rfl

/-- Settles O50: the two ends of POP, by the output queue. -/
theorem popTakesOldestOutput : Obligations.PopTakesOldestOutput := by
  unfold Obligations.PopTakesOldestOutput
  exact fun s => ⟨pop_of_nil, fun _ _ hq => pop_of_cons hq⟩

/-- Settles O44: FEED and POP write a queue only, and a STEP without an input holds (R113). -/
theorem suspensionIsHazardFree : Obligations.SuspensionIsHazardFree := by
  unfold Obligations.SuspensionIsHazardFree
  intro op s hd hr hstep
  cases op with
  | load p => cases hd
  | feed v =>
    obtain ⟨-, -, hfeed⟩ | ⟨e, hfeed⟩ := feed_cases v s
    · rw [hostDo, hfeed]; exact ⟨rfl, rfl, rfl, rfl, hr⟩
    · rw [hostDo, hfeed]; exact ⟨rfl, rfl, rfl, rfl, hr⟩
  | pop =>
    cases hq : s.outq with
    | nil => rw [hostDo, pop_of_nil hq]; exact ⟨rfl, rfl, rfl, rfl, hr⟩
    | cons x rest => rw [hostDo, pop_of_cons hq]; exact ⟨rfl, rfl, rfl, rfl, hr⟩
  | step =>
    have hwait := (hostStep_of_awaitingInput hr).trans (resume_of_inq_nil (hstep rfl))
    rw [hostDo_step_of_next hwait]
    exact ⟨rfl, rfl, rfl, rfl, hr⟩
  | status => exact ⟨rfl, rfl, rfl, rfl, hr⟩

/-- Settles O46: an accepted LOAD is the initial state of the placed program. -/
theorem loadSetsEveryPieceOfState : Obligations.LoadSetsEveryPieceOfState := by
  unfold Obligations.LoadSetsEveryPieceOfState
  exact fun p s hp hw => ⟨_, place_wf p, read_place p, load_accepted (programFits_iff.2 hp) hw⟩

/-- Settles O47: the two refusals of LOAD, the length looked at first. -/
theorem loadRefusals : Obligations.LoadRefusals := by
  unfold Obligations.LoadRefusals
  refine fun p s => ⟨fun m hm hlt => load_tooLong fun hp => ?_, fun hp hw => load_notAWord (programFits_iff.2 hp) hw⟩
  have := programFits_iff.1 hp m hm
  omega

/-- Settles O51: the empty program leaves the memory of power-on, and the word 0 that the step fetches has no opcode. -/
theorem powerOnStepFaults : Obligations.PowerOnStepFaults := by
  unfold Obligations.PowerOnStepFaults
  have hfetch : fetch State.reset = .trap 0 { cause := .invalidOpcode, info := 0 } :=
    (fetch_of_exists rfl).trans (fetchRest_of_illegal rfl)
  exact ⟨load_accepted rfl nofun, step_of_trap rfl hfetch⟩

end Sys2Proof.Machine
end

