-- ==== Sys2Proof/Proofs/FaultCauses.lean ====
section
/-! The fault of a fetch outside memory (R223), and the causes that the reference configuration can raise (R221): every
check of a step is either of one of the causes 1 to 6, or does not fail without a finite parameter (R228, R229). -/

namespace Sys2Proof.Machine

/-! ### A fetch outside memory -/

theorem checkPc_missing {s : State} (h : cellExists s.cfg s.ip = false) :
    checkPc s = .error { cause := .invalidPc, info := s.ip } := by
  cases hp : checkPc s with
  | ok n => rw [(checkPc_ok_iff.1 hp).1] at h; cases h
  | error t => rw [(checkPc_error hp).1]

/-! ### Checks that raise the causes 1 to 6 only -/

/-- The numeric cause is 1 to 6: neither ADDRESS_RANGE nor OVERFLOW (R221). -/
abbrev IsReferenceCause (c : FaultCause) : Prop := 1 ≤ causeCode c ∧ causeCode c ≤ 6

/-- Every failure of the check has a cause from 1 to 6. -/
def RaisesReferenceCause {α : Type} (m : Except Trap α) : Prop := ∀ t, m = .error t → IsReferenceCause t.cause

section Checks
variable {α β : Type}

theorem raises_ok (x : α) : RaisesReferenceCause (.ok x) := fun _ h => nomatch h

theorem raises_error {c : FaultCause} {info : Int} (h : IsReferenceCause c) :
    RaisesReferenceCause (.error { cause := c, info } : Except Trap α) := fun _ ht => by cases ht; exact h

theorem raises_bind {m : Except Trap α} {f : α → Except Trap β} (hm : RaisesReferenceCause m)
    (hf : ∀ x, RaisesReferenceCause (f x)) : RaisesReferenceCause (m >>= f) := by
  intro t ht
  obtain h | ⟨x, -, h⟩ := bind_error_iff.1 ht
  · exact hm t h
  · exact hf x t h

theorem raises_mapM {f : α → Except Trap β} (hf : ∀ x, RaisesReferenceCause (f x)) :
    ∀ xs : List α, RaisesReferenceCause (xs.mapM f)
  | [] => raises_ok _
  | x :: xs => by
    rw [List.mapM_cons]
    exact raises_bind (hf x) fun _ => raises_bind (raises_mapM hf xs) fun _ => raises_ok _

end Checks

/-! ### The decoder -/

theorem raises_modeAt (n k : Nat) : RaisesReferenceCause (modeAt n k) := by
  cases h : illegalDigit n k with
  | true => rw [modeAt_of_illegalDigit h]; exact raises_error (by decide)
  | false => obtain ⟨m, hm⟩ := modeAt_of_legalDigit h; rw [hm]; exact raises_ok m

theorem raises_checkExcess (n params : Nat) : RaisesReferenceCause (checkExcess n params) := by
  unfold checkExcess
  split
  · exact raises_ok _
  · exact raises_error (by decide)

theorem raises_decodeWord (w : Int) : RaisesReferenceCause (decodeWord w) := by
  obtain ⟨hnegative, hopcode⟩ := decodeRefusesWordsWithoutOpcode
  obtain hw | hw := lt_or_ge w 0
  · rw [hnegative w hw]; exact raises_error (by decide)
  · obtain ⟨n, rfl⟩ := Int.eq_ofNat_of_zero_le hw
    by_cases hop : ∃ params, (n % 100, params) ∈ opcodeParams
    · obtain ⟨params, hop⟩ := hop
      obtain ⟨mk, hmk⟩ := decodeNat_eq_modes hop
      rw [decodeWord_natCast, hmk]
      exact raises_bind (raises_mapM (raises_modeAt n) _) fun _ =>
        raises_bind (raises_checkExcess n params) fun _ => raises_ok _
    · rw [hopcode n (not_exists.1 hop)]; exact raises_error (by decide)

/-! ### The rules in the reference configuration -/

theorem raises_requireFit (v : Int) : RaisesReferenceCause (requireFit Config.reference v) := raises_ok ()

/-- Without a finite top only a negative address names no cell. -/
theorem raises_checkAddress (a : Int) : RaisesReferenceCause (checkAddress Config.reference a) := by
  unfold checkAddress
  split
  · exact raises_error (by decide)
  · exact raises_ok _

section Rules
variable (s : State)

theorem raises_memRead (a : Int) : RaisesReferenceCause (memRead s.toReference a) :=
  raises_bind (raises_checkAddress a) fun _ => raises_ok _

theorem raises_memWrite (a v : Int) : RaisesReferenceCause (memWrite s.toReference a v) :=
  raises_bind (raises_checkAddress a) fun _ => raises_bind (raises_requireFit v) fun _ => raises_ok _

theorem raises_effRead (p : Param) : RaisesReferenceCause (effRead s.toReference p) := by
  unfold effRead
  cases p.mode with
  | position => exact raises_memRead s _
  | immediate => exact raises_ok _
  | relative => exact raises_memRead s _

theorem raises_effAddr (k : Nat) (p : Param) : RaisesReferenceCause (effAddr s.toReference k p) := by
  unfold effAddr
  cases p.mode with
  | position => exact raises_checkAddress _
  | immediate => exact raises_error (by decide)
  | relative => exact raises_checkAddress _

theorem raises_evalRRW (a b c : Param) : RaisesReferenceCause (evalRRW s.toReference a b c) :=
  raises_bind (raises_effRead s a) fun _ => raises_bind (raises_effRead s b) fun _ =>
    raises_bind (raises_effAddr s 3 c) fun _ => raises_ok _

theorem raises_evalRR (a b : Param) : RaisesReferenceCause (evalRR s.toReference a b) :=
  raises_bind (raises_effRead s a) fun _ => raises_bind (raises_effRead s b) fun _ => raises_ok _

theorem raises_storeAndAdvance (t : Nat) (v len : Int) :
    RaisesReferenceCause (storeAndAdvance s.toReference t v len) :=
  raises_bind (raises_requireFit _) fun _ => raises_bind (raises_memWrite s _ _) fun _ => raises_ok _

theorem raises_runArith (f : Int → Int → Int) (a b c : Param) :
    RaisesReferenceCause (runArith f s.toReference a b c) :=
  raises_bind (raises_evalRRW s a b c) fun _ => raises_bind (raises_requireFit _) fun _ =>
    raises_storeAndAdvance s _ _ _

theorem raises_runCompare (f : Int → Int → Int) (a b c : Param) :
    RaisesReferenceCause (runCompare f s.toReference a b c) :=
  raises_bind (raises_evalRRW s a b c) fun _ => raises_storeAndAdvance s _ _ _

theorem raises_jumpIf (test : Int → Bool) (a b : Param) : RaisesReferenceCause (jumpIf test s.toReference a b) :=
  raises_bind (raises_evalRR s a b) fun _ => raises_bind (raises_requireFit _) fun _ => raises_ok _

theorem raises_adjustBase (a : Param) : RaisesReferenceCause (adjustBase s.toReference a) :=
  raises_bind (raises_effRead s a) fun _ => raises_bind (raises_requireFit _) fun _ =>
    raises_bind (raises_requireFit _) fun _ => raises_ok _

theorem raises_takeInput (a : Param) : RaisesReferenceCause (takeInput s.toReference a) := by
  refine raises_bind (raises_effAddr s 1 a) fun t => raises_bind (raises_requireFit _) fun _ => ?_
  rw [State.toReference_inq]
  cases s.inq with
  | nil => exact raises_ok _
  | cons x rest => exact raises_storeAndAdvance (s.setInq rest) t x 2

theorem raises_putOutput (a : Param) : RaisesReferenceCause (putOutput s.toReference a) :=
  raises_bind (raises_effRead s a) fun _ => raises_bind (raises_requireFit _) fun _ => raises_ok (_, _)

theorem raises_completeInput (p : Pending) (x : Int) (rest : List Int) :
    RaisesReferenceCause (completeInput s.toReference p x rest) :=
  raises_bind (raises_memWrite (s.setInq rest) _ _) fun _ => raises_ok _

theorem raises_ruleOf (i : Instr) : RaisesReferenceCause (ruleOf i s.toReference) := by
  cases i with
  | add a b c => exact raises_runArith s _ a b c
  | mul a b c => exact raises_runArith s _ a b c
  | inp a => exact raises_takeInput s a
  | out a => exact raises_putOutput s a
  | jt a b => exact raises_jumpIf s _ a b
  | jf a b => exact raises_jumpIf s _ a b
  | lt a b c => exact raises_runCompare s _ a b c
  | eq a b c => exact raises_runCompare s _ a b c
  | arb a => exact raises_adjustBase s a
  | hlt => exact raises_ok _

/-! ### Fetching and stepping -/

theorem raises_fetchParam (n k : Nat) : RaisesReferenceCause (fetchParam s.toReference n k) := by
  unfold fetchParam
  split
  · exact raises_memRead s _
  · exact raises_ok _

theorem raises_fetchParams (h : Head) : RaisesReferenceCause (fetchParams s.toReference h) :=
  raises_bind (raises_fetchParam s _ _) fun _ => raises_bind (raises_fetchParam s _ _) fun _ =>
    raises_bind (raises_fetchParam s _ _) fun _ => raises_ok _

end Rules

theorem fetch_trap_referenceCause {s : State} {w : Int} {t : Trap} (hf : fetch s.toReference = .trap w t) :
    IsReferenceCause t.cause := by
  obtain ⟨-, ⟨-, rfl, -⟩ | ⟨-, he⟩⟩ := fetch_trap_cases hf
  · exact show IsReferenceCause .invalidPc by decide
  · rw [fetch_of_exists he, fetchRest] at hf
    cases hw : decodeWord (s.toReference.cell s.toReference.ip) with
    | error t' => rw [hw] at hf; cases hf; exact raises_decodeWord _ _ hw
    | ok hd =>
      cases hp : fetchParams s.toReference hd with
      | error t' => simp only [hw, hp] at hf; cases hf; exact raises_fetchParams s hd _ hp
      | ok i => simp only [hw, hp] at hf; cases hf

/-- The end of a step whose rule raises the causes 1 to 6 only, and does not answer Faulted itself. -/
theorem conclude_referenceCause {w : Int} {s s' : State} {m : Except Trap (StepResult × State)} {c : FaultCause}
    (hm : RaisesReferenceCause m) (hok : ∀ r, m = .ok r → r.1.runState ≠ .faulted)
    (h : conclude w s m = (.faulted c, s')) : IsReferenceCause c := by
  obtain ⟨r, hr, hc⟩ | ⟨t, ht, hc⟩ := conclude_cases w s m
  · rw [hc] at h; subst h; exact absurd rfl (hok _ hr)
  · rw [hc] at h; cases h; exact hm t ht

/-- A core that was not faulted raises the causes 1 to 6 only (R221). -/
theorem faulted_referenceCause {s s' : State} {c : FaultCause} (hs : s.runState ≠ .faulted)
    (h : hostStep s.toReference = .next (.faulted c, s')) : IsReferenceCause c := by
  cases hr : s.toReference.runState with
  | running =>
    rw [hostStep_of_running hr, Host.Outcome.next.injEq] at h
    cases hf : fetch s.toReference with
    | trap w t => rw [execute_of_trap hf] at h; cases h; exact fetch_trap_referenceCause hf
    | instr i =>
      rw [execute_of_instr hf, runInstr_eq_conclude] at h
      exact conclude_referenceCause (raises_ruleOf s i) (fun _ hi => (effect_of_rule_ok hi).runState_ne_faulted) h
  | awaitingInput =>
    rw [hostStep_of_awaitingInput hr] at h
    cases hq : s.toReference.inq with
    | nil => rw [resume_of_inq_nil hq] at h; cases h
    | cons x rest =>
      cases hp : s.toReference.pend with
      | none => simp only [resume, hq, hp, reduceCtorEq] at h
      | some p =>
        simp only [resume, hq, hp, Host.Outcome.next.injEq] at h
        refine conclude_referenceCause (raises_completeInput s p x rest) (fun r hi => ?_) h
        obtain ⟨-, -, rfl⟩ := completeInput_ok_iff.1 hi
        simp [StepResult.runState]
  | halted => rw [hostStep_of_halted hr] at h; cases h
  | faulted => exact absurd hr hs

/-- A hold on a full output queue needs a finite depth (R141). -/
theorem Transition.finite_of_outputStall {s s' : State} (h : Transition s .outputStall s') :
    s.cfg.outDepth = some s.outq.length := by
  cases h with
  | run _ _ he =>
    obtain ⟨-, -, -, -, -, hfull, -⟩ := he.of_outputStall
    exact hfull

/-! ### The obligations -/

/-- Settles O26: the fetch ends at the check of `IP`. -/
theorem fetchOutsideMemoryFaults : Obligations.FetchOutsideMemoryFaults := by
  unfold Obligations.FetchOutsideMemoryFaults
  intro s hr he
  have hfetch : fetch s = .trap 0 { cause := .invalidPc, info := s.ip } := by simp only [fetch, checkPc_missing he]
  exact step_of_trap hr hfetch

/-- Settles O40: a stall needs a finite queue, and the checks of the reference configuration raise the causes 1 to 6
only. -/
theorem referenceRaisesOnlyCausesOneToSix : Obligations.ReferenceRaisesOnlyCausesOneToSix := by
  unfold Obligations.ReferenceRaisesOnlyCausesOneToSix
  intro s s' r hcfg hs h
  have htr := transition_of_hostStep h
  refine ⟨?_, fun hs' => ?_⟩
  · rintro rfl
    have hfull := htr.finite_of_outputStall
    rw [hcfg] at hfull
    cases hfull
  · obtain ⟨t, -, rfl, rfl⟩ := htr.eq_raiseFault ⟨hs, hs'⟩
    have href : s.toReference = s := by rw [State.toReference, ← hcfg]
    exact faulted_referenceCause hs (href ▸ h)

end Sys2Proof.Machine
end

