-- ==== Sys2Proof/Proofs/Driving.lean ====
section
/-! Why the order of FEED, POP and STEP is unobservable (R198, R232).  A step that neither suspends nor stalls does the
same with more inputs queued and with another output queue that has room.  So every schedule is the run of one core that
is never short of input or of room, and that run has one end. -/

namespace Sys2Proof.Machine

/-! ### More input and other room for output -/

/-- The core with the inputs `more` queued behind its own, the outputs `out` queued in front of its own, and output
queues of depth `d`. -/
def State.widen (d : Option Nat) (more out : List Int) (s : State) : State :=
  { s with cfg := { s.cfg with outDepth := d }, inq := s.inq ++ more, outq := out ++ s.outq }

section Widen
variable {d : Option Nat} {more out : List Int}

@[simp] theorem State.widen_inq (s : State) : (s.widen d more out).inq = s.inq ++ more := rfl
@[simp] theorem State.widen_outq (s : State) : (s.widen d more out).outq = out ++ s.outq := rfl
@[simp] theorem State.widen_pend (s : State) : (s.widen d more out).pend = s.pend := rfl
@[simp] theorem State.widen_runState (s : State) : (s.widen d more out).runState = s.runState := rfl
@[simp] theorem State.widen_outDepth (s : State) : (s.widen d more out).cfg.outDepth = d := rfl

theorem State.widen_pushOut (s : State) (x : Int) :
    (s.widen d more out).pushOut x = (s.pushOut x).widen d more out := by
  simp [State.widen, State.pushOut]

/-- A core widened by one input only is that core after FEED. -/
theorem State.widen_eq_setInq {s : State} {v : Int} (hd : s.cfg.outDepth = d) :
    s.widen d [v] [] = s.setInq (s.inq ++ [v]) := by
  subst hd; rfl

variable (d more out) in
/-- The answer of a step with its next state widened. -/
def widenAnswer : StepResult × State → StepResult × State := Prod.map id (State.widen d more out)

/-- A sequence of checks that answer as translated by `f` answers as translated by `g`. -/
theorem bind_eq_map_bind {α β α' β' : Type} {f : α → α'} {g : β → β'} {m : Except Trap α} {m' : Except Trap α'}
    {k : α → Except Trap β} {k' : α' → Except Trap β'} (hm : m' = m.map f)
    (hk : ∀ x, m = .ok x → k' (f x) = (k x).map g) : (m' >>= k') = (m >>= k).map g := by
  subst hm
  cases m with
  | error t => rfl
  | ok x => exact hk x rfl

/-- The checks of words, addresses and operands look at neither queue. -/
theorem bind_eq_map {α β β' : Type} {g : β → β'} {m : Except Trap α} {k : α → Except Trap β}
    {k' : α → Except Trap β'} (hk : ∀ x, m = .ok x → k' x = (k x).map g) : (m >>= k') = (m >>= k).map g :=
  bind_eq_map_bind (f := id) (by rw [Except.map_id, id]) hk

variable (s : State)

theorem memWrite_widen (a v : Int) :
    memWrite (s.widen d more out) a v = (memWrite s a v).map (State.widen d more out) :=
  bind_eq_map fun _ _ => bind_eq_map fun _ _ => rfl

theorem storeAndAdvance_widen (t : Nat) (v len : Int) :
    storeAndAdvance (s.widen d more out) t v len = (storeAndAdvance s t v len).map (widenAnswer d more out) :=
  bind_eq_map fun _ _ => bind_eq_map_bind (memWrite_widen s t v) fun _ _ => rfl

theorem runArith_widen (f : Int → Int → Int) (a b c : Param) :
    runArith f (s.widen d more out) a b c = (runArith f s a b c).map (widenAnswer d more out) :=
  bind_eq_map (m := evalRRW s a b c) fun _ _ => bind_eq_map fun _ _ => storeAndAdvance_widen s _ _ _

theorem runCompare_widen (f : Int → Int → Int) (a b c : Param) :
    runCompare f (s.widen d more out) a b c = (runCompare f s a b c).map (widenAnswer d more out) :=
  bind_eq_map (m := evalRRW s a b c) fun _ _ => storeAndAdvance_widen s _ _ _

theorem jumpIf_widen (test : Int → Bool) (a b : Param) :
    jumpIf test (s.widen d more out) a b = (jumpIf test s a b).map (widenAnswer d more out) :=
  bind_eq_map (m := evalRR s a b) fun _ _ => bind_eq_map fun _ _ => rfl

theorem adjustBase_widen (a : Param) :
    adjustBase (s.widen d more out) a = (adjustBase s a).map (widenAnswer d more out) :=
  bind_eq_map (m := effRead s a) fun _ _ => bind_eq_map fun _ _ => bind_eq_map fun _ _ => rfl

/-- An input that does not suspend takes the head of the queue, whatever is queued behind it. -/
theorem takeInput_widen (a : Param) (hns : takeInput s a ≠ .ok (.suspended, s.suspend a)) :
    takeInput (s.widen d more out) a = (takeInput s a).map (widenAnswer d more out) := by
  refine bind_eq_map (m := effAddr s 1 a) fun n hn => bind_eq_map fun _ hfit => ?_
  obtain ⟨t, ht, -⟩ := effAddr_ok_iff.1 hn
  rw [State.widen_inq]
  cases hq : s.inq with
  | nil => exact absurd (takeInput_ok_iff.2 ⟨t, ht, requireFit_ok_iff.1 hfit, .inl ⟨hq, rfl⟩⟩) hns
  | cons x rest => exact storeAndAdvance_widen (s.setInq rest) n x 2

/-- An output that does not stall finds room, and appends its value at the tail. -/
theorem putOutput_widen (a : Param)
    (hroom : queueFull d (out ++ s.outq) = true → queueFull s.cfg.outDepth s.outq = true)
    (hns : putOutput s a ≠ .ok (.outputStall, s)) :
    putOutput (s.widen d more out) a = (putOutput s a).map (widenAnswer d more out) := by
  refine bind_eq_map (m := effRead s a) fun x hx => bind_eq_map fun _ hfit => ?_
  by_cases hq : queueFull s.cfg.outDepth s.outq = true
  · refine absurd (putOutput_ok_iff.2 ⟨x, effRead_ok_iff.1 hx, requireFit_ok_iff.1 hfit, ?_⟩) hns
    rw [if_pos hq]
  · rw [State.widen_outDepth, State.widen_outq, if_neg (mt hroom hq), if_neg hq, State.widen_pushOut]
    rfl

theorem completeInput_widen (p : Pending) (x : Int) (rest : List Int) :
    completeInput (s.widen d more out) p x (rest ++ more) =
      (completeInput s p x rest).map (widenAnswer d more out) :=
  bind_eq_map_bind (memWrite_widen (s.setInq rest) _ x) fun _ _ => rfl

theorem conclude_widen (w : Int) (m : Except Trap (StepResult × State)) :
    conclude w (s.widen d more out) (m.map (widenAnswer d more out)) = widenAnswer d more out (conclude w s m) := by
  cases m <;> rfl

variable (hroom : queueFull d (out ++ s.outq) = true → queueFull s.cfg.outDepth s.outq = true)
include hroom

theorem ruleOf_widen (i : Instr) (hsus : ∀ s', ruleOf i s ≠ .ok (.suspended, s'))
    (hst : ∀ s', ruleOf i s ≠ .ok (.outputStall, s')) :
    ruleOf i (s.widen d more out) = (ruleOf i s).map (widenAnswer d more out) := by
  cases i with
  | add a b c => exact runArith_widen s _ a b c
  | mul a b c => exact runArith_widen s _ a b c
  | inp a => exact takeInput_widen s a (hsus _)
  | out a => exact putOutput_widen s a hroom (hst _)
  | jt a b => exact jumpIf_widen s _ a b
  | jf a b => exact jumpIf_widen s _ a b
  | lt a b c => exact runCompare_widen s _ a b c
  | eq a b c => exact runCompare_widen s _ a b c
  | arb a => exact adjustBase_widen s a
  | hlt => rfl

theorem execute_widen (hsus : (execute s).1 ≠ .suspended) (hst : (execute s).1 ≠ .outputStall) :
    execute (s.widen d more out) = widenAnswer d more out (execute s) := by
  have hfetch : fetch (s.widen d more out) = fetch s := rfl
  cases hf : fetch s with
  | trap w t => rw [execute_of_trap hf, execute_of_trap (hfetch.trans hf)]; rfl
  | instr i =>
    rw [execute_of_instr hf, runInstr_eq_conclude] at hsus hst
    rw [execute_of_instr hf, execute_of_instr (hfetch.trans hf), runInstr_eq_conclude, runInstr_eq_conclude,
      ruleOf_widen s hroom i, conclude_widen]
    · intro s' h; rw [h] at hsus; exact hsus rfl
    · intro s' h; rw [h] at hst; exact hst rfl

/-- A step that neither suspends nor stalls is the same in the wider core, unless its output queue is full where the
other's is not. -/
theorem hostStep_widen {r : StepResult} {s' : State} (h : hostStep s = .next (r, s')) (hsus : r ≠ .suspended)
    (hst : r ≠ .outputStall) : hostStep (s.widen d more out) = .next (r, s'.widen d more out) := by
  cases hr : s.runState with
  | running =>
    rw [hostStep_of_running hr, Host.Outcome.next.injEq] at h
    have hexec := execute_widen (d := d) (more := more) (out := out) s hroom (by rwa [h]) (by rwa [h])
    rw [hostStep_of_running ((State.widen_runState s).trans hr), hexec, h]
    rfl
  | awaitingInput =>
    rw [hostStep_of_awaitingInput hr] at h
    rw [hostStep_of_awaitingInput ((State.widen_runState s).trans hr)]
    cases hq : s.inq with
    | nil => rw [resume_of_inq_nil hq] at h; cases h; exact absurd rfl hsus
    | cons x rest =>
      cases hp : s.pend with
      | none => simp only [resume, hq, hp, reduceCtorEq] at h
      | some p =>
        simp only [resume, hq, hp, Host.Outcome.next.injEq] at h
        simp only [resume, State.widen_inq, hq, List.cons_append, State.widen_pend, hp, completeInput_widen,
          conclude_widen, h]
        rfl
  | halted => rw [hostStep_of_halted hr] at h; cases h; exact hostStep_of_halted hr
  | faulted => rw [hostStep_of_faulted hr] at h; cases h; exact hostStep_of_faulted hr

end Widen

/-- No step changes the configuration (R6). -/
theorem Transition.cfg_eq {s s' : State} {r : StepResult} (h : Transition s r s') : s'.cfg = s.cfg := by
  cases h with
  | run _ _ he => cases he <;> rfl
  | _ => rfl

/-- A hold on a full output queue is the same with other inputs queued (R141). -/
theorem hostStep_stall_feed {s s' : State} (h : hostStep s = .next (.outputStall, s')) (v : Int) :
    hostStep (s.setInq (s.inq ++ [v])) = .next (.outputStall, s'.setInq (s'.inq ++ [v])) := by
  cases transition_of_hostStep h with
  | run hr hf he =>
    obtain ⟨a, x, rfl, hx, hn, hfull, rfl⟩ := he.of_outputStall
    exact hostStep_of_rule_ok (s := s'.setInq (s'.inq ++ [v])) hr hf <|
      putOutput_ok_iff.2 ⟨x, hx, hn, (if_pos (queueFull_iff.2 hfull)).symm⟩

/-! ### A suspended core as one that has not run its `in` yet -/

/-- The latch of a suspended core is that of the `in` at `IP`, so a core that runs fetches it (R112, R116). -/
theorem LatchMatches.fetch_eq {s : State} {p : Pending} (h : LatchMatches s p) :
    fetch s = .instr (.inp { mode := p.mode, raw := p.raw }) := by
  refine fetch_instr_iff.2 ⟨h.ip_exists, _, h.word_at_ip, ?_⟩
  rw [fetchParams_of_exists, h.raw_at_ip]
  · rfl
  · intro k h1 hk
    obtain rfl : k = 1 := le_antisymm hk h1
    exact h.param_exists

theorem LatchMatches.writesTo {s : State} {p : Pending} (h : LatchMatches s p) :
    WritesTo s { mode := p.mode, raw := p.raw } (pendingAddress s p) := by
  obtain ⟨hmode, -, -, -, -, htarget, -⟩ := h
  cases p with | mk m v => cases m <;> simp_all [WritesTo, operandAddress, pendingAddress]

/-- A core that runs its `in` with an input queued ends as one that suspended first (R114). -/
theorem Invariant.hostStep_unsuspend {s : State} (h : Invariant s) {p : Pending} {x : Int} {rest : List Int}
    (hp : s.pend = some p) (hq : s.inq = x :: rest) :
    hostStep s.unsuspend = .next (.progressed, resumed s p x rest) := by
  have hl := h.latch_matches p hp
  have hx : fit s.cfg x = true := h.input_queue.words x (by simp [hq])
  exact hostStep_of_rule_ok (s := s.unsuspend) rfl hl.fetch_eq <|
    takeInput_ok_iff.2 ⟨_, hl.writesTo, hl.next_ip_fits, .inr ⟨x, rest, hq, hx, rfl⟩⟩

/-! ### The core that never waits -/

/-- The run state of a core that has an input whenever it asks for one: it never awaits one. -/
def RunState.fedAtOnce : RunState → RunState
  | .awaitingInput => .running
  | .running       => .running
  | .halted        => .halted
  | .faulted       => .faulted

theorem RunState.fedAtOnce_of_ne {r : RunState} (h : r ≠ .awaitingInput) : r.fedAtOnce = r := by
  cases r with
  | awaitingInput => exact absurd rfl h
  | _ => rfl

/-- The core that has all its inputs at hand, `more` behind those queued, has room for every output, those popped
standing in front, and runs where the other awaits an input. -/
def State.ideal (more out : List Int) (s : State) : State :=
  { s with
    cfg := { s.cfg with outDepth := none }
    runState := s.runState.fedAtOnce
    pend := none
    inq := s.inq ++ more
    outq := out ++ s.outq }

section Ideal
variable {more out : List Int} {s : State}

theorem State.ideal_eq_widen (hr : s.runState ≠ .awaitingInput) (hp : s.pend = none) :
    s.ideal more out = s.widen none more out := by
  simp only [State.ideal, State.widen, RunState.fedAtOnce_of_ne hr, hp]

theorem State.ideal_unsuspend (hr : s.runState = .awaitingInput) : s.unsuspend.ideal more out = s.ideal more out := by
  simp [State.ideal, State.unsuspend, hr, RunState.fedAtOnce]

theorem State.ideal_suspend (a : Param) (hr : s.runState = .running) :
    (s.suspend a).ideal more out = s.ideal more out := by
  simp [State.ideal, State.suspend, hr, RunState.fedAtOnce]

/-- FEED moves a value from the inputs to come to those queued. -/
theorem State.ideal_feed (v : Int) : (s.setInq (s.inq ++ [v])).ideal more out = s.ideal (v :: more) out := by
  simp [State.ideal, State.setInq]

/-- POP moves a value from the outputs queued to those popped. -/
theorem State.ideal_pop {x : Int} {rest : List Int} (hq : s.outq = x :: rest) :
    (s.setOutq rest).ideal more (out ++ [x]) = s.ideal more out := by
  simp [State.ideal, State.setOutq, hq]

theorem Invariant.pend_none {s : State} (h : Invariant s) (hr : s.runState ≠ .awaitingInput) : s.pend = none :=
  Option.not_isSome_iff_eq_none.1 (mt h.latch_iff.1 hr)

theorem ideal_of_suspended {s' : State} (h : Transition s .suspended s') :
    s'.ideal more out = s.ideal more out := by
  cases h with
  | run hr _ he =>
    obtain ⟨a, t, -, -, -, -, rfl⟩ := he.of_suspended
    exact State.ideal_suspend a hr
  | wait => rfl

end Ideal

/-- A step that does not suspend is that of a core that awaits nothing and has the same ideal core. -/
theorem Invariant.exists_awake {s s' : State} {r : StepResult} (h : Invariant s) (hs : hostStep s = .next (r, s'))
    (hsus : r ≠ .suspended) :
    ∃ t : State, t.runState ≠ .awaitingInput ∧ t.pend = none ∧ hostStep t = .next (r, s') ∧
      ∀ more out, t.ideal more out = s.ideal more out := by
  by_cases hr : s.runState = .awaitingInput
  · cases hq : s.inq with
    | nil =>
      rw [hostStep_of_awaitingInput hr, resume_of_inq_nil hq] at hs
      cases hs
      exact absurd rfl hsus
    | cons x rest =>
      obtain ⟨p, hp⟩ := h.exists_latch hr
      rw [h.hostStep_resumes hr hp hq] at hs
      cases hs
      exact ⟨s.unsuspend, by simp, rfl, h.hostStep_unsuspend hp hq, fun _ _ => State.ideal_unsuspend hr⟩
  · exact ⟨s, hr, h.pend_none hr, hs, fun _ _ => rfl⟩

/-- Any number of steps. -/
def Steps : State → State → Prop := Relation.ReflTransGen fun s s' => step s = .next s'

theorem Steps.of_eq {s s' : State} (h : s' = s) : Steps s s' := h ▸ .refl

/-- A STEP of the core is a step of its ideal core, or leaves it as it is. -/
theorem Invariant.ideal_hostStep {s s' : State} {r : StepResult} (h : Invariant s) (hs : hostStep s = .next (r, s'))
    (more out : List Int) : Steps (s.ideal more out) (s'.ideal more out) := by
  have htr := transition_of_hostStep hs
  by_cases hsus : r = .suspended
  · subst hsus
    exact .of_eq (ideal_of_suspended htr)
  by_cases hst : r = .outputStall
  · subst hst
    cases htr with
    | run _ _ he =>
      obtain ⟨-, -, -, -, -, -, rfl⟩ := he.of_outputStall
      exact .of_eq rfl
  obtain ⟨t, hrun, hp, ht, hideal⟩ := h.exists_awake hs hsus
  have hrun' : s'.runState ≠ .awaitingInput := by
    rw [htr.runState_eq]
    cases r <;> simp_all [StepResult.runState]
  have hp' := (h.step (step_of_hostStep hs)).pend_none hrun'
  rw [← hideal, State.ideal_eq_widen hrun hp, State.ideal_eq_widen hrun' hp']
  exact .single (step_of_hostStep (hostStep_widen t (by simp [queueFull]) ht hsus hst))

/-! ### Schedules -/

theorem fedValues_cons (op : HostOp) (ops : List HostOp) : fedValues (op :: ops) = fedValues [op] ++ fedValues ops := by
  cases op <;> rfl

theorem poppedValues_cons (r : HostReply) (rs : List HostReply) :
    poppedValues (r :: rs) = poppedValues [r] ++ poppedValues rs := by
  cases r with
  | popped p => cases p <;> rfl
  | _ => rfl

theorem drivesOnly_cons (op : HostOp) (ops : List HostOp) :
    drivesOnly (op :: ops) = (drivesOnly [op] && drivesOnly ops) := by
  cases op <;> rfl

/-- The schedule `ops` has no LOAD and no refused FEED; it takes the core from `s` to `s'`, feeds `ins` and pops
`outs`. -/
structure Drives (ops : List HostOp) (s : State) (ins outs : List Int) (s' : State) : Prop where
  no_load    : drivesOnly ops = true
  no_refusal : ∀ e, HostReply.fed (.refused e) ∉ (hostRun ops s).1
  ends       : (hostRun ops s).2 = s'
  feeds      : fedValues ops = ins
  pops       : poppedValues (hostRun ops s).1 = outs

/-- An operation of a schedule leaves the ideal core as it is, or is a step of it. -/
theorem Invariant.ideal_hostDo {s : State} (h : Invariant s) {op : HostOp} (hd : drivesOnly [op] = true)
    (hf : ∀ e, .fed (.refused e) ≠ (hostDo op s).1) (more out : List Int) :
    Steps (s.ideal (fedValues [op] ++ more) out)
      ((hostDo op s).2.ideal more (out ++ poppedValues [(hostDo op s).1])) := by
  cases op with
  | load p => cases hd
  | feed v =>
    obtain ⟨-, -, hfeed⟩ | ⟨e, hfeed⟩ := feed_cases v s
    · rw [hostDo, hfeed]
      exact .of_eq (by simp [poppedValues, fedValues, State.ideal_feed])
    · rw [hostDo, hfeed] at hf
      exact absurd rfl (hf e)
  | pop =>
    cases hq : s.outq with
    | nil => rw [hostDo, pop_of_nil hq]; exact .of_eq (by simp [poppedValues, fedValues])
    | cons x rest => rw [hostDo, pop_of_cons hq]; exact .of_eq (State.ideal_pop hq)
  | step =>
    obtain ⟨⟨r, s'⟩, hs⟩ := h.exists_hostStep
    rw [hostDo_step_of_next hs]
    simpa [poppedValues, fedValues] using h.ideal_hostStep hs more out
  | status => exact .of_eq (by simp [hostDo, poppedValues, fedValues])

/-- A schedule runs the ideal core of all its inputs to the ideal core of its final state. -/
theorem Invariant.ideal_hostRun : ∀ {ops : List HostOp} {s : State}, Invariant s → drivesOnly ops = true →
    (∀ e, .fed (.refused e) ∉ (hostRun ops s).1) → ∀ more out,
    Steps (s.ideal (fedValues ops ++ more) out)
      ((hostRun ops s).2.ideal more (out ++ poppedValues (hostRun ops s).1))
  | [], s, _, _, _, more, out => .of_eq (by simp [hostRun, poppedValues, fedValues])
  | op :: ops, s, h, hd, hf, more, out => by
    rw [drivesOnly_cons, Bool.and_eq_true] at hd
    obtain ⟨hdop, hdops⟩ := hd
    simp only [hostRun, List.mem_cons, not_or] at hf
    have hop := h.ideal_hostDo hdop (fun e => (hf e).1) (fedValues ops ++ more) out
    have hops := (h.after_hostDo op).ideal_hostRun hdops (fun e => (hf e).2) more
      (out ++ poppedValues [(hostDo op s).1])
    have hpopped : out ++ poppedValues (hostRun (op :: ops) s).1 =
        out ++ poppedValues [(hostDo op s).1] ++ poppedValues (hostRun ops (hostDo op s).2).1 := by
      rw [hostRun, poppedValues_cons, List.append_assoc]
    rw [fedValues_cons, List.append_assoc, hpopped]
    exact hop.trans hops

/-! ### One end -/

/-- An ended core steps to itself, so it is all that it reaches (R26, R233). -/
theorem Steps.eq_of_ended {s s' : State} (h : Steps s s') (he : Ended s) : s' = s := by
  induction h with
  | refl => rfl
  | tail _ hstep ih =>
    subst ih
    obtain hr | hr := he
    · rw [step_of_halted hr] at hstep; cases hstep; rfl
    · rw [step_of_faulted hr] at hstep; cases hstep; rfl

/-- A run has one end: the step is a function. -/
theorem Steps.end_unique {s s1 s2 : State} (h1 : Steps s s1) (h2 : Steps s s2) (he1 : Ended s1) (he2 : Ended s2) :
    s1 = s2 := by
  have hfun : Relator.RightUnique fun s s' : State => step s = .next s' := fun _ _ _ ha hb =>
    Host.Outcome.next.inj (ha.symm.trans hb)
  obtain h | h := Relation.ReflTransGen.total_of_right_unique hfun h1 h2
  · exact (Steps.eq_of_ended h he1).symm
  · exact Steps.eq_of_ended h he2

theorem State.ideal_ended {s : State} (he : Ended s) (more out : List Int) :
    (s.ideal more out).runState = s.runState := by
  obtain hr | hr := he <;> simp [State.ideal, hr, RunState.fedAtOnce]

/-- Two schedules that feed from one list of inputs and end have ends with the same ideal core. -/
theorem Invariant.ideal_end_unique {s t t' : State} (h : Invariant s) {inputs ins ins' outs outs' : List Int}
    {ops ops' : List HostOp} (hd : Drives ops s ins outs t) (hd' : Drives ops' s ins' outs' t')
    (hins : ins <+: inputs) (hins' : ins' <+: inputs) (he : Ended t) (he' : Ended t') :
    ∃ more more', t.ideal more outs = t'.ideal more' outs' := by
  obtain ⟨hload, hrefuse, rfl, rfl, rfl⟩ := hd
  obtain ⟨hload', hrefuse', rfl, rfl, rfl⟩ := hd'
  obtain ⟨more, hmore⟩ := hins
  obtain ⟨more', hmore'⟩ := hins'
  have hrun := h.ideal_hostRun hload hrefuse more []
  have hrun' := h.ideal_hostRun hload' hrefuse' more' []
  rw [hmore] at hrun
  rw [hmore'] at hrun'
  refine ⟨more, more', hrun.end_unique hrun' ?_ ?_⟩
  · rwa [Ended, Succeeded, Failed, State.ideal_ended he]
  · rwa [Ended, Succeeded, Failed, State.ideal_ended he']

/-! ### The obligations -/

/-- Settles O56: more input changes no step that does not suspend, and a stall does not look at the input queue. -/
theorem feedCommutesWithStep : Obligations.FeedCommutesWithStep := by
  unfold Obligations.FeedCommutesWithStep
  intro s s1 s' v r hs hsus hfeed
  obtain ⟨-, -, rfl⟩ := feed_accepted_iff.1 hfeed
  by_cases hst : r = .outputStall
  · subst hst
    exact hostStep_stall_feed hs v
  · have hcfg := (transition_of_hostStep hs).cfg_eq
    have hwide := hostStep_widen (d := s.cfg.outDepth) (more := [v]) (out := []) s id hs hsus hst
    rwa [State.widen_eq_setInq rfl, State.widen_eq_setInq (by rw [hcfg])] at hwide

/-- Settles O57: both schedules run the one ideal core to its one end. -/
theorem drivingOrderIsUnobservable : Obligations.DrivingOrderIsUnobservable := by
  unfold Obligations.DrivingOrderIsUnobservable
  intro s inputs ops ops' h _ _ _ hd hd' hfed hfed' hf hf' he he'
  have hend : Ended (hostRun ops s).2 := by simpa using he
  have hend' : Ended (hostRun ops' s).2 := by simpa using he'
  obtain ⟨more, more', hideal⟩ := h.ideal_end_unique ⟨hd, hf, rfl, rfl, rfl⟩ ⟨hd', hf', rfl, rfl, rfl⟩ hfed hfed'
    hend hend'
  have hrunState := congrArg State.runState hideal
  rw [State.ideal_ended hend, State.ideal_ended hend'] at hrunState
  simp only [State.ideal, State.mk.injEq] at hideal
  obtain ⟨-, hmem, hip, hrb, -, -, -, hout, hcause, hfip, hword, hinfo⟩ := hideal
  exact ⟨hout, hmem, hip, hrb, hrunState, hcause.symm, hfip.symm, hword.symm, hinfo.symm⟩

end Sys2Proof.Machine
end

