-- ==== Sys2Proof/Proofs/Drivers.lean ====
section
/-! The two drivers (R196, R197).  What next_output does is said once, as an inductive relation; each of its properties
is an induction on that.  Each pass of run_to_completion is a schedule of FEEDs, STEPs and at most one POP. -/

namespace Sys2Proof.Machine

/-! ### Schedules one after the other -/

theorem hostRun_append : ∀ (ops ops' : List HostOp) (s : State),
    hostRun (ops ++ ops') s =
      ((hostRun ops s).1 ++ (hostRun ops' (hostRun ops s).2).1, (hostRun ops' (hostRun ops s).2).2)
  | [], _, _ => rfl
  | op :: ops, ops', s => by simp only [List.cons_append, hostRun, hostRun_append ops ops']

theorem poppedValues_append : ∀ rs rs' : List HostReply,
    poppedValues (rs ++ rs') = poppedValues rs ++ poppedValues rs'
  | [], _ => rfl
  | r :: rs, rs' => by
    rw [List.cons_append, poppedValues_cons, poppedValues_append rs rs', poppedValues_cons r rs, List.append_assoc]

theorem fedValues_append : ∀ ops ops' : List HostOp, fedValues (ops ++ ops') = fedValues ops ++ fedValues ops'
  | [], _ => rfl
  | op :: ops, ops' => by
    rw [List.cons_append, fedValues_cons, fedValues_append ops ops', fedValues_cons op ops, List.append_assoc]

theorem drivesOnly_append : ∀ ops ops' : List HostOp, drivesOnly (ops ++ ops') = (drivesOnly ops && drivesOnly ops')
  | [], _ => rfl
  | op :: ops, ops' => by
    rw [List.cons_append, drivesOnly_cons, drivesOnly_append ops ops', drivesOnly_cons op ops, Bool.and_assoc]

theorem Drives.nil (s : State) : Drives [] s [] [] s := ⟨rfl, by simp [hostRun], rfl, rfl, rfl⟩

theorem Drives.append {ops ops' : List HostOp} {s s1 s' : State} {ins ins' outs outs' : List Int}
    (h : Drives ops s ins outs s1) (h' : Drives ops' s1 ins' outs' s') :
    Drives (ops ++ ops') s (ins ++ ins') (outs ++ outs') s' := by
  obtain ⟨hload, hrefuse, rfl, rfl, rfl⟩ := h
  obtain ⟨hload', hrefuse', rfl, rfl, rfl⟩ := h'
  constructor
  · rw [drivesOnly_append, hload, hload', Bool.and_self]
  · intro e
    rw [hostRun_append, List.mem_append, not_or]
    exact ⟨hrefuse e, hrefuse' e⟩
  · rw [hostRun_append]
  · exact fedValues_append ops ops'
  · rw [hostRun_append, poppedValues_append]

theorem Drives.feed {v : Int} {s s' : State} (h : feed v s = (.accepted, s')) : Drives [.feed v] s [v] [] s' where
  no_load := rfl
  no_refusal := by simp [hostRun, hostDo, h]
  ends := by simp [hostRun, hostDo, h]
  feeds := rfl
  pops := rfl

theorem Drives.step {r : StepResult} {s s' : State} (h : hostStep s = .next (r, s')) : Drives [.step] s [] [] s' where
  no_load := rfl
  no_refusal := by simp [hostRun, h]
  ends := by simp [hostRun, h]
  feeds := rfl
  pops := by simp [hostRun, h, poppedValues]

theorem Drives.pop {x : Int} {rest : List Int} {s : State} (h : s.outq = x :: rest) :
    Drives [.pop] s [] [x] (s.setOutq rest) where
  no_load := rfl
  no_refusal := by simp [hostRun, hostDo]
  ends := by simp [hostRun, hostDo, pop_of_cons h]
  feeds := rfl
  pops := by simp [hostRun, hostDo, pop_of_cons h, poppedValues]

theorem Invariant.after_hostRun : ∀ (ops : List HostOp) {s : State}, Invariant s → Invariant (hostRun ops s).2
  | [], _, h => h
  | op :: ops, _, h => (h.after_hostDo op).after_hostRun ops

theorem Invariant.drives {ops : List HostOp} {s s' : State} {ins outs : List Int} (h : Invariant s)
    (hd : Drives ops s ins outs s') : Invariant s' := by
  obtain ⟨-, -, rfl, -, -⟩ := hd
  exact h.after_hostRun ops

/-! ### next_output -/

/-- The core runs or awaits an input, so next_output steps it on. -/
def Live (s : State) : Prop := s.runState = .running ∨ s.runState = .awaitingInput

/-- next_output answers `a` from `s` after `n` STEPs, with `s'` left (R196). -/
inductive Answers : Nat → State → NextOutput → State → Prop
  | value {s : State} {x : Int} {rest : List Int} (hq : s.outq = x :: rest) : Answers 0 s (.value x) (s.setOutq rest)
  | endOfStream {s : State} (hq : s.outq = []) (hr : s.runState = .halted) : Answers 0 s .endOfStream s
  | error {s : State} (hq : s.outq = []) (hr : s.runState = .faulted) :
      Answers 0 s (.error s.faultCause s.faultIp s.faultWord s.faultInfo) s
  | running {s : State} (hq : s.outq = []) (hr : Live s) : Answers 0 s .running s
  | suspended {s s' : State} (hq : s.outq = []) (h : hostStep s = .next (.suspended, s')) :
      Answers 1 s .suspended s'
  | step {n : Nat} {s s1 s' : State} {r : StepResult} {a : NextOutput} (hq : s.outq = [])
      (h : hostStep s = .next (r, s1)) (ha : Answers n s1 a s') : Answers (n + 1) s a s'

theorem nextOutput_of_cons {s : State} {x : Int} {rest : List Int} (fuel : Nat) (hq : s.outq = x :: rest) :
    nextOutput fuel s = (.value x, s.setOutq rest) := by
  unfold nextOutput; simp only [hq]

theorem nextOutput_of_halted {s : State} (fuel : Nat) (hq : s.outq = []) (hr : s.runState = .halted) :
    nextOutput fuel s = (.endOfStream, s) := by
  unfold nextOutput; simp only [hq, hr]

theorem nextOutput_of_faulted {s : State} (fuel : Nat) (hq : s.outq = []) (hr : s.runState = .faulted) :
    nextOutput fuel s = (.error s.faultCause s.faultIp s.faultWord s.faultInfo, s) := by
  unfold nextOutput; simp only [hq, hr]

theorem nextOutput_zero {s : State} (hq : s.outq = []) (hr : Live s) : nextOutput 0 s = (.running, s) := by
  unfold nextOutput
  obtain hr | hr := hr <;> simp only [hq, hr]

theorem nextOutput_of_suspended {s s' : State} (fuel : Nat) (hq : s.outq = []) (hr : Live s)
    (h : hostStep s = .next (.suspended, s')) : nextOutput (fuel + 1) s = (.suspended, s') := by
  rw [nextOutput]
  obtain hr | hr := hr <;> simp only [hq, hr, h]

theorem nextOutput_of_step {s s' : State} {r : StepResult} (fuel : Nat) (hq : s.outq = []) (hr : Live s)
    (h : hostStep s = .next (r, s')) (hne : r ≠ .suspended) : nextOutput (fuel + 1) s = nextOutput fuel s' := by
  rw [nextOutput]
  cases r with
  | suspended => exact absurd rfl hne
  | _ => obtain hr | hr := hr <;> simp only [hq, hr, h]

theorem live_or_ended (s : State) : Live s ∨ Ended s := by
  unfold Live Ended Succeeded Failed
  cases s.runState <;> simp

/-- With an output queued or the run ended, next_output answers at once. -/
theorem nextOutput_at_once (fuel : Nat) {s : State} (h : s.outq ≠ [] ∨ Ended s) :
    (nextOutput fuel s).1 ≠ .running ∧ Answers 0 s (nextOutput fuel s).1 (nextOutput fuel s).2 := by
  cases hq : s.outq with
  | cons x rest => rw [nextOutput_of_cons fuel hq]; exact ⟨nofun, .value hq⟩
  | nil =>
    obtain hr | hr := h.resolve_left (not_not.2 hq)
    · rw [nextOutput_of_halted fuel hq hr]; exact ⟨nofun, .endOfStream hq hr⟩
    · rw [nextOutput_of_faulted fuel hq hr]; exact ⟨nofun, .error hq hr⟩

/-- next_output answers after at most its bound of STEPs, and answers `running` only at its bound (R196). -/
theorem Invariant.nextOutput_answers : ∀ (fuel : Nat) {s : State}, Invariant s →
    ∃ n, n ≤ fuel ∧ ((nextOutput fuel s).1 = .running → n = fuel) ∧
      Answers n s (nextOutput fuel s).1 (nextOutput fuel s).2 := by
  intro fuel
  induction fuel with
  | zero =>
    intro s h
    by_cases hnow : s.outq ≠ [] ∨ Ended s
    · exact ⟨0, le_rfl, fun _ => rfl, (nextOutput_at_once 0 hnow).2⟩
    · obtain ⟨hq, hr⟩ := not_or.1 hnow
      have hlive := (live_or_ended s).resolve_right hr
      rw [nextOutput_zero (not_not.1 hq) hlive]
      exact ⟨0, le_rfl, fun _ => rfl, .running (not_not.1 hq) hlive⟩
  | succ fuel ih =>
    intro s h
    by_cases hnow : s.outq ≠ [] ∨ Ended s
    · obtain ⟨hne, ha⟩ := nextOutput_at_once (fuel + 1) hnow
      exact ⟨0, Nat.zero_le _, fun hrun => absurd hrun hne, ha⟩
    obtain ⟨hne, hr⟩ := not_or.1 hnow
    have hq := not_not.1 hne
    have hlive := (live_or_ended s).resolve_right hr
    obtain ⟨⟨r, s1⟩, hs⟩ := h.exists_hostStep
    by_cases hsus : r = .suspended
    · subst hsus
      rw [nextOutput_of_suspended fuel hq hlive hs]
      exact ⟨1, by omega, nofun, .suspended hq hs⟩
    · rw [nextOutput_of_step fuel hq hlive hs hsus]
      obtain ⟨n, hn, hrun, ha⟩ := ih (h.step (step_of_hostStep hs))
      exact ⟨n + 1, by omega, fun h => by rw [hrun h], .step hq hs ha⟩

/-! ### What an answer means -/

/-- A STEP that suspends leaves the core waiting, without an input and with the outputs it had (R111, R113). -/
theorem Transition.of_suspended {s s' : State} (h : Transition s .suspended s') :
    s'.runState = .awaitingInput ∧ s'.inq = [] ∧ s'.outq = s.outq := by
  cases h with
  | run _ _ he =>
    obtain ⟨a, t, -, -, -, hq, rfl⟩ := he.of_suspended
    exact ⟨rfl, hq, rfl⟩
  | wait hr hq => exact ⟨hr, hq, rfl⟩

/-- What each answer of next_output says of the state it leaves. -/
def AnswerHolds (a : NextOutput) (s' : State) : Prop :=
  match a with
  | .value _       => True
  | .endOfStream   => s'.runState = .halted ∧ s'.outq = []
  | .suspended     => s'.runState = .awaitingInput ∧ s'.inq = [] ∧ s'.outq = []
  | .error c i w v => s'.runState = .faulted ∧ s'.outq = [] ∧ s'.faultCause = c ∧ s'.faultIp = i ∧
      s'.faultWord = w ∧ s'.faultInfo = v
  | .running       => s'.outq = [] ∧ (s'.runState = .running ∨ s'.runState = .awaitingInput)
  | .stuck         => False

/-- The output an answer took out of the queue. -/
def NextOutput.popped : NextOutput → List Int
  | .value x => [x]
  | _ => []

/-- The number of STEPs and POPs of a schedule. -/
def work (ops : List HostOp) : Nat := (ops.filter fun op => decide (op = .step ∨ op = .pop)).length

theorem work_append (ops ops' : List HostOp) : work (ops ++ ops') = work ops + work ops' := by
  simp only [work, List.filter_append, List.length_append]

section Answers
variable {n : Nat} {s s' : State} {a : NextOutput}

theorem Answers.holds (h : Answers n s a s') : AnswerHolds a s' := by
  induction h with
  | value => trivial
  | endOfStream hq hr => exact ⟨hr, hq⟩
  | error hq hr => exact ⟨hr, hq, rfl, rfl, rfl, rfl⟩
  | running hq hr => exact ⟨hq, hr⟩
  | suspended hq h =>
    obtain ⟨hr, hin, hout⟩ := (transition_of_hostStep h).of_suspended
    exact ⟨hr, hin, hout.trans hq⟩
  | step _ _ _ ih => exact ih

/-- A queued output is answered at once. -/
theorem Answers.of_cons {y : Int} {rest : List Int} (h : Answers n s a s') (hs : s.outq = y :: rest) :
    a = .value y ∧ s' = s.setOutq rest := by
  cases h with
  | value hq => obtain ⟨rfl, rfl⟩ := List.cons.inj (hq.symm.trans hs); exact ⟨rfl, rfl⟩
  | endOfStream hq => cases hq.symm.trans hs
  | error hq => cases hq.symm.trans hs
  | running hq => cases hq.symm.trans hs
  | suspended hq => cases hq.symm.trans hs
  | step hq => cases hq.symm.trans hs

theorem hostRun_replicate_succ {s s1 : State} {r : StepResult} (h : hostStep s = .next (r, s1)) (n : Nat) :
    (hostRun (List.replicate (n + 1) .step) s).2 = (hostRun (List.replicate n .step) s1).2 := by
  rw [List.replicate_succ, hostRun, hostDo_step_of_next h]

/-- No STEP is made with an output queued. -/
theorem Answers.outq_nil (h : Answers n s a s') :
    ∀ k, k < n → (hostRun (List.replicate k .step) s).2.outq = [] := by
  induction h with
  | suspended hq =>
    rintro (_ | k) hk
    · exact hq
    · omega
  | step hq hs _ ih =>
    rintro (_ | k) hk
    · exact hq
    · rw [hostRun_replicate_succ hs]; exact ih k (by omega)
  | _ => intro k hk; omega

/-- The STEPs leave the state of the answer, the value that a POP takes out of it still queued. -/
theorem Answers.hostRun_eq (h : Answers n s a s') :
    (hostRun (List.replicate n .step) s).2 = s'.setOutq (a.popped ++ s'.outq) := by
  induction h with
  | @value s x rest hq =>
    show s = s.setOutq (x :: rest)
    rw [← hq]; rfl
  | suspended hq hs => rw [hostRun_replicate_succ hs]; rfl
  | step _ hs _ ih => rw [hostRun_replicate_succ hs]; exact ih
  | _ => rfl

/-- What next_output does is a schedule: its STEPs and, for a value, one POP. -/
theorem Answers.drives (h : Answers n s a s') :
    ∃ ops, Drives ops s [] a.popped s' ∧ n + a.popped.length ≤ work ops := by
  induction h with
  | value hq => exact ⟨_, .pop hq, le_rfl⟩
  | suspended _ hs => exact ⟨_, .step hs, le_rfl⟩
  | step _ hs _ ih =>
    obtain ⟨ops, hd, hwork⟩ := ih
    refine ⟨_, (Drives.step hs).append hd, ?_⟩
    rw [work_append]
    have hone : work [.step] = 1 := rfl
    omega
  | _ => exact ⟨_, .nil _, le_rfl⟩

theorem Answers.one_le_of_suspended (h : Answers n s .suspended s') : 1 ≤ n := by
  cases h with
  | suspended => exact le_rfl
  | step => omega

end Answers

/-! ### run_to_completion -/

/-- The inputs fed at the head of a pass are accepted FEEDs, and the first of those pending (R197). -/
theorem feedAll_drives : ∀ (pending : List Int) (s : State), ∃ ops ins,
    pending = ins ++ (feedAll pending s).1 ∧ Drives ops s ins [] (feedAll pending s).2
  | [], s => ⟨[], [], rfl, .nil s⟩
  | v :: pending, s => by
    obtain ⟨-, -, hfeed⟩ | ⟨e, hfeed⟩ := feed_cases v s
    · obtain ⟨ops, ins, hins, hd⟩ := feedAll_drives pending (s.setInq (s.inq ++ [v]))
      simp only [feedAll, hfeed]
      exact ⟨_, v :: ins, congrArg (v :: ·) hins, (Drives.feed hfeed).append hd⟩
    · simp only [feedAll, hfeed]
      exact ⟨[], [], rfl, .nil s⟩

/-- What each end of run_to_completion says of the state it leaves, after a schedule `ops` that fed `ins` of the inputs
`pending`, if the bound is `b`. -/
def EndsAs (b : Nat) (pending : List Int) (ops : List HostOp) (ins : List Int) (c : Completion) (s' : State) : Prop :=
  match c with
  | .completed       => Succeeded s' ∧ s'.outq = []
  | .faulted c i w v => Failed s' ∧ s'.outq = [] ∧ s'.faultCause = c ∧ s'.faultIp = i ∧ s'.faultWord = w ∧
      s'.faultInfo = v
  | .starved         => Stuck s' ∧ s'.outq = [] ∧ ins = pending
  | .running         => b ≤ work ops
  | .stuck           => False

/-- A pass before the rest of the loop adds its inputs and its work. -/
theorem EndsAs.prepend {b b' : Nat} {pending ins ins' : List Int} {ops ops' : List HostOp} {c : Completion} {s' : State}
    (h : EndsAs b pending ops ins c s') (hb : b' ≤ work ops' + b) :
    EndsAs b' (ins' ++ pending) (ops' ++ ops) (ins' ++ ins) c s' := by
  cases c with
  | completed => exact h
  | faulted => exact h
  | starved =>
    obtain ⟨hstuck, hout, rfl⟩ := h
    exact ⟨hstuck, hout, rfl⟩
  | running =>
    have hwork : b ≤ work ops := h
    show b' ≤ work (ops' ++ ops)
    rw [work_append]; omega
  | stuck => exact h

/-- One pass of the loop: what it feeds, what it pops and what its answer says. -/
theorem Invariant.pass {s : State} (h : Invariant s) (fuel : Nat) (pending : List Int) {left : List Int}
    {s1 s' : State} {a : NextOutput} (hfeed : feedAll pending s = (left, s1)) (hnext : nextOutput fuel s1 = (a, s')) :
    ∃ ops ins n, pending = ins ++ left ∧ Drives ops s ins a.popped s' ∧ Answers n s1 a s' ∧
      (a = .running → n = fuel) ∧ n + a.popped.length ≤ work ops := by
  obtain ⟨ops, ins, hins, hd⟩ := feedAll_drives pending s
  rw [hfeed] at hins hd
  obtain ⟨n, -, hrun, ha⟩ := (h.drives hd).nextOutput_answers fuel
  simp only [hnext] at hrun ha
  obtain ⟨ops', hd', hwork⟩ := ha.drives
  refine ⟨ops ++ ops', ins, n, hins, ?_, ha, hrun, ?_⟩
  · simpa using hd.append hd'
  · rw [work_append]; omega

/-- A run of the loop from `s` with the inputs `pending` and the outputs `outs` collected before: a schedule that feeds
the first of those inputs, adds what it pops to those outputs, and ends as `c` says of `s'`. -/
def LoopRuns (b : Nat) (pending outs : List Int) (s : State) (outs' : List Int) (c : Completion) (s' : State) : Prop :=
  ∃ ops ins popped, Drives ops s ins popped s' ∧ outs' = outs ++ popped ∧ ins <+: pending ∧
    EndsAs b pending ops ins c s'

section LoopRuns
variable {ops : List HostOp} {b b' : Nat} {ins left outs outs' popped : List Int} {s s1 s' : State} {c : Completion}

/-- The last pass pops nothing. -/
theorem LoopRuns.last_pass (hd : Drives ops s ins [] s') (h : EndsAs b (ins ++ left) ops ins c s') :
    LoopRuns b (ins ++ left) outs s outs c s' :=
  ⟨ops, ins, [], hd, (List.append_nil outs).symm, List.prefix_append ins left, h⟩

theorem LoopRuns.after_pass (h : LoopRuns b left (outs ++ popped) s1 outs' c s') (hd : Drives ops s ins popped s1)
    (hb : b' ≤ work ops + b) : LoopRuns b' (ins ++ left) outs s outs' c s' := by
  obtain ⟨ops', ins', popped', hd', rfl, hins, hend⟩ := h
  exact ⟨_, _, _, hd.append hd', List.append_assoc outs popped popped', (List.prefix_append_right_inj ins).2 hins,
    hend.prepend hb⟩

end LoopRuns

/-- run_to_completion is a schedule, pass by pass (R197). -/
theorem Invariant.loopRuns (fuel : Nat) : ∀ {rounds : Nat} {pending outs outs' : List Int} {s s' : State}
    {c : Completion}, Invariant s → runLoop fuel rounds pending outs s = ((outs', c), s') →
    LoopRuns (min fuel rounds) pending outs s outs' c s' := by
  intro rounds
  induction rounds with
  | zero =>
    intro pending outs outs' s s' c _ h
    cases h
    have hbound : min fuel 0 ≤ work [] := by simp
    exact LoopRuns.last_pass (.nil s) hbound
  | succ rounds ih =>
    intro pending outs outs' s s' c hinv h
    obtain ⟨⟨left, s1⟩, hfeed⟩ : ∃ fed, feedAll pending s = fed := ⟨_, rfl⟩
    obtain ⟨⟨a, s2⟩, hnext⟩ : ∃ answer, nextOutput fuel s1 = answer := ⟨_, rfl⟩
    simp only [runLoop, hfeed, hnext] at h
    obtain ⟨ops, ins, n, rfl, hd, ha, hrun, hwork⟩ := hinv.pass fuel pending hfeed hnext
    have hholds := ha.holds
    cases a with
    | value x =>
      have hpop : n + 1 ≤ work ops := hwork
      exact (ih (hinv.drives hd) h).after_pass hd (by omega)
    | endOfStream => cases h; exact .last_pass hd hholds
    | error => cases h; exact .last_pass hd hholds
    | suspended =>
      obtain ⟨hr, hin, hout⟩ := hholds
      by_cases hleft : left = []
      · simp only [if_pos hleft] at h
        cases h
        exact .last_pass hd ⟨⟨hr, hin⟩, hout, by rw [hleft, List.append_nil]⟩
      · simp only [if_neg hleft] at h
        rw [← List.append_nil outs] at h
        have hone : 1 ≤ n := ha.one_le_of_suspended
        exact (ih (hinv.drives hd) h).after_pass hd (by omega)
    | running =>
      cases h
      have hbound : min fuel (rounds + 1) ≤ work ops := by
        have hn : n = fuel := hrun rfl
        omega
      exact .last_pass hd hbound
    | stuck => cases hholds

/-! ### The obligations -/

/-- Settles O52: by induction on the STEPs that next_output makes. -/
theorem nextOutputAnswers : Obligations.NextOutputAnswers := by
  unfold Obligations.NextOutputAnswers
  intro fuel s s' r h hnext
  obtain ⟨n, hn, hrun, ha⟩ := h.nextOutput_answers fuel
  rw [hnext] at hrun ha
  refine ⟨⟨n, hn, hrun, ha.outq_nil, ?_⟩, fun y rest hq => ha.of_cons hq, ?_⟩
  · rw [ha.hostRun_eq]
    cases r <;> rfl
  · have hholds := ha.holds
    cases r <;> exact hholds

/-- Settles O53: the loop is a schedule, pass by pass. -/
theorem runToCompletionOutcomes : Obligations.RunToCompletionOutcomes := by
  unfold Obligations.RunToCompletionOutcomes
  intro bound inputs outs s s' c h hrun
  obtain ⟨ops, ins, popped, hd, houts, hins, hend⟩ := h.loopRuns bound hrun
  obtain ⟨hload, hrefuse, hends, rfl, rfl⟩ := hd
  refine ⟨ops, hload, hrefuse, hends, by simpa using houts.symm, hins, ?_⟩
  rw [Nat.min_self] at hend
  cases c <;> exact hend

end Sys2Proof.Machine
end
